-- ==== Sys2Proof/Word.lean ====
section
/-! DEFINITION. The words of the two streams and the numbers of the stage slots. -/

namespace Sys2Proof

/-- A word of the command or the response stream, and the bit pattern of an `F32` (R12, R13, R61). -/
abbrev Word := BitVec 32

/-- A byte of a byte-wide transport (R62). -/
abbrev Byte := BitVec 8

/-- A stage slot, 0 to 3 (R2, R84). -/
abbrev Slot := Fin 4

/-- The pattern of +0, the value RST, CRST and hardware reset leave in a state register (R43). -/
def plusZero : Word := 0x00000000#32

/-- The pattern of +1.0, the reset value of `b0` (R43). -/
def plusOne : Word := 0x3F800000#32

end Sys2Proof
end

