-- ==== Sys2Proof/Config.lean ====
section
/-! DEFINITION. What an implementation fixes (R10): the open parameters of the unit and of its controller, and the
free draws of a NaN result. -/

namespace Sys2Proof

/-- `FORM` (R10): the realization of the stage step. -/
inductive Form where
  | tdf2   -- transposed direct form II, R110
  | df2    -- direct form II, R111
  deriving DecidableEq, Repr

/-- `BYPASS_POLICY` (R10, R112): what a bypassed stage does with its state registers. -/
inductive BypassPolicy where
  | frozen    -- neither read nor written
  | running   -- computed and written, the output still the input
  deriving DecidableEq, Repr

/-- `CLEAR_ON_RECONFIG` (R10, R188): a parameter of the controller. -/
inductive ClearPolicy where
  | never
  | onSlopeChange
  | onValueChange
  deriving DecidableEq, Repr

/-- The open parameters of one unit (R10). They are plain data beside the unit's state and no step writes them, so
a statement about every state is a statement about every value of the parameters (log entry 2, DESIGN CHOICE, safe). -/
structure Params where
  form   : Form
  bypass : BypassPolicy
  /-- `SNAP`: `none` is NONE, `some T` the threshold T, a binary32 pattern. -/
  snap   : Option Word
  deriving DecidableEq, Repr

/-- The defaults R10 gives: TDF2, FROZEN, NONE. -/
def Params.default : Params := { form := .tdf2, bypass := .frozen, snap := none }

/-- The default R10 gives for `CLEAR_ON_RECONFIG`. -/
def ClearPolicy.default : ClearPolicy := .never

/-- The free sign of NaN result `n` of draw source `source` (`NAN_OUT`, R10, R16; 93 I8). No body: no proof can see its
value. The spec leaves open how the draws of different units relate: each unit of the design has a source of its own, so
that nothing relates them (log entry 3, DEDUCED, safe). -/
opaque Config.nanSign (source n : Nat) : Bool

/-- The free fraction of NaN result `n` of draw source `source`, less one: every nonzero 23-bit fraction is some value of
it (`NAN_OUT`, R10, R16; log entry 3, DEDUCED, safe). -/
opaque Config.nanFraction (source n : Nat) : Fin 8388607

end Sys2Proof
end

