-- ==== Sys2Proof/Syntax.lean ====
section
/-! DEFINITION. The commands of BQCMD-1 (R82), one constructor per row of the opcode table, with the payload words
a command carries (R80, R89). -/

namespace Sys2Proof

/-- A command: its operation, the fields it uses (R81) and its payload words (R89). -/
inductive Instr where
  /-- PROC: process sample `x` through stage slot `k` (R113). -/
  | proc (k : Slot) (x : Word)
  /-- LDC: load the coefficient set of slot `k` (R114). -/
  | ldc (k : Slot) (b0 b1 b2 a1 a2 : Word)
  /-- RST: clear the state registers of slot `k` (R115). -/
  | rst (k : Slot)
  /-- BYP: set the bypass bit of slot `k` to `f`; `true` is 1, Bypassed (R86, R116). -/
  | byp (k : Slot) (f : Bool)
  /-- CPROC: process sample `x` through the cascade (R141). -/
  | cproc (x : Word)
  /-- SLOPE: activate slots 0 to `c` and bypass the rest (R142). -/
  | slope (c : Slot)
  /-- CBYP: set the cascade bypass bit to `f` (R143). -/
  | cbyp (f : Bool)
  /-- CRST: clear the state registers of all four slots (R144). -/
  | crst
  /-- BLK: mark a block boundary, apply `SNAP` (R145). -/
  | blk
  /-- RDST: emit the STATUS register (R146). -/
  | rdst
  deriving DecidableEq, Repr

end Sys2Proof
end

