-- ==== Sys2Proof/WellFormed.lean ====
section
/-! DEFINITION. Which commands and which parameter values are well formed. -/

namespace Sys2Proof

/-- Every command is well formed: each value of STG names a slot (R84), each SLP and F is legal (R85, R86) and each
32-bit pattern is a legal payload word (R88), so the types of the fields say it all. -/
def Instr.wellFormed : Instr → Bool
  | .proc _ _ => true
  | .ldc _ _ _ _ _ _ => true
  | .rst _ => true
  | .byp _ _ => true
  | .cproc _ => true
  | .slope _ => true
  | .cbyp _ => true
  | .crst => true
  | .blk => true
  | .rdst => true

/-- A `SNAP` threshold is a positive `F32` (R145): sign 0, not zero, not a NaN. -/
def thresholdWellFormed (t : Word) : Bool :=
  decide (0 < t.toNat) && decide (t.toNat ≤ 0x7F800000)

/-- The parameters are well formed when `SNAP` is NONE or a positive threshold (R10, R145). -/
def Params.wellFormed (p : Params) : Bool :=
  match p.snap with
  | none => true
  | some t => thresholdWellFormed t

end Sys2Proof
end

