-- ==== Sys2Proof/Decode.lean ====
section
/-! DEFINITION. The decoder of BQCMD-1, total on any words and any bytes and rejecting by the names of the spec's two
errors (R90 to R92), and after it the encoder, written from the same tables (R81, R82, R89). -/

namespace Sys2Proof

/-- The operations the opcode map defines (R82). -/
inductive Op where
  | proc | ldc | rst | byp | cproc | slope | cbyp | crst | blk | rdst
  deriving DecidableEq, Repr

/-- A decoded command word: what `decode(w)` of R92 returns. -/
structure Header where
  op  : Op
  stg : Slot
  slp : Slot
  f   : Bool
  deriving DecidableEq, Repr

/-- The two errors of a command word (R200). -/
inductive CommandError where
  /-- OP is reserved (R90, R201). -/
  | illegalOpcode
  /-- OP is defined, a bit outside its fields is 1 (R91, R202). -/
  | reservedField
  deriving DecidableEq, Repr

/-- The value of OP that selects an operation (R82). -/
def Op.code : Op → BitVec 4
  | .proc => 0x1#4
  | .ldc => 0x2#4
  | .rst => 0x3#4
  | .byp => 0x4#4
  | .cproc => 0x8#4
  | .slope => 0x9#4
  | .cbyp => 0xA#4
  | .crst => 0xB#4
  | .blk => 0xC#4
  | .rdst => 0xD#4

/-- The operation an OP value selects; `none` for the reserved values 0x0, 0x5, 0x6, 0x7, 0xE and 0xF (R82, R90). -/
def opOfCode (c : BitVec 4) : Option Op :=
  match c.toNat with
  | 0x1 => some .proc
  | 0x2 => some .ldc
  | 0x3 => some .rst
  | 0x4 => some .byp
  | 0x8 => some .cproc
  | 0x9 => some .slope
  | 0xA => some .cbyp
  | 0xB => some .crst
  | 0xC => some .blk
  | 0xD => some .rdst
  | _ => none

/-- The operations that use the STG field (R81). -/
def Op.usesStg : Op → Bool
  | .proc | .ldc | .rst | .byp => true
  | .cproc | .slope | .cbyp | .crst | .blk | .rdst => false

/-- The operations that use the SLP field (R81). -/
def Op.usesSlp : Op → Bool
  | .slope => true
  | .proc | .ldc | .rst | .byp | .cproc | .cbyp | .crst | .blk | .rdst => false

/-- The operations that use the F bit (R81). -/
def Op.usesF : Op → Bool
  | .byp | .cbyp => true
  | .proc | .ldc | .rst | .cproc | .slope | .crst | .blk | .rdst => false

/-- `usedmask(op)` of R92. -/
def Op.usedMask (op : Op) : Word :=
  0xF0000000#32 ||| (if op.usesStg then 0x0C000000#32 else 0#32)
    ||| (if op.usesSlp then 0x03000000#32 else 0#32)
    ||| (if op.usesF then 0x00000001#32 else 0#32)

/-- How many payload words follow the command word (R82, R83). -/
def Op.payloadWords : Op → Nat
  | .proc => 1
  | .ldc => 5
  | .cproc => 1
  | .rst | .byp | .slope | .cbyp | .crst | .blk | .rdst => 0

/-- The field OP of a command word (R81). -/
def opField (w : Word) : BitVec 4 := w.extractLsb' 28 4

/-- The field STG of a command word, `w[27:26]` (R81, R84). -/
def stgField (w : Word) : Slot := (w.extractLsb' 26 2).toFin

/-- The field SLP of a command word, `w[25:24]` (R81, R85). -/
def slpField (w : Word) : Slot := (w.extractLsb' 24 2).toFin

/-- The bit F of a command word, `w[0]` (R81, R86). -/
def fField (w : Word) : Bool := w.getLsbD 0

/-- `decode(w)` of R92: ILLEGAL_OPCODE is checked first, then RESERVED_FIELD. -/
def decodeWord (w : Word) : Except CommandError Header :=
  match opOfCode (opField w) with
  | none => .error .illegalOpcode
  | some op =>
    if w &&& ~~~op.usedMask = 0#32 then
      .ok { op := op, stg := stgField w, slp := slpField w, f := fField w }
    else .error .reservedField

/-- The command a decoded command word and its payload words make: `P[i]` is word `i` of the payload (R88, R89). -/
def assemble (h : Header) (p : List Word) : Instr :=
  match h.op with
  | .proc => .proc h.stg (p.getD 0 0#32)
  | .ldc => .ldc h.stg (p.getD 0 0#32) (p.getD 1 0#32) (p.getD 2 0#32) (p.getD 3 0#32) (p.getD 4 0#32)
  | .rst => .rst h.stg
  | .byp => .byp h.stg h.f
  | .cproc => .cproc (p.getD 0 0#32)
  | .slope => .slope h.slp
  | .cbyp => .cbyp h.f
  | .crst => .crst
  | .blk => .blk
  | .rdst => .rdst

/-- What the words at the front of a stream are. -/
inductive Decoded where
  /-- One whole command, and the words after it. -/
  | command (i : Instr) (rest : List Word)
  /-- An erroneous command word `w`, and the words after it (R83: it is one word long). -/
  | rejected (e : CommandError) (w : Word) (rest : List Word)
  /-- A command word whose payload words have not all arrived (R39). -/
  | incomplete (h : Header) (got : List Word)
  /-- No word. -/
  | empty
  deriving DecidableEq, Repr

/-- The command of header `h` whose payload starts at the front of `ws` (R39, R83). -/
def takePayload (h : Header) (ws : List Word) : Decoded :=
  if ws.length < h.op.payloadWords then .incomplete h ws
  else .command (assemble h (ws.take h.op.payloadWords)) (ws.drop h.op.payloadWords)

/-- Decode the front of a word stream whose first word stands in command position (R83, R92). -/
def decode : List Word → Decoded
  | [] => .empty
  | w :: ws =>
    match decodeWord w with
    | .error e => .rejected e w ws
    | .ok h => takePayload h ws

/-- A word as a byte-wide transport carries it: four bytes, the least significant first (R62). -/
def bytesOfWord (w : Word) : List Byte :=
  [w.extractLsb' 0 8, w.extractLsb' 8 8, w.extractLsb' 16 8, w.extractLsb' 24 8]

/-- The word four bytes of a transport carry, the first byte in bits 7:0 (R62). -/
def wordOfBytes (b0 b1 b2 b3 : Byte) : Word := b3 ++ b2 ++ b1 ++ b0

/-- The whole words of a byte stream and the bytes of a last word that has not all arrived (R62, R63). -/
def wordsOfBytes : List Byte → List Word × List Byte
  | b0 :: b1 :: b2 :: b3 :: bs =>
    let r := wordsOfBytes bs
    (wordOfBytes b0 b1 b2 b3 :: r.1, r.2)
  | bs => ([], bs)

/-- The bytes of a list of words, in stream order (R62). -/
def bytesOfWords : List Word → List Byte
  | [] => []
  | w :: ws => bytesOfWord w ++ bytesOfWords ws

/-- Decode the front of a byte stream: a partial last word is not yet a word (R62, R63). -/
def decodeBytes (bs : List Byte) : Decoded := decode (wordsOfBytes bs).1

/-! ## The encoder -/

/-- The command word `{OP, STG, SLP, RSV, F}`, RSV zero (R81). -/
def commandWord (op : Op) (stg slp : Slot) (f : Bool) : Word :=
  op.code ++ BitVec.ofFin (w := 2) stg ++ BitVec.ofFin (w := 2) slp ++ 0#23 ++ BitVec.ofBool f

/-- The words of a command: its command word, then its payload in order (R80, R89, R94). -/
def encode : Instr → List Word
  | .proc k x => [commandWord .proc k 0 false, x]
  | .ldc k b0 b1 b2 a1 a2 => [commandWord .ldc k 0 false, b0, b1, b2, a1, a2]
  | .rst k => [commandWord .rst k 0 false]
  | .byp k f => [commandWord .byp k 0 f]
  | .cproc x => [commandWord .cproc 0 0 false, x]
  | .slope c => [commandWord .slope 0 c false]
  | .cbyp f => [commandWord .cbyp 0 0 f]
  | .crst => [commandWord .crst 0 0 false]
  | .blk => [commandWord .blk 0 0 false]
  | .rdst => [commandWord .rdst 0 0 false]

/-- The operation of a command. -/
def Instr.op : Instr → Op
  | .proc _ _ => .proc
  | .ldc _ _ _ _ _ _ => .ldc
  | .rst _ => .rst
  | .byp _ _ => .byp
  | .cproc _ => .cproc
  | .slope _ => .slope
  | .cbyp _ => .cbyp
  | .crst => .crst
  | .blk => .blk
  | .rdst => .rdst

/-- The length of a command in words, decided by OP alone (R83). -/
def Instr.words (i : Instr) : Nat := 1 + i.op.payloadWords

/-- The bytes of a command on a byte-wide transport (R62). -/
def encodeBytes (i : Instr) : List Byte := bytesOfWords (encode i)

/-- The 30 legal command words as R96 lists them, each with its operation. The decoder does not use the list. -/
def legalCommandWords : List (Op × Word) :=
  [(.proc, 0x10000000#32), (.proc, 0x14000000#32), (.proc, 0x18000000#32), (.proc, 0x1C000000#32),
   (.ldc, 0x20000000#32), (.ldc, 0x24000000#32), (.ldc, 0x28000000#32), (.ldc, 0x2C000000#32),
   (.rst, 0x30000000#32), (.rst, 0x34000000#32), (.rst, 0x38000000#32), (.rst, 0x3C000000#32),
   (.byp, 0x40000000#32), (.byp, 0x40000001#32), (.byp, 0x44000000#32), (.byp, 0x44000001#32),
   (.byp, 0x48000000#32), (.byp, 0x48000001#32), (.byp, 0x4C000000#32), (.byp, 0x4C000001#32),
   (.cproc, 0x80000000#32),
   (.slope, 0x90000000#32), (.slope, 0x91000000#32), (.slope, 0x92000000#32), (.slope, 0x93000000#32),
   (.cbyp, 0xA0000000#32), (.cbyp, 0xA0000001#32),
   (.crst, 0xB0000000#32), (.blk, 0xC0000000#32), (.rdst, 0xD0000000#32)]

/-! ## The opcode table's numbering of an instruction's bits -/

/-- The six words (the longest command, R83) of a number whose bits 31:0 are the first word; bits above `nbits` are 0. -/
def tableWords (nbits w : Nat) : List Word :=
  let v := w % 2 ^ nbits
  [BitVec.ofNat 32 v, BitVec.ofNat 32 (v >>> 32), BitVec.ofNat 32 (v >>> 64), BitVec.ofNat 32 (v >>> 96),
    BitVec.ofNat 32 (v >>> 128), BitVec.ofNat 32 (v >>> 160)]

/-- The command the decoder reads from an instruction numbered as the opcode table numbers it, laid out on the byte
transport least significant byte first (R62). -/
def decodeTableWord (nbits w : Nat) : Option Instr :=
  match decodeBytes (bytesOfWords (tableWords nbits w)) with
  | .command i _ => some i
  | .rejected _ _ _ => none
  | .incomplete _ _ => none
  | .empty => none

end Sys2Proof
end

