-- ==== Sys2Proof/Machine/State.lean ====
section
/-! DEFINITION. The state of one cascade unit as plain data (R30), its value after hardware reset (R43), and the
reasons a step can end without a next state. -/

namespace Sys2Proof.Machine

open Sys2Proof

/-- One stage slot: five coefficient registers (R31), two state registers (R32) and the bypass bit (R33). There is no
`a0` register: the set is normalised (R31). -/
structure Stage where
  b0  : Word
  b1  : Word
  b2  : Word
  a1  : Word
  a2  : Word
  s1  : Word
  s2  : Word
  /-- `true` is 1, Bypassed; `false` is 0, Active (R33). -/
  byp : Bool
  deriving DecidableEq, Repr

/-- The four stage slots `st[0..3]` (R2, R30); the unit has exactly four. -/
structure Bank where
  slot0 : Stage
  slot1 : Stage
  slot2 : Stage
  slot3 : Stage
  deriving DecidableEq, Repr

/-- The state of the STATUS register: ERRCODE, bits 7:0, and OVF, bit 8 (R30, R35). Bits 31:9 hold no state. -/
structure Status where
  errcode : BitVec 8
  ovf     : Bool
  deriving DecidableEq, Repr

/-- A command whose command word has been accepted and whose payload words have not all arrived (R39). -/
structure Pending where
  head : Header
  /-- The payload words received so far, oldest first. -/
  got  : List Word
  deriving DecidableEq, Repr

/-- The two errors of the unit (R200) as the record R208 asks for: the word and its `pc`; the constructor is the code.
`recordError` (Machine/Ops.lean) makes the record of the first erroneous word and keeps it in `State.faultRec`; the
unit itself goes on (R204), so `step` answers a next state. The outcome `.fault` is answered only by
`faultingStep` (Safety.lean), the reading of R208. Safe: that reading stops where the unit goes on. -/
inductive Fault where
  /-- Code 1, ILLEGAL_OPCODE (R201). Made by `recordError`, answered by `faultingStep`. Safe (the reading stops, the
  unit goes on). -/
  | illegalOpcode (word : Word) (pc : Nat)
  /-- Code 2, RESERVED_FIELD (R202). Made by `recordError`, answered by `faultingStep`. Safe (the reading stops, the
  unit goes on). -/
  | reservedField (word : Word) (pc : Nat)
  deriving DecidableEq, Repr

/-- Why a step has no next state and is no fault. -/
inductive Refusal where
  /-- The command stream holds no word to consume: the unit waits and holds all its state, with `pend` as it is
  (R217, 93 I16: stuck, the model has no step). Raised by `step` and `transfer` alone, never by a command. Safe: the
  model stops where the unit waits. -/
  | awaitingWord
  /-- The command has no meaning in the model. Raised by no arm of `exec`. Safe. -/
  | notModelled (mnemonic : String)
  deriving DecidableEq, Repr

/-- The state of one cascade unit (R30), the fault record of R208, and four fields of the model's own: the words the
controller has offered (`stream`), the open parameters (`params`), and the source and the index of the next free draw
(`source`, `draws`). -/
structure State where
  /-- The stage slots (R31 to R33). -/
  st       : Bank
  /-- The cascade bypass bit; `true` is 1, bypassed (R34). -/
  cbyp     : Bool
  /-- STATUS (R35). -/
  status   : Status
  /-- The partially received command (R39). -/
  pend     : Option Pending
  /-- The command-stream index in words, without a width limit (R37). While `pend` is not empty it is the index of the
  pending command's command word (log entry 5, DESIGN CHOICE, safe). -/
  pc       : Nat
  /-- The response stream since reset, oldest word first (R38). -/
  out      : List Word
  /-- The record of the first error, kept for the rest of the run (R208). -/
  faultRec : Option Fault
  /-- The MODEL's own: the command-stream words the controller has offered and the unit has not consumed, next word
  first (R37, R60; log entry 1, DESIGN CHOICE, safe). -/
  stream   : List Word
  /-- The open parameters of this unit (R10; log entry 2, DESIGN CHOICE, safe). No step writes them. -/
  params   : Params
  /-- The MODEL's own: how many free draws of `NAN_OUT` have been used (log entry 3, DEDUCED, safe). -/
  draws    : Nat
  /-- The MODEL's own: which source of free draws is this unit's (log entry 3, DEDUCED, safe). No command can read it and
  no step writes it; it is no identifier register, of which the unit has none (R215). -/
  source   : Nat
  deriving DecidableEq, Repr

/-- A stage slot after hardware reset (R43): the set (1, 0, 0, 0, 0), zero state, Bypassed. -/
def Stage.reset : Stage :=
  { b0 := plusOne, b1 := plusZero, b2 := plusZero, a1 := plusZero, a2 := plusZero,
    s1 := plusZero, s2 := plusZero, byp := true }

/-- The unit right after hardware reset (R43, R230), with no word offered yet and the default parameters (R10). -/
def State.reset : State :=
  { st := { slot0 := Stage.reset, slot1 := Stage.reset, slot2 := Stage.reset, slot3 := Stage.reset },
    cbyp := false,
    status := { errcode := 0#8, ovf := false },
    pend := none,
    pc := 0,
    out := [],
    faultRec := none,
    stream := [],
    params := Params.default,
    draws := 0,
    source := 0 }

end Sys2Proof.Machine
end

