-- ==== Sys2Proof/Machine/Flags.lean ====
section
/-! DEFINITION. The unit has no flags, condition codes or predicates and no command sets one (R36); the arithmetic
primitives set none (R17). What stands here is the one status register, STATUS (R35): its error codes, how an error is
recorded in it, and the word RDST reads. -/

namespace Sys2Proof.Machine

open Sys2Proof

/-- The ERRCODE of an error (R200). -/
def errorCode : CommandError → BitVec 8
  | .illegalOpcode => 1#8
  | .reservedField => 2#8

/-- STATUS after an error: ERRCODE takes the code only while it is 0, any later error sets OVF (R201 to R203). -/
def Status.record (t : Status) (e : CommandError) : Status :=
  if t.errcode = 0#8 then { t with errcode := errorCode e } else { t with ovf := true }

/-- The STATUS word `{23'b0, ovf, errcode}`, bits 31:9 zero (R35, R146). -/
def Status.word (t : Status) : Word := 0#23 ++ BitVec.ofBool t.ovf ++ t.errcode

end Sys2Proof.Machine
end

