-- ==== Sys2Proof/Machine/Float.lean ====
section
/-! DEFINITION. Binary32 values and the arithmetic primitives of R13 to R15, by exact integer arithmetic followed by one
rounding. A finite value is a whole number of units of 2^-149, the least subnormal. -/

namespace Sys2Proof.Machine

open Sys2Proof

/-- The sign, bit 31 (R13). -/
def signBit (w : Word) : Bool := w.getLsbD 31

/-- Bits 30:0, exponent and fraction, as a number: the magnitude's place among all magnitudes (R13). -/
def magBits (w : Word) : Nat := w.toNat % 2 ^ 31

/-- The magnitude pattern of an infinity (R13). -/
def infMag : Nat := 0x7F800000

/-- A NaN: exponent all ones, fraction not zero (R13). -/
def isNaN (w : Word) : Bool := decide (infMag < magBits w)

/-- +inf or -inf (R13). -/
def isInf (w : Word) : Bool := decide (magBits w = infMag)

/-- Finite: zero, subnormal or normal (R13). -/
def isFinite (w : Word) : Bool := decide (magBits w < infMag)

/-- +0 or -0 (R13). -/
def isZero (w : Word) : Bool := decide (magBits w = 0)

/-- The pattern of a sign and a magnitude of 31 bits (R13). -/
def packSign (sign : Bool) (mag : Nat) : Word :=
  BitVec.ofNat 32 ((if sign then 2 ^ 31 else 0) + mag % 2 ^ 31)

/-- The value, in units of 2^-149, of the finite magnitude pattern `m`: the fraction itself when the exponent field is
0, else 2^23 and the fraction shifted by the exponent field less 1 (R13). -/
def magUnits (m : Nat) : Nat :=
  if m / 2 ^ 23 = 0 then m % 2 ^ 23 else (2 ^ 23 + m % 2 ^ 23) * 2 ^ (m / 2 ^ 23 - 1)

/-- The value of a finite pattern in units of 2^-149, with its sign (R13). -/
def units (w : Word) : Int :=
  if signBit w then -(magUnits (magBits w) : Int) else (magUnits (magBits w) : Int)

/-- `round32` (R14) of the magnitude `num / den` units of 2^-149: the nearest magnitude pattern, ties to the even one,
infinity on overflow, subnormal below the least normal number. `den` is not 0.
The quotient is cut to 24 bits at the binade of the value (at 1 unit below it, where the subnormals lie), rounded on the
remainder, and the pattern is the rounded significand added to the binade's exponent: a carry out of the significand
steps the exponent by itself. -/
def roundMag (num den : Nat) : Nat :=
  let shift := (num / den).log2 - 23
  let d := den * 2 ^ shift
  let q := num / d
  let r := num % d
  let q' := if d < 2 * r ∨ (2 * r = d ∧ q % 2 = 1) then q + 1 else q
  min (shift * 2 ^ 23 + q') infMag

/-- `round32` of a signed magnitude (R14). -/
def round32 (sign : Bool) (num den : Nat) : Word := packSign sign (roundMag num den)

/-- `fneg` (R15): bit 31 inverted, exact. -/
def fneg (a : Word) : Word := a ^^^ 0x80000000#32

/-- `fmul` (R15). `nan` is the pattern of the result when that is a NaN (`NAN_OUT`, R16). -/
def fmul (nan a b : Word) : Word :=
  let sign := signBit a != signBit b
  if isNaN a || isNaN b then nan
  else if isInf a || isInf b then
    if isZero a || isZero b then nan else packSign sign infMag
  else round32 sign (magUnits (magBits a) * magUnits (magBits b)) (2 ^ 149)

/-- `fadd` (R15). `nan` is the pattern of the result when that is a NaN (`NAN_OUT`, R16). -/
def fadd (nan a b : Word) : Word :=
  if isNaN a || isNaN b then nan
  else if isInf a then
    if isInf b && (signBit a != signBit b) then nan else a
  else if isInf b then b
  else
    let v := units a + units b
    if v = 0 then
      packSign (isZero a && isZero b && signBit a && signBit b) 0
    else round32 (decide (v < 0)) v.natAbs 1

/-- `fsub` (R15): `fadd(a, fneg(b))`. -/
def fsub (nan a b : Word) : Word := fadd nan a (fneg b)

/-- `|r| <= t` as BLK compares under `SNAP` (R145): false when either is a NaN; the magnitudes compare as their
patterns; a negative `t` bounds nothing, and -0 bounds the zeros. -/
def absLe (r t : Word) : Bool :=
  if isNaN r || isNaN t then false
  else if signBit t then isZero r && isZero t
  else decide (magBits r ≤ magBits t)

/-- The pattern of NaN result `n` of draw source `source`: `NAN_OUT` (R10, R16), its sign and its nonzero fraction free.
Whether NaN results of different units agree is left open by the spec; different sources keep them unrelated (log entry
3, DEDUCED, safe). -/
def nanOut (source n : Nat) : Word :=
  packSign (Config.nanSign source n) (infMag + ((Config.nanFraction source n).val + 1))

end Sys2Proof.Machine
end

