-- ==== Sys2Proof/Machine/Operands.lean ====
section
/-! DEFINITION. The operand forms of BQCMD-1: a stage slot of the bank (R84), the coefficient set and the state pair
within it (R31, R32), the slope code (R85). Payload words are taken verbatim (R88), so a word operand is itself. -/

namespace Sys2Proof.Machine

open Sys2Proof

/-- `st[k]` (R18). -/
def Bank.get (b : Bank) (k : Slot) : Stage :=
  match k with
  | 0 => b.slot0
  | 1 => b.slot1
  | 2 => b.slot2
  | 3 => b.slot3

/-- The bank with `st[k]` replaced. -/
def Bank.set (b : Bank) (k : Slot) (g : Stage) : Bank :=
  match k with
  | 0 => { b with slot0 := g }
  | 1 => { b with slot1 := g }
  | 2 => { b with slot2 := g }
  | 3 => { b with slot3 := g }

/-- The bank with one function of slot number and stage applied to every slot: how SLOPE, CRST and BLK act (R142,
R144, R145). -/
def Bank.mapSlots (f : Slot → Stage → Stage) (b : Bank) : Bank :=
  { slot0 := f 0 b.slot0, slot1 := f 1 b.slot1, slot2 := f 2 b.slot2, slot3 := f 3 b.slot3 }

/-- The stage with all five coefficient registers written together (R31, R114). -/
def Stage.loadSet (g : Stage) (b0 b1 b2 a1 a2 : Word) : Stage :=
  { g with b0 := b0, b1 := b1, b2 := b2, a1 := a1, a2 := a2 }

/-- The stage with both state registers +0 (R115, R144). -/
def Stage.clear (g : Stage) : Stage := { g with s1 := plusZero, s2 := plusZero }

/-- The stage with its bypass bit written (R116, R142). -/
def Stage.setByp (g : Stage) (f : Bool) : Stage := { g with byp := f }

/-- The stage with its state registers written (R110, R111). -/
def Stage.setState (g : Stage) (s1 s2 : Word) : Stage := { g with s1 := s1, s2 := s2 }

/-- One state register under `SNAP = T` at a BLK (R145): +0 if it is a NaN or `|r| <= T`. -/
def snapReg (t r : Word) : Word := if isNaN r || absLe r t then plusZero else r

/-- The stage with both state registers snapped (R145). -/
def Stage.snap (g : Stage) (t : Word) : Stage := { g with s1 := snapReg t g.s1, s2 := snapReg t g.s2 }

/-- The bypass bit slope code `c` gives slot `k`: 1 if k > c (R85, R142). -/
def slopeByp (c k : Slot) : Bool := decide (c < k)

/-- A slot of the unit's bank. -/
def State.slot (s : State) (k : Slot) : Stage := s.st.get k

end Sys2Proof.Machine
end

