-- ==== Sys2Proof/Machine/Ops.lean ====
section
/-! DEFINITION. The named operations on the unit's state. There is no memory to operate on (R60): the data paths are the
two word streams. Taking an error is ONE operation, `recordError`; there is no return from an error (R207): the unit
takes the next word as a command word. -/

namespace Sys2Proof.Machine

open Sys2Proof

/-- Write stage slot `k`. -/
def State.setSlot (s : State) (k : Slot) (g : Stage) : State := { s with st := s.st.set k g }

/-- Apply a function to every stage slot. -/
def State.mapSlots (s : State) (f : Slot → Stage → Stage) : State := { s with st := s.st.mapSlots f }

/-- Write the cascade bypass bit (R34). -/
def State.setCbyp (s : State) (f : Bool) : State := { s with cbyp := f }

/-- `emit(w)`: append a word to the response stream (R18, R38). -/
def State.emit (s : State) (w : Word) : State := { s with out := s.out ++ [w] }

/-- `pc <- pc + n` (R18, R37). -/
def State.advance (s : State) (n : Nat) : State := { s with pc := s.pc + n }

/-- Use `n` free draws. -/
def State.spend (s : State) (n : Nat) : State := { s with draws := s.draws + n }

/-- The unit after taking words from the stream: what is left of it, and the command still waiting for payload, if
any (R39). -/
def State.accepted (s : State) (p : Option Pending) (rest : List Word) : State :=
  { s with pend := p, stream := rest }

/-- The fault record of an erroneous word (R208). -/
def faultOf (e : CommandError) (w : Word) (pc : Nat) : Fault :=
  match e with
  | .illegalOpcode => .illegalOpcode w pc
  | .reservedField => .reservedField w pc

/-- The record kept after an error: the first one (R208). -/
def keepFirst (r : Option Fault) (f : Fault) : Option Fault :=
  match r with
  | none => some f
  | some f₀ => some f₀

/-- TAKING AN ERROR (R200 to R204, R206, R208): STATUS records it, the one word is consumed, the record of the first
error is kept; no mode, mask or handler exists, nothing else changes. -/
def State.recordError (s : State) (e : CommandError) (w : Word) : State :=
  { s with status := s.status.record e, pc := s.pc + 1, faultRec := keepFirst s.faultRec (faultOf e w s.pc) }

/-- The controller offers words: they join the end of the stream (R37, R66). -/
def State.offer (s : State) (ws : List Word) : State := { s with stream := s.stream ++ ws }

/-- Hardware reset (R230): every piece of unit state takes its value of R43, a pending command is abandoned; it also
stands for the return of power (R218). The parameters are fixed, the words not yet consumed are the controller's, and
the free draws go on from the same source (log entry 8, DESIGN CHOICE, safe). -/
def State.hardwareReset (s : State) : State :=
  { State.reset with stream := s.stream, params := s.params, draws := s.draws, source := s.source }

end Sys2Proof.Machine
end

