-- ==== Sys2Proof/Machine/Datapath.lean ====
section
/-! DEFINITION. The stage step in both forms with its bypass (R110 to R112) and the cascade step (R140). -/

namespace Sys2Proof.Machine

open Sys2Proof

/-- The stage step's arithmetic under `FORM = TDF2`, in the order of R110: the output and the new `s1` and `s2`.
`nan i` is the pattern of primitive `i`'s result when that is a NaN. -/
def tdf2 (nan : Nat → Word) (g : Stage) (x : Word) : Word × Word × Word :=
  let y := fadd (nan 1) (fmul (nan 0) g.b0 x) g.s1
  let t := fsub (nan 4) (fmul (nan 2) g.b1 x) (fmul (nan 3) g.a1 y)
  let n1 := fadd (nan 5) t g.s2
  let n2 := fsub (nan 8) (fmul (nan 6) g.b2 x) (fmul (nan 7) g.a2 y)
  (y, n1, n2)

/-- The stage step's arithmetic under `FORM = DF2`, in the order of R111: the output, the new `s1` (w) and the new `s2`
(the old `s1`). -/
def df2 (nan : Nat → Word) (g : Stage) (x : Word) : Word × Word × Word :=
  let w := fsub (nan 3) (fsub (nan 1) x (fmul (nan 0) g.a1 g.s1)) (fmul (nan 2) g.a2 g.s2)
  let y := fadd (nan 8) (fadd (nan 6) (fmul (nan 4) g.b0 w) (fmul (nan 5) g.b1 g.s1)) (fmul (nan 7) g.b2 g.s2)
  (y, w, g.s1)

/-- The arithmetic of the parameter `FORM` (R10). -/
def stageArith (form : Form) (nan : Nat → Word) (g : Stage) (x : Word) : Word × Word × Word :=
  match form with
  | .tdf2 => tdf2 nan g x
  | .df2 => df2 nan g x

/-- How many primitives a stage step has, in either form: one free draw each. -/
def drawsPerStage : Nat := 9

/-- A stage computes unless it is bypassed under FROZEN (R112). -/
def stageRuns (policy : BypassPolicy) (byp : Bool) : Bool :=
  match policy with
  | .frozen => !byp
  | .running => true

/-- `StageStep` on one stage with the effective bypass bit `byp` (R110, R111, R112, R140): the output and the stage
afterwards. -/
def stageStep (p : Params) (nan : Nat → Word) (byp : Bool) (g : Stage) (x : Word) : Word × Stage :=
  if stageRuns p.bypass byp then
    let r := stageArith p.form nan g x
    (if byp then x else r.1, g.setState r.2.1 r.2.2)
  else (x, g)

/-- `StageStep(k, x)` on the unit with the effective bypass bit `byp`: the output and the unit afterwards. -/
def State.runSlot (s : State) (k : Slot) (byp : Bool) (x : Word) : Word × State :=
  let r := stageStep s.params (fun i => nanOut s.source (s.draws + i)) byp (s.slot k) x
  (r.1, (s.setSlot k r.2).spend (if stageRuns s.params.bypass byp then drawsPerStage else 0))

/-- The cascade step over the slots of a list, in the order of the list, each with the bypass bit
`st[k].byp OR cbyp` (R140). -/
def State.runSlots (s : State) (ks : List Slot) (x : Word) : Word × State :=
  match ks with
  | [] => (x, s)
  | k :: ks =>
    let r := s.runSlot k ((s.slot k).byp || s.cbyp) x
    State.runSlots r.2 ks r.1

/-- `CascadeStep(x)` (R140): slots 0, 1, 2, 3 in that order. -/
def State.runCascade (s : State) (x : Word) : Word × State := s.runSlots [0, 1, 2, 3] x

end Sys2Proof.Machine
end

