-- ==== Sys2Proof/Machine/CascadeOps.lean ====
section
/-! DEFINITION. The meanings of the cascade commands: CPROC, SLOPE, CBYP, CRST, BLK, RDST (R141 to R146). -/

namespace Sys2Proof.Machine

open Sys2Proof

/-- CPROC (R141): the cascade step on `x`, its output emitted. -/
def execCproc (x : Word) (s : State) : Host.Outcome State Fault Refusal :=
  let r := s.runCascade x
  .next ((r.2.emit r.1).advance 2)

/-- SLOPE (R142): the four stage bypass bits, slot `k` Bypassed exactly when k > c. -/
def execSlope (c : Slot) (s : State) : Host.Outcome State Fault Refusal :=
  .next ((s.mapSlots (fun k g => g.setByp (slopeByp c k))).advance 1)

/-- CBYP (R143): the cascade bypass bit becomes `f`. -/
def execCbyp (f : Bool) (s : State) : Host.Outcome State Fault Refusal :=
  .next ((s.setCbyp f).advance 1)

/-- CRST (R144): the state registers of all four slots become +0. -/
def execCrst (s : State) : Host.Outcome State Fault Refusal :=
  .next ((s.mapSlots (fun _ g => g.clear)).advance 1)

/-- BLK (R145): under `SNAP = T` the eight state registers are snapped; under NONE no state changes. -/
def execBlk (s : State) : Host.Outcome State Fault Refusal :=
  match s.params.snap with
  | none => .next (s.advance 1)
  | some t => .next ((s.mapSlots (fun _ g => g.snap t)).advance 1)

/-- RDST (R146): the STATUS word is emitted; STATUS stays. -/
def execRdst (s : State) : Host.Outcome State Fault Refusal :=
  .next ((s.emit s.status.word).advance 1)

end Sys2Proof.Machine
end

