-- ==== Sys2Proof/Machine/StageOps.lean ====
section
/-! DEFINITION. The meanings of the stage commands: PROC, LDC, RST, BYP (R113 to R116). -/

namespace Sys2Proof.Machine

open Sys2Proof

/-- PROC (R113): the stage step of slot `k` with its own bypass bit (`cbyp` is ignored), its output emitted. -/
def execProc (k : Slot) (x : Word) (s : State) : Host.Outcome State Fault Refusal :=
  let r := s.runSlot k (s.slot k).byp x
  .next ((r.2.emit r.1).advance 2)

/-- LDC (R114): the five coefficient registers of slot `k`, all at once; the state registers stay (90 C1). -/
def execLdc (k : Slot) (b0 b1 b2 a1 a2 : Word) (s : State) : Host.Outcome State Fault Refusal :=
  .next ((s.setSlot k ((s.slot k).loadSet b0 b1 b2 a1 a2)).advance 6)

/-- RST (R115): both state registers of slot `k` become +0. -/
def execRst (k : Slot) (s : State) : Host.Outcome State Fault Refusal :=
  .next ((s.setSlot k (s.slot k).clear).advance 1)

/-- BYP (R116): the bypass bit of slot `k` becomes `f`. -/
def execByp (k : Slot) (f : Bool) (s : State) : Host.Outcome State Fault Refusal :=
  .next ((s.setSlot k ((s.slot k).setByp f)).advance 1)

end Sys2Proof.Machine
end

