-- ==== Sys2Proof/Machine/Dispatch.lean ====
section
/-! DEFINITION. The dispatch from a command to its meaning (R82), one arm per constructor. -/

namespace Sys2Proof.Machine

open Sys2Proof

def exec (i : Instr) (s : State) : Host.Outcome State Fault Refusal :=
  match i with
  | .proc k x => Sys2Proof.Machine.execProc k x s
  | .ldc k b0 b1 b2 a1 a2 => Sys2Proof.Machine.execLdc k b0 b1 b2 a1 a2 s
  | .rst k => Sys2Proof.Machine.execRst k s
  | .byp k f => Sys2Proof.Machine.execByp k f s
  | .cproc x => Sys2Proof.Machine.execCproc x s
  | .slope c => Sys2Proof.Machine.execSlope c s
  | .cbyp f => Sys2Proof.Machine.execCbyp f s
  | .crst => Sys2Proof.Machine.execCrst s
  | .blk => Sys2Proof.Machine.execBlk s
  | .rdst => Sys2Proof.Machine.execRdst s

end Sys2Proof.Machine
end

