-- ==== Sys2Proof/Machine/Fetch.lean ====
section
/-! DEFINITION. How the unit takes its next command from the command stream, which is all its fetching (R37, R71): a
command needs its last payload word before it takes effect (R39), and a stream that pauses leaves the words received
in `pend` (R217). Below it the same machine one word at a time, the transfer of R75. -/

namespace Sys2Proof.Machine

open Sys2Proof

/-- What the unit's next words are: while `pend` is not empty they are payload, never a command word (R39). -/
def fetch (s : State) : Decoded :=
  match s.stream with
  | [] => .empty
  | w :: ws =>
    match s.pend with
    | none => decode (w :: ws)
    | some p => takePayload p.head (p.got ++ w :: ws)

/-- What the unit does with what it fetched: a whole command executes; an erroneous command word is taken as an error,
one word long (R204); an incomplete command is held (R39); with no word the unit waits (R217). -/
def stepFetched (d : Decoded) (s : State) : Host.Outcome State Fault Refusal :=
  match d with
  | .command i rest => exec i (s.accepted none rest)
  | .rejected e w rest => .next ((s.accepted none rest).recordError e w)
  | .incomplete h got => .next (s.accepted (some { head := h, got := got }) [])
  | .empty => .refused .awaitingWord

/-- The unit accepts one word `w` of the command stream (R39, R75, R92, R201, R202): as a command word when `pend` is
empty, as payload otherwise. The command executes when its last word arrives. -/
def acceptWord (w : Word) (s : State) : Host.Outcome State Fault Refusal :=
  match s.pend with
  | none =>
    match decodeWord w with
    | .error e => .next (s.recordError e w)
    | .ok h =>
      if h.op.payloadWords = 0 then exec (assemble h []) s
      else .next (s.accepted (some { head := h, got := [] }) s.stream)
  | some p =>
    let got := p.got ++ [w]
    if got.length < p.head.op.payloadWords then
      .next (s.accepted (some { head := p.head, got := got }) s.stream)
    else exec (assemble p.head got) (s.accepted none s.stream)

/-- One transfer of the command port: the next word of the stream is accepted (R75); none waits (R217). -/
def transfer (s : State) : Host.Outcome State Fault Refusal :=
  match s.stream with
  | [] => .refused .awaitingWord
  | w :: ws => acceptWord w (s.accepted s.pend ws)

/-- `n` transfers. -/
def transfers : Nat → State → Host.Outcome State Fault Refusal
  | 0, s => .next s
  | n + 1, s =>
    match transfer s with
    | .next t => transfers n t
    | .fault f => .fault f
    | .refused r => .refused r

/-- The unit given the words of a finite command stream, one after the other (R66, R219). -/
def feed : List Word → State → Host.Outcome State Fault Refusal
  | [], s => .next s
  | w :: ws, s =>
    match acceptWord w s with
    | .next t => feed ws t
    | .fault f => .fault f
    | .refused r => .refused r

/-- A list of commands executed in order (R66). -/
def execAll : List Instr → State → Host.Outcome State Fault Refusal
  | [], s => .next s
  | i :: is, s =>
    match exec i s with
    | .next t => execAll is t
    | .fault f => .fault f
    | .refused r => .refused r

/-- The words of the one instruction at the front of a table number: as many as its command word asks for (R83), one if
that word is erroneous. -/
def placedWords (nbits w : Nat) : List Word :=
  match tableWords nbits w with
  | [] => []
  | c :: ws =>
    match decodeWord c with
    | .error _ => [c]
    | .ok h => c :: ws.take h.op.payloadWords

/-- The unit with an instruction's words next in its stream and no command pending. -/
def State.placeWords (s : State) (ws : List Word) : State := s.accepted none (ws ++ s.stream)

end Sys2Proof.Machine
end

