-- ==== Sys2Proof/Machine/Step.lean ====
section
/-! DEFINITION. One step of the unit: the next command of its stream, whole (R66), or what the stream has of it (R39). -/

namespace Sys2Proof.Machine

open Sys2Proof

/-- One step: take the next command from the stream and execute it. -/
def step (s : State) : Host.Outcome State Fault Refusal := stepFetched (fetch s) s

/-- `s` with the instruction of a table number as the next words of its command stream: the controller's delivery of
one command (log entry 1). No command is pending, and the words already offered come after it. -/
def State.withFetchWord (s : State) (nbits w : Nat) : State := s.placeWords (placedWords nbits w)

end Sys2Proof.Machine
end

