-- ==== Sys2Proof/Machine/Controller.lean ====
section
/-! DEFINITION. The chain controller as one unit sees it: the settings (R172), the commands of a block (R174 to R177),
the clearing policies (R188), the host operations and the controller's duties (R181, R182). A refused call is `none`
(93 I9, I10). -/

namespace Sys2Proof.Machine

open Sys2Proof

/-- One coefficient set in the source's order (R10, R31). -/
structure CoefSet where
  b0 : Word
  b1 : Word
  b2 : Word
  a1 : Word
  a2 : Word
  deriving DecidableEq, Repr

/-- A coefficient set within the stability triangle of R238, `|a2| < 1` and `|a1| < 1 + a2`, all five finite. -/
def CoefSet.stable (c : CoefSet) : Bool :=
  isFinite c.b0 && isFinite c.b1 && isFinite c.b2 && isFinite c.a1 && isFinite c.a2
    && decide (|units c.a2| < 2 ^ 149) && decide (|units c.a1| < 2 ^ 149 + units c.a2)

/-- The set of a slot after hardware reset (R43). -/
def CoefSet.identity : CoefSet := { b0 := plusOne, b1 := plusZero, b2 := plusZero, a1 := plusZero, a2 := plusZero }

/-- The response kind of a unit (R171). -/
inductive CutKind where
  | highPass
  | lowPass
  deriving DecidableEq, Repr

/-- The four units of the design (R170). -/
inductive UnitId where
  | lcLeft
  | lcRight
  | hcLeft
  | hcRight
  deriving DecidableEq, Repr

/-- A low-cut unit is a high-pass, a high-cut unit a low-pass (R171). -/
def UnitId.kind : UnitId → CutKind
  | .lcLeft | .lcRight => .highPass
  | .hcLeft | .hcRight => .lowPass

/-- The settings the controller reads for the cut filters (R172), one snapshot for a block. R172 gives the cutoffs a range
and no number set, and R10 makes FS a positive real: cutoffs and sample rates are numbers of any ordered field `K`, the
reals where the spec speaks of a real (log entry 21, DESIGN CHOICE, safe). -/
structure Settings (K : Type) where
  lowCutFreq     : K
  highCutFreq    : K
  lowCutSlope    : Nat
  highCutSlope   : Nat
  lowCutBypass   : Bool
  highCutBypass  : Bool
  deriving DecidableEq, Repr

/-- What the parameter DESIGN is (R10, R183): kind, cutoff, FS and n to the coefficient sets. Its default is
`DesignFunction.default` (Machine/ReferenceDesign.lean). -/
abbrev DesignFunction (K : Type) : Type := CutKind → K → K → Nat → List CoefSet

variable {K : Type} [Field K] [LinearOrder K]

/-- The slopes of R172. -/
def slopeLegal (slope : Nat) : Bool := slope == 12 || slope == 24 || slope == 36 || slope == 48

/-- A cutoff within [20, 20000] Hz (R172). -/
def freqLegal (f : K) : Bool := decide (20 ≤ f) && decide (f ≤ 20000)

/-- The settings are within the ranges of R172; the controller prevents all others (R210). -/
def Settings.inRange (s : Settings K) : Bool :=
  freqLegal s.lowCutFreq && freqLegal s.highCutFreq && slopeLegal s.lowCutSlope && slopeLegal s.highCutSlope

/-- The cutoff a unit's kind takes from the settings (R171, R172). -/
def Settings.freq (s : Settings K) : CutKind → K
  | .highPass => s.lowCutFreq
  | .lowPass => s.highCutFreq

/-- The slope a unit's kind takes from the settings. -/
def Settings.slope (s : Settings K) : CutKind → Nat
  | .highPass => s.lowCutSlope
  | .lowPass => s.highCutSlope

/-- The bypass flag a unit's kind takes from the settings (R177). -/
def Settings.bypass (s : Settings K) : CutKind → Bool
  | .highPass => s.lowCutBypass
  | .lowPass => s.highCutBypass

/-- `n = S / 12` (R173). -/
def activeStages (slope : Nat) : Nat := slope / 12

/-- The slope code `c = n - 1` (R173). -/
def slopeCode (n : Nat) : Slot := Fin.ofNat 4 (n - 1)

/-- What the controller remembers of one unit: the set each slot holds, slot 0 first, and the active count of the
unit's previous block, if there was one (R175, R188). -/
structure UnitView where
  held   : List CoefSet
  active : Option Nat
  deriving DecidableEq, Repr

/-- The view of a unit that has just left hardware reset (R43). -/
def UnitView.initial : UnitView :=
  { held := [CoefSet.identity, CoefSet.identity, CoefSet.identity, CoefSet.identity], active := none }

/-- The view after a block that configured the sets of its active slots (R176: the other slots keep theirs). The active
count is written here, at the configuration: one that a `prepare` abandons before its samples still counts as the unit's
previous block for the clearing policies, which R188 does not say (log entry 9, DESIGN CHOICE). -/
def UnitView.configured (v : UnitView) (sets : List CoefSet) : UnitView :=
  { held := sets ++ v.held.drop sets.length, active := some sets.length }

/-- `ldc s<i>` with a set. -/
def loadCommand (i : Nat) (c : CoefSet) : Instr := .ldc (Fin.ofNat 4 i) c.b0 c.b1 c.b2 c.a1 c.a2

/-- Set i goes to slot i, i ascending from `i` (R174, R176). -/
def loadCommands : Nat → List CoefSet → List Instr
  | _, [] => []
  | i, c :: cs => loadCommand i c :: loadCommands (i + 1) cs

/-- The loads of a controller that leaves some out (R175): the i-th entry of `skips` (false where the list is too short)
says that it would leave load i out, and it does so only where the five words are those the slot already holds. -/
def loadCommandsSkipping : List Bool → Nat → List CoefSet → List CoefSet → List Instr
  | _, _, [], _ => []
  | skips, i, c :: cs, held =>
    if skips.headD false ∧ held.head? = some c then loadCommandsSkipping skips.tail (i + 1) cs held.tail
    else loadCommand i c :: loadCommandsSkipping skips.tail (i + 1) cs held.tail

/-- The clears of `ON_VALUE_CHANGE` (R188): `rst s<i>` where the new set differs from the set held or the slot was
Bypassed in the previous block (slot i is then not below the previous active count). -/
def valueClears (prevActive : Nat) : Nat → List CoefSet → List CoefSet → List Instr
  | _, [], _ => []
  | i, _ :: cs, [] => .rst (Fin.ofNat 4 i) :: valueClears prevActive (i + 1) cs []
  | i, c :: cs, h :: hs =>
    if c ≠ h ∨ prevActive ≤ i then .rst (Fin.ofNat 4 i) :: valueClears prevActive (i + 1) cs hs
    else valueClears prevActive (i + 1) cs hs

/-- The clearing commands of a reconfiguration (R188). A first block has no previous active count: it clears nothing
under ON_SLOPE_CHANGE, and every slot counts as Bypassed under ON_VALUE_CHANGE (R43; log entry 9, DESIGN CHOICE). The
previous block is the last configuration issued, with its samples or without (log entry 9). -/
def clearingCommands (policy : ClearPolicy) (v : UnitView) (sets : List CoefSet) : List Instr :=
  match policy with
  | .never => []
  | .onSlopeChange =>
    match v.active with
    | none => []
    | some m => if m = sets.length then [] else [.crst]
  | .onValueChange =>
    match v.active with
    | none => valueClears 0 0 sets v.held
    | some m => valueClears m 0 sets v.held

/-- The configuration part of a block (R174): clearing, `slope`, the loads but for those left out (R175), `cbyp`. -/
def configCommands (policy : ClearPolicy) (v : UnitView) (sets : List CoefSet) (bypass : Bool) (skips : List Bool) :
    List Instr :=
  clearingCommands policy v sets ++
    .slope (slopeCode sets.length) :: loadCommandsSkipping skips 0 sets v.held ++ [.cbyp bypass]

/-- The sample part of a block (R174): one `cproc` per sample, in order, then `blk`. -/
def sampleCommands (samples : List Word) : List Instr := samples.map .cproc ++ [.blk]

/-- A list of commands with RDST put in, the controller's liberty at any time (R182): the i-th entry of `reads` says how
many stand before command i, or after the last one. -/
def insertReads : List Nat → List Instr → List Instr
  | [], is => is
  | n :: ns, [] => List.replicate n .rdst ++ insertReads ns []
  | n :: ns, i :: is => List.replicate n .rdst ++ i :: insertReads ns is

/-- One block of one unit (R174): the controller's view of the unit, the block's sets, bypass flag and samples, its
clearing policy (R188) and its liberties, loads left out (R175) and status reads (R182). -/
structure BlockPlan where
  policy  : ClearPolicy
  view    : UnitView
  sets    : List CoefSet
  bypass  : Bool
  samples : List Word
  skips   : List Bool
  reads   : List Nat
  deriving DecidableEq, Repr

/-- All commands of one block for one unit (R174). -/
def blockCommands (b : BlockPlan) : List Instr :=
  insertReads b.reads (configCommands b.policy b.view b.sets b.bypass b.skips ++ sampleCommands b.samples)

/-- The host operations of R181 as one unit sees them: `maxBlockSize` and `numChannels` do not reach the unit, and
`process` carries the samples of this unit's channel. -/
inductive HostOp (K : Type) where
  | prepare (sampleRate : K)
  | updateFromSettings (s : Settings K)
  | process (samples : List Word)
  | reset
  deriving DecidableEq, Repr

/-- A host operation with the liberties the controller takes in it (R182): loads left out and status reads. -/
structure Move (K : Type) where
  op    : HostOp K
  skips : List Bool
  reads : List Nat
  deriving DecidableEq, Repr

/-- A host operation with no liberty taken. -/
def Move.plain (op : HostOp K) : Move K := { op := op, skips := [], reads := [] }

/-- Where the controller stands between its duties (R182, R232). -/
inductive DutyPhase where
  | unprepared   -- hardware reset only
  | betweenBlocks
  | configured   -- the block's configuration is issued, its samples are not
  deriving DecidableEq, Repr

/-- The order of host operations the controller owes (R182, R232): `prepare` before any configuration or samples, ONE
configuration from one snapshot before each block's samples; `none` breaks a duty. Three places the spec does not speak of
are the model's choice (log entry 18, DESIGN CHOICE): a `reset` before the first `prepare` is admitted and leaves the
controller unprepared; a `prepare` between a configuration and its samples starts the block anew, so that it is configured
again; a `reset` there keeps the configuration. -/
def DutyPhase.next : DutyPhase → HostOp K → Option DutyPhase
  | .unprepared, .prepare _ => some .betweenBlocks
  | .unprepared, .updateFromSettings _ => none
  | .unprepared, .process _ => none
  | .unprepared, .reset => some .unprepared
  | .betweenBlocks, .prepare _ => some .betweenBlocks
  | .betweenBlocks, .updateFromSettings _ => some .configured
  | .betweenBlocks, .process _ => none
  | .betweenBlocks, .reset => some .betweenBlocks
  | .configured, .prepare _ => some .betweenBlocks
  | .configured, .updateFromSettings _ => none
  | .configured, .process _ => some .betweenBlocks
  | .configured, .reset => some .configured

/-- The host operations keep that order. -/
def dutiful : DutyPhase → List (HostOp K) → Bool
  | _, [] => true
  | ph, op :: ops =>
    match ph.next op with
    | none => false
    | some ph' => dutiful ph' ops

/-- The controller's own state towards one unit: FS once it is recorded (R10, R181), the clearing policy, its view of the
unit and where it stands between its duties. -/
structure Driver (K : Type) where
  fs     : Option K
  policy : ClearPolicy
  view   : UnitView
  phase  : DutyPhase
  deriving DecidableEq, Repr

/-- The controller before the first host operation; its clearing policy is the default NEVER unless it is given
another (R10). -/
def Driver.initial (policy : ClearPolicy := ClearPolicy.default) : Driver K :=
  { fs := none, policy := policy, view := UnitView.initial, phase := .unprepared }

/-- The configuration of a block from one snapshot (R174); from here on it is the unit's previous block for the clearing
policies, whether or not its samples follow (log entry 9). `design` is the parameter DESIGN (R10).
Refused: no sample rate yet, settings out of range, a cutoff not below FS/2, a design without n
sets, a set that is not stable (R172, R182, R183, R210; 93 I9 to I11). -/
def Driver.configure (design : DesignFunction K) (kind : CutKind) (d : Driver K) (s : Settings K)
    (skips : List Bool) : Option (Driver K × List Instr) :=
  match d.fs with
  | none => none
  | some fs =>
    let n := activeStages (s.slope kind)
    let sets := design kind (s.freq kind) fs n
    if s.inRange ∧ s.freq kind < fs / 2 ∧ sets.length = n ∧ sets.all CoefSet.stable then
      some ({ d with view := d.view.configured sets }, configCommands d.policy d.view sets (s.bypass kind) skips)
    else none

/-- What one host operation becomes for a unit of kind `kind`, its place in the order of duties aside (R174, R181).
Refused beside a configuration: a sample rate that is not positive (R10). -/
def Driver.carryOut (design : DesignFunction K) (kind : CutKind) (d : Driver K) (m : Move K) :
    Option (Driver K × List Instr) :=
  match m.op with
  | .prepare fs => if 0 < fs then some ({ d with fs := some fs }, [.crst]) else none
  | .updateFromSettings s => d.configure design kind s m.skips
  | .process samples => some (d, sampleCommands samples)
  | .reset => some (d, [.crst])

/-- One move of the controller: its commands with the status reads put in, and the controller afterwards. A move that
breaks a duty is none of the model's (R182). -/
def Driver.perform (design : DesignFunction K) (kind : CutKind) (d : Driver K) (m : Move K) :
    Option (Driver K × List Instr) :=
  match d.phase.next m.op with
  | none => none
  | some phase =>
    match d.carryOut design kind m with
    | none => none
    | some (d', is) => some ({ d' with phase := phase }, insertReads m.reads is)

/-- A list of moves performed in order: the commands they become, or a refusal. -/
def Driver.performAll (design : DesignFunction K) (kind : CutKind) :
    Driver K → List (Move K) → Option (List Instr)
  | _, [] => some []
  | d, m :: ms =>
    match d.perform design kind m with
    | none => none
    | some (d', is) =>
      match Driver.performAll design kind d' ms with
      | none => none
      | some js => some (is ++ js)

/-- The words of a list of commands, in order (R80). -/
def encodeAll : List Instr → List Word
  | [] => []
  | i :: is => encode i ++ encodeAll is

end Sys2Proof.Machine
end

