-- ==== Sys2Proof/Machine/Assembler.lean ====
section
/-! DEFINITION. The assembler syntax of BQCMD-1 (R94) and its pseudo-instructions (R95), as abstract syntax with the
assembler's refusals (93 I23): a line the assembler refuses is `none`. -/

namespace Sys2Proof.Machine

open Sys2Proof

/-- An `<f32>` operand (R94). -/
inductive F32Lit where
  /-- A decimal real literal, `mant * 10 ^ exp10`, negated when `neg`. -/
  | dec (neg : Bool) (mant : Nat) (exp10 : Int)
  /-- `0x` and exactly eight hex digits, verbatim. -/
  | bits (w : Word)
  | posInf
  | negInf
  | negZero
  | nan
  deriving DecidableEq, Repr

/-- The pattern an `<f32>` operand assembles to (R94): a decimal literal rounds to the nearest `F32`, ties to even (R14);
`nan` is 0x7FC00000. A decimal zero is +0 however written: only `-0` is -0 (log entry 10, DESIGN CHOICE). -/
def F32Lit.word : F32Lit → Word
  | .dec neg mant exp10 =>
    round32 (neg && mant != 0) (mant * 10 ^ exp10.toNat * 2 ^ 149) (10 ^ (-exp10).toNat)
  | .bits w => w
  | .posInf => 0x7F800000#32
  | .negInf => 0xFF800000#32
  | .negZero => 0x80000000#32
  | .nan => 0x7FC00000#32

/-- Five `<f32>` operands, `(b0, b1, b2, a1, a2)` (R95). -/
structure SetLit where
  b0 : F32Lit
  b1 : F32Lit
  b2 : F32Lit
  a1 : F32Lit
  a2 : F32Lit
  deriving DecidableEq, Repr

/-- The words of a written set. -/
def SetLit.words (c : SetLit) : CoefSet :=
  { b0 := c.b0.word, b1 := c.b1.word, b2 := c.b2.word, a1 := c.a1.word, a2 := c.a2.word }

/-- A line of assembly, its operands as written (R94, R95). -/
inductive Asm where
  | proc (k : Nat) (x : F32Lit)
  | ldc (k : Nat) (c : SetLit)
  | rst (k : Nat)
  | byp (k f : Nat)
  | cproc (x : F32Lit)
  | slope (db : Nat)
  | cbyp (f : Nat)
  | crst
  | blk
  | rdst
  | on (k : Nat)
  | off (k : Nat)
  | pass (k : Nat)
  | clear
  | cutcfg (db f : Nat) (sets : List SetLit)
  deriving DecidableEq, Repr

/-- `s<k>` is s0 to s3 (R94). -/
def slotWritten (k : Nat) : Bool := decide (k < 4)

/-- A written flag is 0 or 1 (R94). -/
def flagWritten (f : Nat) : Bool := decide (f < 2)

/-- The lines the assembler takes (R94, R95): slots s0 to s3, flags 0 or 1, slopes 12, 24, 36 or 48, and for `cutcfg`
exactly `<slope>/12` sets. -/
def Asm.wellFormed : Asm → Bool
  | .proc k _ => slotWritten k
  | .ldc k _ => slotWritten k
  | .rst k => slotWritten k
  | .byp k f => slotWritten k && flagWritten f
  | .cproc _ => true
  | .slope db => slopeLegal db
  | .cbyp f => flagWritten f
  | .crst => true
  | .blk => true
  | .rdst => true
  | .on k => slotWritten k
  | .off k => slotWritten k
  | .pass k => slotWritten k
  | .clear => true
  | .cutcfg db f sets => slopeLegal db && flagWritten f && sets.length == activeStages db

/-- The slot of a written `s<k>`. -/
def slotOf (k : Nat) : Slot := Fin.ofNat 4 k

/-- The commands of a line the assembler takes (R94, and the expansions of R95). -/
def Asm.expand : Asm → List Instr
  | .proc k x => [.proc (slotOf k) x.word]
  | .ldc k c => [loadCommand k c.words]
  | .rst k => [.rst (slotOf k)]
  | .byp k f => [.byp (slotOf k) (f == 1)]
  | .cproc x => [.cproc x.word]
  | .slope db => [.slope (slopeCode (activeStages db))]
  | .cbyp f => [.cbyp (f == 1)]
  | .crst => [.crst]
  | .blk => [.blk]
  | .rdst => [.rdst]
  | .on k => [.byp (slotOf k) false]
  | .off k => [.byp (slotOf k) true]
  | .pass k => [loadCommand k CoefSet.identity]
  | .clear => [.crst]
  | .cutcfg db f sets =>
    .slope (slopeCode (activeStages db)) :: loadCommands 0 (sets.map SetLit.words) ++ [.cbyp (f == 1)]

/-- Assemble a line: its commands, or `none` where the assembler refuses it. -/
def Asm.assemble (a : Asm) : Option (List Instr) := if a.wellFormed then some a.expand else none

end Sys2Proof.Machine
end

