-- ==== Sys2Proof/Machine/Design.lean ====
section
/-! DEFINITION. The design: four independent units (R11, R170, R215), and the sample path of a channel through its two
units (R178). The controller of the whole design is in Machine/Chain.lean. -/

namespace Sys2Proof.Machine

open Sys2Proof

/-- One thing for each unit of the design (R170). -/
structure PerUnit (α : Type) where
  lcLeft  : α
  lcRight : α
  hcLeft  : α
  hcRight : α
  deriving DecidableEq, Repr

/-- The thing of one unit. -/
def PerUnit.get {α : Type} (p : PerUnit α) : UnitId → α
  | .lcLeft => p.lcLeft
  | .lcRight => p.lcRight
  | .hcLeft => p.hcLeft
  | .hcRight => p.hcRight

/-- One unit's thing replaced. -/
def PerUnit.set {α : Type} (p : PerUnit α) (u : UnitId) (x : α) : PerUnit α :=
  match u with
  | .lcLeft => { p with lcLeft := x }
  | .lcRight => { p with lcRight := x }
  | .hcLeft => { p with hcLeft := x }
  | .hcRight => { p with hcRight := x }

/-- The same done to every unit's thing. -/
def PerUnit.map {α β : Type} (f : α → β) (p : PerUnit α) : PerUnit β :=
  { lcLeft := f p.lcLeft, lcRight := f p.lcRight, hcLeft := f p.hcLeft, hcRight := f p.hcRight }

/-- The four units, with no shared state (R11). -/
abbrev Design := PerUnit State

/-- The unit after hardware reset with its own source of free draws. -/
def State.resetWithSource (source : Nat) : State := { State.reset with source := source }

/-- All units leave hardware reset together (R215). The spec leaves open how their NaN draws relate: each has a source of
its own, so that nothing relates them (log entries 3 and 15, DEDUCED, safe). -/
def Design.reset : Design :=
  { lcLeft := State.resetWithSource 0, lcRight := State.resetWithSource 1, hcLeft := State.resetWithSource 2,
    hcRight := State.resetWithSource 3 }

/-- Hardware reset of the design (R215, R230): all four units together, each into the values of R43. -/
def Design.hardwareReset (d : Design) : Design := d.map State.hardwareReset

/-- Lift what one unit did to the design. -/
def Design.lift (d : Design) (u : UnitId) (o : Host.Outcome State Fault Refusal) : Host.Outcome Design Fault Refusal :=
  match o with
  | .next t => .next (d.set u t)
  | .fault f => .fault f
  | .refused r => .refused r

/-- One step of one unit of the design; any unit may be next (R67). -/
def Design.step (u : UnitId) (d : Design) : Host.Outcome Design Fault Refusal := d.lift u (Machine.step (d.get u))

/-- Words given to one unit's command port (R11). -/
def Design.feed (u : UnitId) (ws : List Word) (d : Design) : Host.Outcome Design Fault Refusal :=
  d.lift u (Machine.feed ws (d.get u))

/-- A channel (R170). -/
inductive Channel where
  | left
  | right
  deriving DecidableEq, Repr

/-- The low-cut unit of a channel. -/
def Channel.lc : Channel → UnitId
  | .left => .lcLeft
  | .right => .lcRight

/-- The high-cut unit of a channel. -/
def Channel.hc : Channel → UnitId
  | .left => .hcLeft
  | .right => .hcRight

/-- `cproc x` to one unit: the design afterwards and the response word (R141). -/
def Design.cproc (u : UnitId) (x : Word) (d : Design) : Host.Outcome (Word × Design) Fault Refusal :=
  match Machine.feed (encode (.cproc x)) (d.get u) with
  | .next t => .next (t.out.getLastD x, d.set u t)
  | .fault f => .fault f
  | .refused r => .refused r

/-- One sample along a channel (R178): low-cut first, its response the payload of the high-cut's `cproc`. -/
def Design.channelSample (ch : Channel) (x : Word) (d : Design) : Host.Outcome (Word × Design) Fault Refusal :=
  match d.cproc ch.lc x with
  | .next (y, d') => d'.cproc ch.hc y
  | .fault f => .fault f
  | .refused r => .refused r

end Sys2Proof.Machine
end

