-- ==== Sys2Proof/Machine/Port.lean ====
section
/-! DEFINITION. The interface signals and the valid/ready handshake (R74, R75), one rising edge of `clk` at a time. The
unit model works on the two word lists (R75); this file puts the signals around it. -/

namespace Sys2Proof.Machine

open Sys2Proof

/-- The inputs of the unit's interface at one edge (R74). -/
structure PortIn where
  /-- `rst_n`, active low. -/
  rstN     : Bool
  cmdData  : Word
  cmdValid : Bool
  rspReady : Bool
  deriving DecidableEq, Repr

/-- The unit with its response port: the response word not yet accepted, at most one (R75), and the response words the
controller has accepted since reset, oldest first. -/
structure Port where
  unit    : State
  waiting : Option Word
  taken   : List Word
  deriving DecidableEq, Repr

/-- The port right after hardware reset. -/
def Port.reset : Port := { unit := State.reset, waiting := none, taken := [] }

/-- `rsp_valid`: the unit offers a response word (R74); 0 while `rst_n` is 0 (R75). -/
def Port.rspValid (p : Port) (i : PortIn) : Bool := i.rstN && p.waiting.isSome

/-- `cmd_ready`: 0 while a response word waits; the unit may also hold it at 0 of its own accord, `stall` (R75, 93 I18:
any finite time). -/
def Port.cmdReady (p : Port) (i : PortIn) (stall : Bool) : Bool := i.rstN && p.waiting.isNone && !stall

/-- The controller accepts the waiting response word (R74). -/
def Port.take (p : Port) : Port :=
  { p with waiting := none, taken := p.taken ++ p.waiting.toList }

/-- The unit accepts a command word; a response it emits now waits (R75). -/
def Port.accept (p : Port) (w : Word) : Port :=
  match acceptWord w p.unit with
  | .next t => { p with unit := t, waiting := (t.out.drop p.unit.out.length).head? }
  | .fault _ => p
  | .refused _ => p

/-- `rst_n` low (R75, R230): the unit is reset and no word waits or has been taken. -/
def Port.hardwareReset (p : Port) : Port := { unit := p.unit.hardwareReset, waiting := none, taken := [] }

/-- One rising edge of `clk` (R74, R75): while `rst_n` is 0 the unit is reset and no word moves; a word moves where valid
and ready are both 1. `cmd_ready` is 0 while a response waits, so at most one of the two words moves. -/
def Port.edge (stall : Bool) (i : PortIn) (p : Port) : Port :=
  if i.rstN then
    if p.rspValid i && i.rspReady then p.take
    else if i.cmdValid && p.cmdReady i stall then p.accept i.cmdData
    else p
  else p.hardwareReset

/-- What can happen at the port. Whether `rst_n` acts at once or only at a rising edge is left open by the spec (R74, R75,
R230): the model admits both, a reset sampled at an edge and one between two edges (log entry 20, DESIGN CHOICE,
safe). -/
inductive PortEvent where
  /-- A rising edge of `clk` with the inputs of that moment; `stall` is the unit's own hold of `cmd_ready`. -/
  | edge (stall : Bool) (i : PortIn)
  /-- `rst_n` is low at some moment between two rising edges, and the unit takes it at once. -/
  | resetBetweenEdges
  deriving DecidableEq, Repr

/-- The port after an event. -/
def Port.event (e : PortEvent) (p : Port) : Port :=
  match e with
  | .edge stall i => p.edge stall i
  | .resetBetweenEdges => p.hardwareReset

/-- The port after a list of events, oldest first. -/
def Port.events : List PortEvent → Port → Port
  | [], p => p
  | e :: es, p => Port.events es (p.event e)

end Sys2Proof.Machine
end

