-- ==== Sys2Proof/Machine/Exact.lean ====
section
/-! DEFINITION. The stage step in exact arithmetic (R117), the values the patterns denote (R13), and rounding of a real
number, as a relation to a pattern and as a function (R14). Nothing here is executed by the unit: R117 is a property for
checking, R14 the meaning of `round32`. -/

namespace Sys2Proof.Machine

open Sys2Proof

/-- A coefficient set in exact arithmetic. -/
structure ExactSet where
  b0 : ℝ
  b1 : ℝ
  b2 : ℝ
  a1 : ℝ
  a2 : ℝ

/-- `StageStep` of R110 without rounding: the output, the new `s1`, the new `s2`. -/
def exactTdf2 (c : ExactSet) (s1 s2 x : ℝ) : ℝ × ℝ × ℝ :=
  let y := c.b0 * x + s1
  (y, c.b1 * x - c.a1 * y + s2, c.b2 * x - c.a2 * y)

/-- `StageStep` of R111 without rounding. -/
def exactDf2 (c : ExactSet) (s1 s2 x : ℝ) : ℝ × ℝ × ℝ :=
  let w := x - c.a1 * s1 - c.a2 * s2
  (c.b0 * w + c.b1 * s1 + c.b2 * s2, w, s1)

/-- The exact step of a form. -/
def exactStep (form : Form) (c : ExactSet) (s1 s2 x : ℝ) : ℝ × ℝ × ℝ :=
  match form with
  | .tdf2 => exactTdf2 c s1 s2 x
  | .df2 => exactDf2 c s1 s2 x

/-- The state registers of a stage in exact arithmetic before input `x n`, from zero state. -/
def exactStateAt (form : Form) (c : ExactSet) (x : ℕ → ℝ) : ℕ → ℝ × ℝ
  | 0 => (0, 0)
  | n + 1 =>
    let q := exactStateAt form c x n
    (exactStep form c q.1 q.2 (x n)).2

/-- The output of a stage in exact arithmetic for input `x n`, from zero state. -/
def exactOutAt (form : Form) (c : ExactSet) (x : ℕ → ℝ) (n : ℕ) : ℝ :=
  let q := exactStateAt form c x n
  (exactStep form c q.1 q.2 (x n)).1

/-- The value of a sequence `k` places before place `n`, 0 before its start: `x[n-k]` with the zero initial condition of
R117. -/
def delayed (x : ℕ → ℝ) (k n : ℕ) : ℝ := if k ≤ n then x (n - k) else 0

/-- The outputs of a cascade in exact arithmetic, each slot's output the next one's input: a slot is a set with its bypass
bit, and passes its input when that bit or the cascade bit is set (R140, R148). -/
def exactCascade (form : Form) (cbyp : Bool) : List (ExactSet × Bool) → (ℕ → ℝ) → (ℕ → ℝ)
  | [], x => x
  | (c, byp) :: cs, x => exactCascade form cbyp cs (if byp || cbyp then x else exactOutAt form c x)

/-- The exact results of the nine primitives of a stage step, in the order of R110 or R111. -/
def exactParts (form : Form) (c : ExactSet) (s1 s2 x : ℝ) : List ℝ :=
  match form with
  | .tdf2 =>
    let y := c.b0 * x + s1
    let t := c.b1 * x - c.a1 * y
    [c.b0 * x, y, c.b1 * x, c.a1 * y, t, t + s2, c.b2 * x, c.a2 * y, c.b2 * x - c.a2 * y]
  | .df2 =>
    let u := x - c.a1 * s1
    let w := u - c.a2 * s2
    let v := c.b0 * w + c.b1 * s1
    [c.a1 * s1, u, c.a2 * s2, w, c.b0 * w, c.b1 * s1, v, c.b2 * s2, v + c.b2 * s2]

/-- The real value of a finite pattern is `units` times 2^-149 (R13). -/
def HasValue (w : Word) (v : ℝ) : Prop := isFinite w = true ∧ v = (units w : ℝ) / 2 ^ 149

/-- A real number that some finite pattern denotes. -/
def Representable (v : ℝ) : Prop := ∃ w, HasValue w v

/-- Five coefficient words denote an exact set. -/
def HasSet (b0 b1 b2 a1 a2 : Word) (c : ExactSet) : Prop :=
  HasValue b0 c.b0 ∧ HasValue b1 c.b1 ∧ HasValue b2 c.b2 ∧ HasValue a1 c.a1 ∧ HasValue a2 c.a2

/-- `round32` as a relation (R14): `w` is the pattern the real number `v` rounds to. At or beyond half a step above the
largest finite number it is the infinity of v's sign; else it is a nearest finite value, of two nearest ones that with
the even significand, and its sign is v's. An exact zero is +0: R14 says so of a sum of two nonzero operands, of any other
exact zero (the coefficient `a1` of the reference design at f = FS/4) it is the model's choice (log entry 23, DESIGN
CHOICE, unsafe). -/
def IsRound32 (v : ℝ) (w : Word) : Prop :=
  (2 ^ 128 - 2 ^ 103 ≤ |v| → isInf w = true) ∧
  (|v| < 2 ^ 128 - 2 ^ 103 → isFinite w = true ∧
    (∀ u, isFinite u = true → |v - (units w : ℝ) / 2 ^ 149| ≤ |v - (units u : ℝ) / 2 ^ 149|) ∧
    (∀ u, isFinite u = true → units u ≠ units w →
      |v - (units u : ℝ) / 2 ^ 149| = |v - (units w : ℝ) / 2 ^ 149| → magBits w % 2 = 0)) ∧
  (signBit w = true ↔ v < 0)

/-- `round32` (R14) of the magnitude `m` units of 2^-149, `m` a real number: what `roundMag` is for a quotient. -/
noncomputable def roundMagReal (m : ℝ) : Nat :=
  let shift := ⌊m⌋₊.log2 - 23
  let d : ℕ := 2 ^ shift
  let q := ⌊m / d⌋₊
  let r := m - q * d
  let q' := if d < 2 * r ∨ (2 * r = d ∧ q % 2 = 1) then q + 1 else q
  min (shift * 2 ^ 23 + q') infMag

/-- `round32` of a real number as a function (R14); it meets `IsRound32` (`isRound32_roundReal`, Laws/Rounding.lean). An
exact zero is +0, the model's choice where R14 does not say it (log entry 23). -/
noncomputable def roundReal (v : ℝ) : Word := packSign (decide (v < 0)) (roundMagReal (|v| * 2 ^ 149))

end Sys2Proof.Machine
end

