-- ==== Sys2Proof/Machine/ReferenceDesign.lean ====
section
/-! DEFINITION. The reference coefficient design (R183 to R186), the default of the controller's parameter DESIGN (R10),
and the transfer function of a set and of a cascade (R117, R148). The unit's behaviour does not depend on any of it
(R186). The design is a function of real numbers (R186: exact real arithmetic, rounded once), so it is not evaluated but
reasoned about (log entry 19). -/

namespace Sys2Proof.Machine

open Sys2Proof

/-- Set `i` of the design for `n` stages before its rounding: R184 (high-pass) or R185 (low-pass) in exact real
arithmetic. `q` is the quality factor `Q_i` of R183 with `N = 2n` (R173, R187). -/
noncomputable def exactDesignSet (kind : CutKind) (f fs : ℝ) (n i : Nat) : ExactSet :=
  let q : ℝ := 1 / (2 * Real.cos ((2 * i + 1) * Real.pi / (2 * (2 * n))))
  match kind with
  | .highPass =>
    let k : ℝ := Real.tan (Real.pi * f / fs)
    let c : ℝ := 1 / (1 + k / q + k ^ 2)
    { b0 := c, b1 := -2 * c, b2 := c, a1 := 2 * c * (k ^ 2 - 1), a2 := c * (1 - k / q + k ^ 2) }
  | .lowPass =>
    let k : ℝ := 1 / Real.tan (Real.pi * f / fs)
    let c : ℝ := 1 / (1 + k / q + k ^ 2)
    { b0 := c, b1 := 2 * c, b2 := c, a1 := 2 * c * (1 - k ^ 2), a2 := c * (1 - k / q + k ^ 2) }

/-- The `n` sets of the design before rounding, one per stage (R183). -/
noncomputable def exactDesign (kind : CutKind) (f fs : ℝ) (n : Nat) : List ExactSet :=
  (List.range n).map (exactDesignSet kind f fs n)

/-- Where the design is defined: 0 < f < FS/2 and n in 1 to 4 (R183). -/
abbrev DesignDefined (f fs : ℝ) (n : Nat) : Prop := 0 < f ∧ f < fs / 2 ∧ 1 ≤ n ∧ n ≤ 4

/-- `cs` is the design `DESIGN(K, f, FS, n)` before rounding (R183). -/
def IsExactDesign (kind : CutKind) (f fs : ℝ) (n : Nat) (cs : List ExactSet) : Prop :=
  DesignDefined f fs n ∧ cs = exactDesign kind f fs n

/-- An exact set's coefficients, each rounded once (R186). -/
noncomputable def roundSet (c : ExactSet) : CoefSet :=
  { b0 := roundReal c.b0, b1 := roundReal c.b1, b2 := roundReal c.b2, a1 := roundReal c.a1, a2 := roundReal c.a2 }

/-- The reference design (R183 to R186): the exact design, each coefficient rounded once. Where it is undefined it gives
no set, and a controller refuses such a call (R183; 93 I10). -/
noncomputable def referenceDesign (kind : CutKind) (f fs : ℝ) (n : Nat) : List CoefSet :=
  if DesignDefined f fs n then (exactDesign kind f fs n).map roundSet else []

/-- The default R10 gives for `DESIGN`: the reference design. -/
noncomputable def DesignFunction.default : DesignFunction ℝ := referenceDesign

/-- `Driver.perform` with `DESIGN` at its default (R10). -/
noncomputable def Driver.performDefault (kind : CutKind) (d : Driver ℝ) (m : Move ℝ) : Option (Driver ℝ × List Instr) :=
  d.perform DesignFunction.default kind m

/-- The words of a set are an exact set's coefficients, each rounded once (R186), as a relation. -/
def IsRoundedSet (c : ExactSet) (w : CoefSet) : Prop :=
  IsRound32 c.b0 w.b0 ∧ IsRound32 c.b1 w.b1 ∧ IsRound32 c.b2 w.b2 ∧ IsRound32 c.a1 w.a1 ∧ IsRound32 c.a2 w.a2

/-- `sets` are the reference design's (R183 to R186), as a relation. -/
def IsReferenceDesign (kind : CutKind) (f fs : ℝ) (n : Nat) (sets : List CoefSet) : Prop :=
  ∃ cs : List ExactSet, IsExactDesign kind f fs n cs ∧ List.Forall₂ IsRoundedSet cs sets

/-- A design function is the reference design wherever that is defined (R10, R183). -/
def IsReference (design : DesignFunction ℝ) : Prop :=
  ∀ (kind : CutKind) (f fs : ℝ) (n : Nat), DesignDefined f fs n →
    IsReferenceDesign kind f fs n (design kind f fs n)

/-- `h` is the transfer function of a set at `z` (R117): `H(z) = (b0 + b1 z^-1 + b2 z^-2) / (1 + a1 z^-1 + a2 z^-2)`. -/
def SetResponse (c : ExactSet) (z h : ℂ) : Prop :=
  z ≠ 0 ∧ (1 + c.a1 * z⁻¹ + c.a2 * z⁻¹ ^ 2 : ℂ) ≠ 0 ∧
    h = (c.b0 + c.b1 * z⁻¹ + c.b2 * z⁻¹ ^ 2) / (1 + c.a1 * z⁻¹ + c.a2 * z⁻¹ ^ 2)

/-- `h` is the transfer function of a cascade of Active slots holding `cs` at `z`: the product (R148). -/
def CascadeResponse : List ExactSet → ℂ → ℂ → Prop
  | [], _, h => h = 1
  | c :: cs, z, h => ∃ h₁ h₂ : ℂ, SetResponse c z h₁ ∧ CascadeResponse cs z h₂ ∧ h = h₁ * h₂

/-- `g` is the gain in dB of a cascade of Active slots holding `cs` at frequency `f`, sample rate `fs`: its response at
`z = e^(2 pi i f / fs)` (R148, R189, R190). -/
def IsGainDb (cs : List ExactSet) (f fs g : ℝ) : Prop :=
  ∃ h : ℂ, CascadeResponse cs (Complex.exp (2 * Real.pi * f / fs * Complex.I)) h ∧ g = 20 * Real.logb 10 ‖h‖

/-- The same of a cascade holding coefficient words: of the sets they denote (R13). -/
def IsWordGainDb (sets : List CoefSet) (f fs g : ℝ) : Prop :=
  ∃ cs : List ExactSet, List.Forall₂ (fun w c => HasSet w.b0 w.b1 w.b2 w.a1 w.a2 c) sets cs ∧ IsGainDb cs f fs g

/-- A test frequency in the stopband of a kind with cutoff `f` (R189): below it for a high-pass, above it and below FS/2
for a low-pass. -/
def InStopband (kind : CutKind) (f fs test : ℝ) : Prop :=
  match kind with
  | .highPass => 0 < test ∧ test < f
  | .lowPass => f < test ∧ test < fs / 2

end Sys2Proof.Machine
end

