-- ==== Sys2Proof/Safety.lean ====
section
/-! DEFINITION. What counts as a run, its end and a good end (R219), the reading in which the first error stops a run
(R208), the invariant of the unit's state and the block discipline (R235). -/

namespace Sys2Proof.Machine

open Sys2Proof

/-- The run of a unit in state `s` on the finite stream `ws` ends in `t`: every word is consumed and `pend` is empty
(R219). A run that ends with `pend` not empty has no final state (R217). -/
def EndsIn (ws : List Word) (s t : State) : Prop := feed ws s = .next t ∧ t.pend = none

/-- A faulted state: STATUS.ERRCODE is not 0 (R208, R219). -/
def State.faulted (s : State) : Bool := decide (s.status.errcode ≠ 0#8)

/-- A good end of a run (R219). -/
def EndsGood (ws : List Word) (s t : State) : Prop := EndsIn ws s t ∧ t.faulted = false

/-- The observation of a run (R219): the response stream. -/
def State.observation (s : State) : List Word := s.out

/-- The reading of R208: a step that stops at the first error with its record (the word, its `pc`, the code). -/
def faultingStep (s : State) : Host.Outcome State Fault Refusal :=
  match step s with
  | .next t =>
    match t.faultRec with
    | none => .next t
    | some f => .fault f
  | .fault f => .fault f
  | .refused r => .refused r

/-- What every command leaves alone (R42): STATUS and the fault record, the pending command, the words offered, the
parameters and the source of its draws. -/
def SameControl (s t : State) : Prop :=
  t.status = s.status ∧ t.faultRec = s.faultRec ∧ t.pend = s.pend ∧ t.stream = s.stream ∧ t.params = s.params ∧
    t.source = s.source

/-- Two stages with the same five coefficients. -/
def SameCoefs (g h : Stage) : Prop :=
  h.b0 = g.b0 ∧ h.b1 = g.b1 ∧ h.b2 = g.b2 ∧ h.a1 = g.a1 ∧ h.a2 = g.a2

/-- Two stages with the same state registers. -/
def SameState (g h : Stage) : Prop := h.s1 = g.s1 ∧ h.s2 = g.s2

/-- A pending command is a proper part of a command that has payload: fewer words than it needs, and a header whose
unused fields are 0, as every decoded command word's are (R39, R91). -/
def Pending.wf (p : Pending) : Bool :=
  decide (p.got.length < p.head.op.payloadWords) && decide (p.head.slp = 0) && !p.head.f
    && (p.head.op.usesStg || decide (p.head.stg = 0))

/-- `pend` is empty or holds a proper part of a command (R39). -/
def State.pendWf (s : State) : Bool :=
  match s.pend with
  | none => true
  | some p => p.wf

/-- ERRCODE agrees with the record of the first error: 0 with no record, else the record's code (R35, R200, R208). -/
def State.errorWf (s : State) : Bool :=
  match s.faultRec with
  | none => decide (s.status.errcode = 0#8) && !s.status.ovf
  | some (.illegalOpcode _ _) => decide (s.status.errcode = 1#8)
  | some (.reservedField _ _) => decide (s.status.errcode = 2#8)

/-- The invariant of the unit: `pend` is well formed, STATUS holds a legal code that agrees with the fault record and no
OVF without a code (R35), and no more words have been emitted than consumed (R83, R93). -/
def State.Inv (s : State) : Prop :=
  s.pendWf = true ∧ s.errorWf = true ∧ s.out.length ≤ s.pc

/-- The commands of a list keep the block discipline (R235): between a block's first CPROC and the BLK that ends it no
LDC, SLOPE, BYP, CBYP, RST or CRST. `inBlock` says whether a CPROC has come since the last BLK. -/
def blockDisciplined : Bool → List Instr → Bool
  | _, [] => true
  | inBlock, i :: is =>
    match i with
    | .cproc _ => blockDisciplined true is
    | .blk => blockDisciplined false is
    | .proc _ _ => blockDisciplined inBlock is
    | .rdst => blockDisciplined inBlock is
    | .ldc _ _ _ _ _ _ => !inBlock && blockDisciplined inBlock is
    | .rst _ => !inBlock && blockDisciplined inBlock is
    | .byp _ _ => !inBlock && blockDisciplined inBlock is
    | .slope _ => !inBlock && blockDisciplined inBlock is
    | .cbyp _ => !inBlock && blockDisciplined inBlock is
    | .crst => !inBlock && blockDisciplined inBlock is

/-- A stage whose state registers hold a NaN and no longer recover by running (R119). -/
def Stage.poisoned (g : Stage) : Bool := isNaN g.s1 && isNaN g.s2

end Sys2Proof.Machine
end

