-- ==== Sys2Proof/Certificates/Slice0/Obligations.lean ====
section
/-! DEFINITION. The statements for the provers, from the numbered rules of the spec. Where a statement gives what a command
leaves unchanged, `SameControl` (Safety.lean) stands for STATUS, the fault record, `pend`, the words offered, the
parameters and the source of the draws. Every statement holds for every value of the parameters and every free draw of `NAN_OUT`. -/

open Sys2Proof Sys2Proof.Machine

/-! ## Encoding -/

/-- R80 to R83, R89: decoding a command's words gives the command back, whatever follows them. -/
def Obligations.DecodeEncodeRoundTrip : Prop :=
  ∀ (i : Instr) (rest : List Word), i.wellFormed = true → decode (encode i ++ rest) = .command i rest

/-- R91, R96: each command has one encoding: whatever decodes to a command starts with exactly that command's words. -/
def Obligations.EncodeDecodeRoundTrip : Prop :=
  ∀ (ws rest : List Word) (i : Instr), decode ws = .command i rest → ws = encode i ++ rest

/-- R92 whole, with R90: OP reserved gives ILLEGAL_OPCODE whatever the other bits; else a 1 outside `usedmask(op)` gives
RESERVED_FIELD; else the fields; the decoder is total. While a command is pending the next words are taken as its payload, never decoded. -/
def Obligations.DecodeWordCases : Prop :=
  (∀ w : Word,
    let op := w.extractLsb' 28 4
    let mask : Word := 0xF0000000#32
      ||| (if op = 0x1#4 ∨ op = 0x2#4 ∨ op = 0x3#4 ∨ op = 0x4#4 then 0x0C000000#32 else 0#32)
      ||| (if op = 0x9#4 then 0x03000000#32 else 0#32)
      ||| (if op = 0x4#4 ∨ op = 0xA#4 then 0x00000001#32 else 0#32)
    if op = 0x0#4 ∨ op = 0x5#4 ∨ op = 0x6#4 ∨ op = 0x7#4 ∨ op = 0xE#4 ∨ op = 0xF#4 then
      decodeWord w = .error .illegalOpcode
    else if w &&& ~~~mask ≠ 0#32 then decodeWord w = .error .reservedField
    else ∃ h, decodeWord w = .ok h ∧ h.op.code = op ∧ h.stg.val = (w.extractLsb' 26 2).toNat ∧
      h.slp.val = (w.extractLsb' 24 2).toNat ∧ h.f = w.getLsbD 0) ∧
  (∀ (s : State) (p : Pending), s.pend = some p → s.stream ≠ [] →
    fetch s = takePayload p.head (p.got ++ s.stream))

/-- R96: the legal command words are exactly the 30 of its table (`legalCommandWords`, Decode.lean), each with its operation; every other word is an error. -/
def Obligations.LegalCommandWords : Prop :=
  legalCommandWords.length = 30 ∧
  ∀ w : Word,
    (∀ op, (∃ h, decodeWord w = .ok h ∧ h.op = op) ↔ (op, w) ∈ legalCommandWords) ∧
    ((∀ op, (op, w) ∉ legalCommandWords) → decodeWord w = .error .illegalOpcode ∨ decodeWord w = .error .reservedField)

/-- R94, 95 V1, V7: some words of the spec decode to the commands they stand for. -/
def Obligations.SampleWordsDecode : Prop :=
  decode [0x1C000000#32, 0x3F800000#32] = .command (.proc 3 0x3F800000#32) [] ∧
  decode [0x24000000#32, 0x3F000000#32, 0x3E800000#32, 0x3E000000#32, 0xBF000000#32, 0x3E800000#32]
    = .command (.ldc 1 0x3F000000#32 0x3E800000#32 0x3E000000#32 0xBF000000#32 0x3E800000#32) [] ∧
  decode [0x34000000#32] = .command (.rst 1) [] ∧
  decode [0x48000001#32] = .command (.byp 2 true) [] ∧
  decode [0x80000000#32, 0x7FA00001#32] = .command (.cproc 0x7FA00001#32) [] ∧
  decode [0x92000000#32] = .command (.slope 2) [] ∧
  decode [0xA0000001#32] = .command (.cbyp true) [] ∧
  decode [0xB0000000#32] = .command .crst [] ∧
  decode [0xC0000000#32] = .command .blk [] ∧
  decode [0xD0000000#32] = .command .rdst []

/-- R62, R63: a byte transport carries each word least significant byte first, and a stream that ends inside a word
gives the whole words and leaves the rest waiting. -/
def Obligations.ByteTransportRoundTrip : Prop :=
  (∀ w : Word, (bytesOfWord w).map BitVec.toNat =
    [w.toNat % 256, w.toNat / 256 % 256, w.toNat / 65536 % 256, w.toNat / 16777216 % 256]) ∧
  ∀ (ws : List Word) (tail : List Byte), tail.length < 4 → wordsOfBytes (bytesOfWords ws ++ tail) = (ws, tail)

/-! ## The step -/

/-- R66, R83: with no command pending, a step runs the command the stream's front decodes to; around it the step only
takes the command's words off the stream. (That one step takes a whole command is log entry 7, and that the words offered
stand in the field `stream` log entry 1: the model's choices.) -/
def Obligations.StepRunsDecodedCommand : Prop :=
  ∀ (s : State) (i : Instr) (rest : List Word), s.pend = none →
    (decode s.stream = .command i rest → step s = exec i { s with stream := rest }) ∧
    (s.stream = encode i ++ rest → step s = exec i { s with stream := rest })

/-- R39: a command whose payload words have not all arrived waits in `pend` with no effect; while `pend` is not empty the
next words are payload, whatever they are, and the command takes effect when the last one arrives. (That one step takes
all the words there are is log entry 7, and that `pc` stays at the command word meanwhile log entry 5: the model's
choices.) -/
def Obligations.PendingCommandTakesPayload : Prop :=
  (∀ (s : State) (w : Word) (ws : List Word) (h : Header), s.pend = none → s.stream = w :: ws →
    decodeWord w = .ok h → ws.length < h.op.payloadWords →
    step s = .next { s with pend := some { head := h, got := ws }, stream := [] }) ∧
  ∀ (s : State) (p : Pending), s.pend = some p → p.wf = true →
    (p.head.op.payloadWords ≤ p.got.length + s.stream.length →
      step s = exec (assemble p.head (p.got ++ s.stream.take (p.head.op.payloadWords - p.got.length)))
        { s with pend := none, stream := s.stream.drop (p.head.op.payloadWords - p.got.length) }) ∧
    (s.stream ≠ [] → p.got.length + s.stream.length < p.head.op.payloadWords →
      step s = .next { s with pend := some { head := p.head, got := p.got ++ s.stream }, stream := [] })

/-- R204, R209, R217: a step has a next state whenever there is a word to consume; without one the unit waits (no step,
no fault), whether or not a command is pending. No step is a fault. (That an erroneous word is a next state and no fault is
log entry 4, that waiting is the refusal `awaitingWord` log entry 6: the model's choices.) -/
def Obligations.StepWaitsOnlyWithoutWords : Prop :=
  ∀ s : State, if s.stream = [] then step s = .refused .awaitingWord else ∃ t, step s = .next t

/-- R39, R66, R75: a step is a number of transfers of one word each: the words it took off the stream, accepted one
after the other, leave the same state. (R75 calls a transfer a step; the whole-command step is log entry 7, the model's
choice, and this statement ties it to the transfers.) -/
def Obligations.StepIsTransfers : Prop :=
  ∀ s t : State, s.pendWf = true → step s = .next t →
    ∃ taken : List Word, taken ≠ [] ∧ s.stream = taken ++ t.stream ∧ transfers taken.length s = .next t

/-- R66, R80: the words of a list of commands, given to the unit one after the other, execute the commands in order. -/
def Obligations.FeedExecutesCommands : Prop :=
  ∀ (is : List Instr) (s : State), s.pend = none → feed (encodeAll is) s = execAll is s

/-- R219, R208: a run from a state with `pend` empty ends good exactly when no error has been recorded before and its
stream is the words of a list of commands; its final state is what the commands, executed in order, leave. -/
def Obligations.GoodRunsAreCommandRuns : Prop :=
  ∀ (ws : List Word) (s t : State), s.pend = none →
    (EndsGood ws s t ↔ s.faulted = false ∧ ∃ is, ws = encodeAll is ∧ execAll is s = .next t)

/-! ## Errors -/

/-- R201 whole: ILLEGAL_OPCODE: STATUS records it, the word is consumed, nothing else of the unit changes (R204). -/
def Obligations.IllegalOpcodeRecorded : Prop :=
  ∀ (s : State) (w : Word) (ws : List Word), s.pend = none → s.stream = w :: ws →
    w.extractLsb' 28 4 ∈ [0x0#4, 0x5#4, 0x6#4, 0x7#4, 0xE#4, 0xF#4] →
    ∃ t, step s = .next t ∧
      t.status.errcode = (if s.status.errcode = 0#8 then 1#8 else s.status.errcode) ∧
      t.status.ovf = (if s.status.errcode = 0#8 then s.status.ovf else true) ∧ t.pc = s.pc + 1 ∧
      t.st = s.st ∧ t.cbyp = s.cbyp ∧ t.out = s.out ∧ t.pend = none ∧ t.stream = ws ∧
      t.params = s.params ∧ t.draws = s.draws ∧ t.source = s.source

/-- R202 whole: RESERVED_FIELD, in the same way. -/
def Obligations.ReservedFieldRecorded : Prop :=
  ∀ (s : State) (w : Word) (ws : List Word) (op : Op), s.pend = none → s.stream = w :: ws →
    w.extractLsb' 28 4 = op.code → w &&& ~~~op.usedMask ≠ 0#32 →
    ∃ t, step s = .next t ∧
      t.status.errcode = (if s.status.errcode = 0#8 then 2#8 else s.status.errcode) ∧
      t.status.ovf = (if s.status.errcode = 0#8 then s.status.ovf else true) ∧ t.pc = s.pc + 1 ∧
      t.st = s.st ∧ t.cbyp = s.cbyp ∧ t.out = s.out ∧ t.pend = none ∧ t.stream = ws ∧
      t.params = s.params ∧ t.draws = s.draws ∧ t.source = s.source

/-- R203, R207, R208: over any number of steps ERRCODE keeps the first code, OVF is never cleared, and the record of the
first error is kept. -/
def Obligations.FirstErrorIsSticky : Prop :=
  ∀ (n : Nat) (s t : State), Host.Core.run Sys2Proof.core n s = .next t →
    (s.status.errcode ≠ 0#8 → t.status.errcode = s.status.errcode) ∧
    (s.status.ovf = true → t.status.ovf = true) ∧
    (∀ f, s.faultRec = some f → t.faultRec = some f)

/-- R208: in the reading that stops at the first error, a step from a state without a record faults with the word, its
`pc` and its code exactly when the next word is erroneous, and is the unit's step otherwise. -/
def Obligations.FaultingStepStopsAtFirstError : Prop :=
  ∀ s : State, s.faultRec = none →
    match fetch s with
    | .rejected .illegalOpcode w _ => faultingStep s = .fault (.illegalOpcode w s.pc)
    | .rejected .reservedField w _ => faultingStep s = .fault (.reservedField w s.pc)
    | .command _ _ => faultingStep s = step s
    | .incomplete _ _ => faultingStep s = step s
    | .empty => faultingStep s = .refused .awaitingWord

/-! ## The stage step -/

/-- R110 whole: the stage step under `FORM = TDF2`, each primitive in its place, with the bypass of R112. -/
def Obligations.TransposedStageStep : Prop :=
  ∀ (p : Params) (nan : Nat → Word) (byp : Bool) (g : Stage) (x : Word), p.form = .tdf2 →
    stageStep p nan byp g x =
      if byp = true ∧ p.bypass = .frozen then (x, g)
      else
        let y := fadd (nan 1) (fmul (nan 0) g.b0 x) g.s1
        let t := fsub (nan 4) (fmul (nan 2) g.b1 x) (fmul (nan 3) g.a1 y)
        let n1 := fadd (nan 5) t g.s2
        let n2 := fsub (nan 8) (fmul (nan 6) g.b2 x) (fmul (nan 7) g.a2 y)
        (if byp = true then x else y, { g with s1 := n1, s2 := n2 })

/-- R111: the stage step under `FORM = DF2`. -/
def Obligations.DirectFormTwoStageStep : Prop :=
  ∀ (p : Params) (nan : Nat → Word) (byp : Bool) (g : Stage) (x : Word), p.form = .df2 →
    stageStep p nan byp g x =
      if byp = true ∧ p.bypass = .frozen then (x, g)
      else
        let w := fsub (nan 3) (fsub (nan 1) x (fmul (nan 0) g.a1 g.s1)) (fmul (nan 2) g.a2 g.s2)
        let y := fadd (nan 8) (fadd (nan 6) (fmul (nan 4) g.b0 w) (fmul (nan 5) g.b1 g.s1)) (fmul (nan 7) g.b2 g.s2)
        (if byp = true then x else y, { g with s1 := w, s2 := g.s1 })

/-- R113: PROC runs the stage step of slot k with the slot's own bypass bit and emits its output, whatever `cbyp` is. -/
def Obligations.ProcEmitsStageOutput : Prop :=
  ∀ (k : Slot) (x : Word) (s : State), ∃ t, exec (.proc k x) s = .next t ∧
    t.out = s.out ++ [(stageStep s.params (fun i => nanOut s.source (s.draws + i)) (s.slot k).byp (s.slot k) x).1] ∧
    t.slot k = (stageStep s.params (fun i => nanOut s.source (s.draws + i)) (s.slot k).byp (s.slot k) x).2 ∧
    (∀ j, j ≠ k → t.slot j = s.slot j) ∧ SameCoefs (s.slot k) (t.slot k) ∧ (t.slot k).byp = (s.slot k).byp ∧
    t.cbyp = s.cbyp ∧ t.pc = s.pc + 2 ∧ SameControl s t

/-- R112: a PROC through a bypassed slot emits `x` bit for bit under either policy; under FROZEN every slot keeps
everything, under RUNNING the slot's state pair takes the values the running stage computes. -/
def Obligations.BypassedProcPassesInput : Prop :=
  ∀ (k : Slot) (x : Word) (s : State), (s.slot k).byp = true → ∃ t, exec (.proc k x) s = .next t ∧
    t.out = s.out ++ [x] ∧
    (s.params.bypass = .frozen → t.st = s.st ∧ t.draws = s.draws) ∧
    (s.params.bypass = .running →
      t.slot k = (s.slot k).setState
        (stageArith s.params.form (fun i => nanOut s.source (s.draws + i)) (s.slot k) x).2.1
        (stageArith s.params.form (fun i => nanOut s.source (s.draws + i)) (s.slot k) x).2.2 ∧
      ∀ j, j ≠ k → t.slot j = s.slot j) ∧
    t.cbyp = s.cbyp ∧ t.pc = s.pc + 2 ∧ SameControl s t

/-- R119: once `s1` of a running stage holds a NaN, every later output of the stage is a NaN and `s1` stays one, in either
form, for any inputs. A NaN in `s2` does the same at once under DF2; under TDF2 it reaches `s1` with the next sample and
the outputs only after it, so there the statement departs from R119's letter as log entry 14 says. -/
def Obligations.NanStatePersists : Prop :=
  ∀ (k : Slot) (s : State), (s.slot k).byp = false →
    (isNaN (s.slot k).s1 = true ∨ s.params.form = .df2 ∧ isNaN (s.slot k).s2 = true →
      ∀ (x : Word) (xs : List Word), ∃ t ys, execAll ((x :: xs).map (.proc k)) s = .next t ∧
        t.out = s.out ++ ys ∧ ys.length = xs.length + 1 ∧ (∀ y ∈ ys, isNaN y = true) ∧ isNaN (t.slot k).s1 = true) ∧
    (s.params.form = .tdf2 → isNaN (s.slot k).s2 = true →
      ∀ x : Word, ∃ t, exec (.proc k x) s = .next t ∧ isNaN (t.slot k).s1 = true)

/-- R113 (b): under TDF2 a NaN input to a running stage gives a NaN output and a NaN in both state registers. -/
def Obligations.NanInputPoisonsState : Prop :=
  ∀ (k : Slot) (x : Word) (s : State), s.params.form = .tdf2 → (s.slot k).byp = false → isNaN x = true →
    ∃ t y, exec (.proc k x) s = .next t ∧ t.out = s.out ++ [y] ∧ isNaN y = true ∧ (t.slot k).poisoned = true

/-- R117 whole: in exact arithmetic both forms, from zero state, compute the biquad difference equation, and so (with
power series in `z^-1`) have the transfer function `H(z)`: the output times the denominator is the input times the
numerator. -/
def Obligations.ExactFormsComputeDifferenceEquation : Prop :=
  ∀ (form : Form) (c : ExactSet) (x : ℕ → ℝ), let y := exactOutAt form c x
    (∀ n, y n = c.b0 * x n + c.b1 * delayed x 1 n + c.b2 * delayed x 2 n
      - c.a1 * delayed y 1 n - c.a2 * delayed y 2 n) ∧
    PowerSeries.mk y * (1 + PowerSeries.C c.a1 * PowerSeries.X + PowerSeries.C c.a2 * PowerSeries.X ^ 2)
      = (PowerSeries.C c.b0 + PowerSeries.C c.b1 * PowerSeries.X + PowerSeries.C c.b2 * PowerSeries.X ^ 2)
        * PowerSeries.mk x

/-- R148: in exact arithmetic the cascade's transfer function is the product of its Active slots' (power series in
`z^-1`), a slot being Active when neither its own bypass bit nor `cbyp` is set, and the order of the slots does not
matter. -/
def Obligations.ExactCascadeIsProduct : Prop :=
  ∀ (form : Form) (cbyp : Bool) (cs : List (ExactSet × Bool)) (x : ℕ → ℝ),
    let active := (cs.filter fun p => !(p.2 || cbyp)).map Prod.fst
    PowerSeries.mk (exactCascade form cbyp cs x)
        * (active.map fun c =>
            1 + PowerSeries.C c.a1 * PowerSeries.X + PowerSeries.C c.a2 * PowerSeries.X ^ 2).prod
      = (active.map fun c =>
            PowerSeries.C c.b0 + PowerSeries.C c.b1 * PowerSeries.X + PowerSeries.C c.b2 * PowerSeries.X ^ 2).prod
        * PowerSeries.mk x ∧
    ∀ ds : List (ExactSet × Bool), ds.Perm cs → exactCascade form cbyp ds x = exactCascade form cbyp cs x

/-- R14, R110, R111, R117: where the exact result of each of the nine primitives is representable, the unit's stage step
computes the values of the exact step: the output and both state registers. -/
def Obligations.StageArithmeticIsExactWhenRepresentable : Prop :=
  ∀ (form : Form) (nan : Nat → Word) (g : Stage) (x : Word) (c : ExactSet) (v1 v2 vx : ℝ),
    HasSet g.b0 g.b1 g.b2 g.a1 g.a2 c → HasValue g.s1 v1 → HasValue g.s2 v2 → HasValue x vx →
    (∀ v ∈ exactParts form c v1 v2 vx, Representable v) →
    HasValue (stageArith form nan g x).1 (exactStep form c v1 v2 vx).1 ∧
    HasValue (stageArith form nan g x).2.1 (exactStep form c v1 v2 vx).2.1 ∧
    HasValue (stageArith form nan g x).2.2 (exactStep form c v1 v2 vx).2.2

/-! ## The stage commands -/

/-- R114 whole: LDC, its words as encoded, writes the five coefficient registers of slot k together, and nothing else. -/
def Obligations.LdcLoadsFiveCoefficients : Prop :=
  ∀ (k : Slot) (b0 b1 b2 a1 a2 : Word) (s : State),
    encode (.ldc k b0 b1 b2 a1 a2) = [0x2#4 ++ BitVec.ofFin (w := 2) k ++ 0#26, b0, b1, b2, a1, a2] ∧
    ∃ t, exec (.ldc k b0 b1 b2 a1 a2) s = .next t ∧
    (t.slot k).b0 = b0 ∧ (t.slot k).b1 = b1 ∧ (t.slot k).b2 = b2 ∧ (t.slot k).a1 = a1 ∧ (t.slot k).a2 = a2 ∧
    SameState (s.slot k) (t.slot k) ∧ (t.slot k).byp = (s.slot k).byp ∧ (∀ j, j ≠ k → t.slot j = s.slot j) ∧
    t.cbyp = s.cbyp ∧ t.out = s.out ∧ t.pc = s.pc + 6 ∧ t.draws = s.draws ∧ SameControl s t

/-- R115 whole: RST, its word as encoded, makes `s1` and `s2` of slot k +0, whatever they hold, and changes nothing else. -/
def Obligations.RstClearsStateRegisters : Prop :=
  ∀ (k : Slot) (s : State), encode (.rst k) = [0x3#4 ++ BitVec.ofFin (w := 2) k ++ 0#26] ∧
    ∃ t, exec (.rst k) s = .next t ∧
    (t.slot k).s1 = 0x00000000#32 ∧ (t.slot k).s2 = 0x00000000#32 ∧
    SameCoefs (s.slot k) (t.slot k) ∧ (t.slot k).byp = (s.slot k).byp ∧ (∀ j, j ≠ k → t.slot j = s.slot j) ∧
    t.cbyp = s.cbyp ∧ t.out = s.out ∧ t.pc = s.pc + 1 ∧ t.draws = s.draws ∧ SameControl s t

/-- R116 whole: BYP, its word as encoded, writes the bypass bit of slot k and nothing else. -/
def Obligations.BypSetsStageBypass : Prop :=
  ∀ (k : Slot) (f : Bool) (s : State),
    encode (.byp k f) = [0x4#4 ++ BitVec.ofFin (w := 2) k ++ 0#25 ++ BitVec.ofBool f] ∧
    ∃ t, exec (.byp k f) s = .next t ∧
    (t.slot k).byp = f ∧ SameCoefs (s.slot k) (t.slot k) ∧ SameState (s.slot k) (t.slot k) ∧
    (∀ j, j ≠ k → t.slot j = s.slot j) ∧
    t.cbyp = s.cbyp ∧ t.out = s.out ∧ t.pc = s.pc + 1 ∧ t.draws = s.draws ∧ SameControl s t

/-! ## The cascade commands -/

/-- R140, R141: CPROC runs the stage step of slots 0, 1, 2, 3 in that order, each slot's output the next one's input, each
with the bypass bit `st[k].byp OR cbyp`, and emits the last output; no bypass bit and no coefficient is written. A slot
that computes uses nine free draws, one bypassed under FROZEN none. -/
def Obligations.CprocRunsSlotsInOrder : Prop :=
  ∀ (x : Word) (s : State),
    let byp (k : Slot) : Bool := (s.slot k).byp || s.cbyp
    let run (k : Slot) (draws : Nat) (v : Word) : Word × Stage :=
      stageStep s.params (fun i => nanOut s.source (draws + i)) (byp k) (s.slot k) v
    let used (k : Slot) : Nat := if byp k = true ∧ s.params.bypass = .frozen then 0 else 9
    let r0 := run 0 s.draws x
    let r1 := run 1 (s.draws + used 0) r0.1
    let r2 := run 2 (s.draws + used 0 + used 1) r1.1
    let r3 := run 3 (s.draws + used 0 + used 1 + used 2) r2.1
    ∃ t, exec (.cproc x) s = .next t ∧ t.out = s.out ++ [r3.1] ∧
      t.slot 0 = r0.2 ∧ t.slot 1 = r1.2 ∧ t.slot 2 = r2.2 ∧ t.slot 3 = r3.2 ∧
      t.draws = s.draws + used 0 + used 1 + used 2 + used 3 ∧
      (∀ k, SameCoefs (s.slot k) (t.slot k) ∧ (t.slot k).byp = (s.slot k).byp) ∧
      t.cbyp = s.cbyp ∧ t.pc = s.pc + 2 ∧ SameControl s t

/-- R140, R141, R143: with `cbyp` = 1 CPROC emits `x` bit for bit under either policy; under FROZEN it touches no state,
under RUNNING every slot computes on `x` and writes its state pair. -/
def Obligations.CascadeBypassPassesInput : Prop :=
  ∀ (x : Word) (s : State), s.cbyp = true → ∃ t, exec (.cproc x) s = .next t ∧
    t.out = s.out ++ [x] ∧ (s.params.bypass = .frozen → t.st = s.st ∧ t.draws = s.draws) ∧
    (s.params.bypass = .running → ∀ k : Slot,
      let r := stageArith s.params.form (fun i => nanOut s.source (s.draws + 9 * k.val + i)) (s.slot k) x
      t.slot k = (s.slot k).setState r.2.1 r.2.2) ∧
    (∀ k, SameCoefs (s.slot k) (t.slot k) ∧ (t.slot k).byp = (s.slot k).byp) ∧
    t.cbyp = s.cbyp ∧ t.pc = s.pc + 2 ∧ SameControl s t

/-- R43, R141: with all four slots Bypassed CPROC emits `x` bit for bit, whatever `cbyp` is; a freshly reset unit does so
for every sample of every list of samples and keeps its state. -/
def Obligations.BypassedSlotsPassInput : Prop :=
  (∀ (x : Word) (s : State), (∀ k, (s.slot k).byp = true) → ∃ t, exec (.cproc x) s = .next t ∧
    t.out = s.out ++ [x] ∧ (s.params.bypass = .frozen → t.st = s.st)) ∧
  (∀ xs : List Word, ∃ t, execAll (xs.map .cproc) State.reset = .next t ∧ t.out = xs ∧ t.st = State.reset.st)

/-- R142 whole: SLOPE c, its word as encoded, writes the four stage bypass bits, slot k Bypassed exactly when k > c, and nothing else. -/
def Obligations.SlopeActivatesCumulatively : Prop :=
  ∀ (c : Slot) (s : State), encode (.slope c) = [0x90000000#32 ||| BitVec.ofNat 32 (c.val <<< 24)] ∧
    ∃ t, exec (.slope c) s = .next t ∧
    (∀ k : Slot, ((t.slot k).byp = true ↔ c.val < k.val)) ∧
    (∀ k, SameCoefs (s.slot k) (t.slot k) ∧ SameState (s.slot k) (t.slot k)) ∧
    t.cbyp = s.cbyp ∧ t.out = s.out ∧ t.pc = s.pc + 1 ∧ t.draws = s.draws ∧ SameControl s t

/-- R147: after SLOPE c, and while no BYP (and no other SLOPE) is issued, exactly the slots 0 to c are Active. -/
def Obligations.SlopePatternPersists : Prop :=
  ∀ (c : Slot) (is : List Instr) (s t : State),
    (∀ i ∈ is, (∀ k f, i ≠ .byp k f) ∧ ∀ c', i ≠ .slope c') →
    execAll (.slope c :: is) s = .next t → ∀ k : Slot, ((t.slot k).byp = false ↔ k.val ≤ c.val)

/-- R143 whole: CBYP, its word as encoded, writes the cascade bypass bit and nothing else; under FROZEN, CBYP 1, any
samples, then CBYP 0 return the cut filter to exactly the state it had, and every sample comes back bit for bit. -/
def Obligations.CbypSetsCascadeBypass : Prop :=
  (∀ (f : Bool) (s : State), encode (.cbyp f) = [if f then 0xA0000001#32 else 0xA0000000#32] ∧
    ∃ t, exec (.cbyp f) s = .next t ∧ t.cbyp = f ∧ (∀ k, t.slot k = s.slot k) ∧
    t.out = s.out ∧ t.pc = s.pc + 1 ∧ t.draws = s.draws ∧ SameControl s t) ∧
  ∀ (xs : List Word) (s : State), s.params.bypass = .frozen →
    ∃ t, execAll (.cbyp true :: xs.map .cproc ++ [.cbyp false]) s = .next t ∧
      t.st = s.st ∧ t.cbyp = false ∧ t.out = s.out ++ xs ∧ t.draws = s.draws ∧ SameControl s t

/-- R144 whole: CRST, its word as encoded, makes all eight state registers +0, changes nothing else, and equals RST on each of the four slots in
any order (but for the `pc`, which counts words). -/
def Obligations.CrstClearsEverySlot : Prop :=
  encode .crst = [0xB0000000#32] ∧
  (∀ s : State, ∃ t, exec .crst s = .next t ∧
    (∀ k, (t.slot k).s1 = 0x00000000#32 ∧ (t.slot k).s2 = 0x00000000#32 ∧
      SameCoefs (s.slot k) (t.slot k) ∧ (t.slot k).byp = (s.slot k).byp) ∧
    t.cbyp = s.cbyp ∧ t.out = s.out ∧ t.pc = s.pc + 1 ∧ t.draws = s.draws ∧ SameControl s t) ∧
  (∀ (ks : List Slot) (s : State), ks.Perm [0, 1, 2, 3] →
    ∃ t u, exec .crst s = .next t ∧ execAll (ks.map .rst) s = .next u ∧ { u with pc := t.pc } = t)

/-- R145 whole: under `SNAP = NONE` BLK keeps every state register; under `SNAP = T` it makes each of the eight +0 if it is
a NaN or its magnitude is at most T and keeps it otherwise; either way nothing else changes and nothing is emitted. -/
def Obligations.BlkSnapsStateRegisters : Prop :=
  ∀ s : State, ∃ t, exec .blk s = .next t ∧
    (∀ k,
      (match s.params.snap with
        | none => SameState (s.slot k) (t.slot k)
        | some T =>
          (t.slot k).s1 = (if isNaN (s.slot k).s1 = true ∨ absLe (s.slot k).s1 T = true
            then 0x00000000#32 else (s.slot k).s1) ∧
          (t.slot k).s2 = (if isNaN (s.slot k).s2 = true ∨ absLe (s.slot k).s2 T = true
            then 0x00000000#32 else (s.slot k).s2)) ∧
      SameCoefs (s.slot k) (t.slot k) ∧ (t.slot k).byp = (s.slot k).byp) ∧
    t.cbyp = s.cbyp ∧ t.out = s.out ∧ t.pc = s.pc + 1 ∧ t.draws = s.draws ∧ SameControl s t

/-- R13, R145: the comparison `|r| <= T` of a finite register with a positive finite threshold is the comparison of the
values they denote; an infinite register is above every finite threshold. -/
def Obligations.SnapComparesValues : Prop :=
  ∀ r T : Word, thresholdWellFormed T = true → isFinite T = true →
    (isFinite r = true → (absLe r T = true ↔ |units r| ≤ units T)) ∧ (isInf r = true → absLe r T = false)

/-- R146 whole, with R35: RDST, its word as encoded, emits the STATUS word, ERRCODE in bits 7:0, OVF in bit 8, zero above, and changes nothing else. -/
def Obligations.RdstEmitsStatus : Prop :=
  ∀ s : State, encode .rdst = [0xD0000000#32] ∧ ∃ t w, exec .rdst s = .next t ∧ t.out = s.out ++ [w] ∧
    w.toNat = s.status.errcode.toNat + (if s.status.ovf then 256 else 0) ∧
    (∀ k, t.slot k = s.slot k) ∧ t.cbyp = s.cbyp ∧ t.pc = s.pc + 1 ∧ t.draws = s.draws ∧ SameControl s t

/-! ## Whole-machine rules -/

/-- R42, R36: no command writes STATUS, the fault record, `pend`, the words offered or the parameters. -/
def Obligations.CommandsKeepControl : Prop :=
  ∀ (i : Instr) (s t : State), exec i s = .next t → SameControl s t

/-- R31: the coefficient registers are written only by LDC, and only those of its slot. -/
def Obligations.OnlyLdcWritesCoefficients : Prop :=
  ∀ (i : Instr) (s t : State) (k : Slot), exec i s = .next t →
    (∀ b0 b1 b2 a1 a2, i ≠ .ldc k b0 b1 b2 a1 a2) → SameCoefs (s.slot k) (t.slot k)

/-- R32, R42: a slot's state registers are written only by PROC and RST of that slot, CPROC, CRST and BLK; under FROZEN a
bypassed slot's only by RST, CRST and BLK. -/
def Obligations.WhoWritesStateRegisters : Prop :=
  ∀ (i : Instr) (s t : State) (k : Slot), exec i s = .next t →
    ((∀ x, i ≠ .proc k x) → i ≠ .rst k → (∀ x, i ≠ .cproc x) → i ≠ .crst → i ≠ .blk →
      SameState (s.slot k) (t.slot k)) ∧
    (s.params.bypass = .frozen → (s.slot k).byp = true → i ≠ .rst k → i ≠ .crst → i ≠ .blk →
      SameState (s.slot k) (t.slot k))

/-- R33, R34, R42: a stage bypass bit is written only by BYP of its slot and SLOPE, the cascade bypass bit only by CBYP. -/
def Obligations.WhoWritesBypassBits : Prop :=
  ∀ (i : Instr) (s t : State), exec i s = .next t →
    (∀ k, (∀ f, i ≠ .byp k f) → (∀ c, i ≠ .slope c) → (t.slot k).byp = (s.slot k).byp) ∧
    ((∀ f, i ≠ .cbyp f) → t.cbyp = s.cbyp)

/-- R93: PROC, CPROC and RDST emit exactly one word, every other command none, and an illegal word none. -/
def Obligations.ResponseWordsPerCommand : Prop :=
  (∀ (i : Instr) (s : State), ∃ t ws, exec i s = .next t ∧ t.out = s.out ++ ws ∧
    ws.length = if i.op = .proc ∨ i.op = .cproc ∨ i.op = .rdst then 1 else 0) ∧
  (∀ (s : State) (e : CommandError) (w : Word) (rest : List Word), fetch s = .rejected e w rest →
    ∃ t, step s = .next t ∧ t.out = s.out)

/-- R37, R83: each command advances `pc` by its length in words, an erroneous word by 1. -/
def Obligations.PcAdvancesByLength : Prop :=
  (∀ (i : Instr) (s t : State), exec i s = .next t → t.pc = s.pc + (encode i).length) ∧
  (∀ (s : State) (e : CommandError) (w : Word) (rest : List Word), fetch s = .rejected e w rest →
    ∃ t, step s = .next t ∧ t.pc = s.pc + 1)

/-- R65: LDC, RST, BYP, SLOPE, CBYP and CRST repeated with the same fields leave the same state as one issue (but for the
`pc`, which counts words). -/
def Obligations.ConfigurationCommandsIdempotent : Prop :=
  ∀ (i : Instr) (s : State),
    i.op = .ldc ∨ i.op = .rst ∨ i.op = .byp ∨ i.op = .slope ∨ i.op = .cbyp ∨ i.op = .crst →
    ∃ t u, exec i s = .next t ∧ exec i t = .next u ∧ { u with pc := t.pc } = t

/-- The invariant of the unit is kept by every step, from every state that has it: `pend` a proper part of a command
(R39), ERRCODE 0, 1 or 2 in agreement with the fault record and no OVF without it (R35, R203), and no more words emitted
than consumed (R83, R93). -/
def Obligations.StepKeepsInvariant : Prop :=
  ∀ s t : State, s.Inv → step s = .next t → t.Inv

/-- The state of hardware reset has the invariant. -/
def Obligations.ResetHasInvariant : Prop := State.reset.Inv

/-! ## Arithmetic -/

/-- R15: the special values of `fmul`: NaN operands, infinity times zero, infinity times a nonzero number, zero times a
finite number. -/
def Obligations.FmulSpecialValues : Prop :=
  ∀ nan a b : Word,
    (isNaN a = true ∨ isNaN b = true → fmul nan a b = nan) ∧
    (isInf a = true ∧ isZero b = true ∨ isZero a = true ∧ isInf b = true → fmul nan a b = nan) ∧
    (isInf a = true ∧ isNaN b = false ∧ isZero b = false ∨ isInf b = true ∧ isNaN a = false ∧ isZero a = false →
      isInf (fmul nan a b) = true ∧ signBit (fmul nan a b) = (signBit a ^^ signBit b)) ∧
    (isZero a = true ∧ isFinite b = true ∨ isFinite a = true ∧ isZero b = true →
      isZero (fmul nan a b) = true ∧ signBit (fmul nan a b) = (signBit a ^^ signBit b))

/-- R15: the special values of `fadd`, and `fneg` and `fsub`: NaN operands, infinities, sums of zeros, a zero operand, an
exact zero sum of nonzero operands. -/
def Obligations.FaddSpecialValues : Prop :=
  ∀ nan a b : Word,
    (isNaN a = true ∨ isNaN b = true → fadd nan a b = nan) ∧
    (isInf a = true → isInf b = true → signBit a ≠ signBit b → fadd nan a b = nan) ∧
    (isInf a = true → isInf b = true → signBit a = signBit b → fadd nan a b = a) ∧
    (isInf a = true → isFinite b = true → fadd nan a b = a) ∧
    (isFinite a = true → isInf b = true → fadd nan a b = b) ∧
    (isZero a = true → isZero b = true → fadd nan a b =
      if a = 0x80000000#32 ∧ b = 0x80000000#32 then 0x80000000#32 else 0x00000000#32) ∧
    (isFinite a = true → isZero a = false → isZero b = true → fadd nan a b = a ∧ fadd nan b a = a) ∧
    (isFinite a = true → isFinite b = true → isZero a = false → units a + units b = 0 →
      fadd nan a b = 0x00000000#32) ∧
    (signBit (fneg a) = !signBit a ∧ magBits (fneg a) = magBits a) ∧
    fsub nan a b = fadd nan a (fneg b)

/-- R14, R15: `fmul` of two finite numbers with a nonzero product is the exact product rounded once. (The sign of a
product that rounds to zero is log entry 12, the model's reading.) -/
def Obligations.FmulCorrectlyRounded : Prop :=
  ∀ (nan a b : Word) (va vb : ℝ), HasValue a va → HasValue b vb → va * vb ≠ 0 → IsRound32 (va * vb) (fmul nan a b)

/-- R14, R15: `fadd` of two finite numbers with a nonzero sum is the exact sum rounded once. -/
def Obligations.FaddCorrectlyRounded : Prop :=
  ∀ (nan a b : Word) (va vb : ℝ), HasValue a va → HasValue b vb → va + vb ≠ 0 → IsRound32 (va + vb) (fadd nan a b)

/-! ## Reset, port, design and controller -/

/-- R43, R230: what hardware reset leaves, from any state. (That the words not yet consumed, the parameters and the draws
stay is the model's choice, log entry 8.) -/
def Obligations.HardwareResetValues : Prop :=
  ∀ s : State, let t := s.hardwareReset
    (∀ k, (t.slot k).b0 = 0x3F800000#32 ∧ (t.slot k).b1 = 0#32 ∧ (t.slot k).b2 = 0#32 ∧ (t.slot k).a1 = 0#32 ∧
      (t.slot k).a2 = 0#32 ∧ (t.slot k).s1 = 0#32 ∧ (t.slot k).s2 = 0#32 ∧ (t.slot k).byp = true) ∧
    t.cbyp = false ∧ t.status.errcode = 0#8 ∧ t.status.ovf = false ∧ t.pend = none ∧ t.pc = 0 ∧ t.out = []

/-- R75: the response stream stays in command order with at most one word waiting: the words the controller has accepted,
then the waiting one, are the words the unit has emitted. Every event keeps this; at an edge, while a word waits or `rst_n`
is 0 the unit takes no command word. (That a low `rst_n` may act at an edge or between two is log entry 20, and that reset
keeps the words not consumed and the parameters log entry 8: the model's choices.) -/
def Obligations.PortKeepsResponseOrder : Prop :=
  ∀ p : Port, p.unit.out = p.taken ++ p.waiting.toList →
    (∀ e : PortEvent, (p.event e).unit.out = (p.event e).taken ++ (p.event e).waiting.toList) ∧
    (∀ (stall : Bool) (i : PortIn),
      (i.rstN = true → p.waiting.isSome = true → (p.event (.edge stall i)).unit = p.unit) ∧
      (i.rstN = false → p.rspValid i = false ∧ p.cmdReady i stall = false ∧
        (p.event (.edge stall i)).unit = p.unit.hardwareReset)) ∧
    (p.event .resetBetweenEdges).unit = p.unit.hardwareReset

/-- R11, R67: units share no state: words to one unit leave the others as they are, and the streams of two units may be
given in either order. -/
def Obligations.UnitsAreIndependent : Prop :=
  ∀ (u v : UnitId) (ws vs : List Word) (d d₁ d₂ : Design), u ≠ v → d.feed u ws = .next d₁ → d₁.feed v vs = .next d₂ →
    (∀ w, w ≠ u → d₁.get w = d.get w) ∧ ∃ d₃, d.feed v vs = .next d₃ ∧ d₃.feed u ws = .next d₂

/-- R174, R235: the commands of any sequence of blocks, with loads left out (R175) and status reads (R182) anywhere, keep
the block discipline. -/
def Obligations.BlockCommandsKeepDiscipline : Prop :=
  ∀ blocks : List BlockPlan, blockDisciplined false (blocks.flatMap blockCommands) = true

/-- R182, R232: a controller that keeps its order of duties, sample rates above 40000 Hz, settings in range and a design
that gives n stable sets in these ranges is never refused, whatever liberties it takes, and its commands keep the block
discipline; one that breaks the order is refused. (The order's reading of a `prepare` between a configuration and its
samples is log entry 18.) -/
def Obligations.DutifulControllerIsAccepted : Prop :=
  ∀ (design : CutKind → ℝ → ℝ → Nat → List CoefSet) (kind : CutKind) (policy : ClearPolicy) (ms : List (Move ℝ)),
    (dutiful .unprepared (ms.map Move.op) = true →
      (∀ m ∈ ms, ∀ fs, m.op = .prepare fs → 40000 < fs ∧ ∀ (k : CutKind) (f : ℝ) (n : Nat), 20 ≤ f → f ≤ 20000 →
        1 ≤ n → n ≤ 4 → (design k f fs n).length = n ∧ (design k f fs n).all CoefSet.stable = true) →
      (∀ m ∈ ms, ∀ st, m.op = .updateFromSettings st → st.inRange = true) →
      ∃ is, (Driver.initial policy).performAll design kind ms = some is ∧ blockDisciplined false is = true) ∧
    (dutiful .unprepared (ms.map Move.op) = false → (Driver.initial policy).performAll design kind ms = none)

/-- R175: leaving out any of the loads whose five words the slot already holds leaves the unit in the same state (but for
the `pc`, which counts words). -/
def Obligations.SkippedLoadsChangeNothing : Prop :=
  ∀ (s : State) (sets held : List CoefSet) (skips : List Bool), sets.length ≤ 4 →
    (∀ (k : Slot) (c : CoefSet), held[k.val]? = some c →
      (s.slot k).b0 = c.b0 ∧ (s.slot k).b1 = c.b1 ∧ (s.slot k).b2 = c.b2 ∧ (s.slot k).a1 = c.a1 ∧
        (s.slot k).a2 = c.a2) →
    ∃ t u, execAll (loadCommands 0 sets) s = .next t ∧ execAll (loadCommandsSkipping skips 0 sets held) s = .next u ∧
      { u with pc := t.pc } = t

/-- R179, R233: the configuration commands of a block in any order leave the same state. -/
def Obligations.ConfigurationOrderIrrelevant : Prop :=
  ∀ (c : Slot) (sets : List CoefSet) (b : Bool) (l : List Instr) (s : State), sets.length ≤ 4 →
    l.Perm (.slope c :: loadCommands 0 sets ++ [.cbyp b]) →
    execAll l s = execAll (.slope c :: loadCommands 0 sets ++ [.cbyp b]) s

/-- R95, R174: `cutcfg` with a legal slope, a flag and exactly slope/12 sets assembles to the canonical configuration
sequence (no clearing, no load left out); with any other operands the assembler refuses it. -/
def Obligations.CutcfgIsCanonicalConfiguration : Prop :=
  ∀ (db f : Nat) (sets : List SetLit) (v : UnitView),
    if (db = 12 ∨ db = 24 ∨ db = 36 ∨ db = 48) ∧ f < 2 ∧ sets.length = db / 12 then
      Asm.assemble (.cutcfg db f sets) = some (configCommands .never v (sets.map SetLit.words) (decide (f = 1)) [])
    else Asm.assemble (.cutcfg db f sets) = none

/-- R189: at a fixed frequency in the stopband (above the cutoff and below FS/2 for a low-pass, below the cutoff for a
high-pass) more stages never attenuate less. Stated of the design before its rounding (R184, R185); rounded words can miss
it near the cutoff, so the reading of R189 that leaves the rounding of R186 out is log entry 19. -/
def Obligations.SteepnessIsMonotonicInStopband : Prop :=
  ∀ (kind : CutKind) (f fs test : ℝ) (m n : Nat) (cs ds : List ExactSet), m ≤ n →
    IsExactDesign kind f fs m cs → IsExactDesign kind f fs n ds → InStopband kind f fs test →
    ∃ g h : ℝ, IsGainDb cs test fs g ∧ IsGainDb ds test fs h ∧ h ≤ g
end

