-- ==== Sys2Proof/Machine/Chain.lean ====
section
/-! DEFINITION. The chain controller of the whole design: one settings snapshot for all four units (R68, R172, R174), the
sample path of a block through both channels (R178), and hardware reset of all units together (R215). What it does towards
one unit is `Driver` (Machine/Controller.lean). -/

namespace Sys2Proof.Machine

open Sys2Proof

/-- The design with its controller: the four units and what the controller holds towards each. -/
structure Chain (K : Type) where
  units   : Design
  drivers : PerUnit (Driver K)
  deriving DecidableEq, Repr

/-- The liberties the controller takes towards one unit in one move (R182). -/
structure Liberty where
  skips : List Bool
  reads : List Nat
  deriving DecidableEq, Repr

/-- No liberty. -/
def Liberty.none : Liberty := { skips := [], reads := [] }

/-- A host operation towards one unit, with the liberties taken there. -/
def Liberty.move {K : Type} (l : Liberty) (op : HostOp K) : Move K := { op := op, skips := l.skips, reads := l.reads }

/-- What happens to the design: the host operations of R181, and hardware reset, which R230 lets the platform choose at
any time. R230 and R181 do not speak of a host operation then under way: at this level a reset stands between two host
operations, never inside a configuration or a block's samples (log entry 22, DESIGN CHOICE, unsafe); a unit by
itself and its port are reset anywhere (`State.hardwareReset`, `PortEvent`).
`updateFromSettings` holds the ONE snapshot of the block (R68); a sample of a block is a pair, left and right (R170). -/
inductive ChainMove (K : Type) where
  | prepare (sampleRate : K) (liberties : PerUnit Liberty)
  | updateFromSettings (s : Settings K) (liberties : PerUnit Liberty)
  | process (samples : List (Word × Word)) (liberties : PerUnit Liberty)
  | reset (liberties : PerUnit Liberty)
  | hardwareReset
  deriving DecidableEq, Repr

variable {K : Type} [Field K] [LinearOrder K]

/-- The design and its controller at power-up (R182, R215). -/
def Chain.initial (policy : ClearPolicy := ClearPolicy.default) : Chain K :=
  { units := Design.reset,
    drivers := { lcLeft := Driver.initial policy, lcRight := Driver.initial policy,
                 hcLeft := Driver.initial policy, hcRight := Driver.initial policy } }

/-- A list of commands given to a unit: the responses of its CPROCs, in order, which the controller takes (R174), and the
unit afterwards. -/
def takeResponses : List Instr → State → Host.Outcome (List Word × State) Fault Refusal
  | [], s => .next ([], s)
  | i :: is, s =>
    match feed (encode i) s with
    | .next t =>
      match takeResponses is t with
      | .next (ys, u) => .next ((if i.op = .cproc then t.out.drop s.out.length else []) ++ ys, u)
      | .fault f => .fault f
      | .refused r => .refused r
    | .fault f => .fault f
    | .refused r => .refused r

/-- One move of the controller towards one unit: the sample responses, and the design afterwards. `none` where the
controller has no such move (R182). -/
def Chain.unitMove (design : DesignFunction K) (c : Chain K) (u : UnitId) (m : Move K) :
    Option (List Word × Chain K) :=
  match (c.drivers.get u).perform design u.kind m with
  | none => none
  | some (d, is) =>
    match takeResponses is (c.units.get u) with
    | .next (ys, s) => some (ys, { units := c.units.set u s, drivers := c.drivers.set u d })
    | .fault _ => none
    | .refused _ => none

/-- The same host operation towards each unit of a list: every one of them gets the same sample rate or the same snapshot
(R68, R172). The order of the units does not matter (R67; log entry 22). -/
def Chain.each (design : DesignFunction K) (op : HostOp K) (l : PerUnit Liberty) :
    List UnitId → Chain K → Option (Chain K)
  | [], c => some c
  | u :: us, c =>
    match c.unitMove design u ((l.get u).move op) with
    | none => none
    | some (_, c') => Chain.each design op l us c'

/-- The four units. -/
def UnitId.all : List UnitId := [.lcLeft, .lcRight, .hcLeft, .hcRight]

/-- A block's samples along one channel (R178): the whole block through the low-cut unit, its responses the payloads of the
high-cut unit. -/
def Chain.channelBlock (design : DesignFunction K) (ch : Channel) (xs : List Word)
    (l : PerUnit Liberty) (c : Chain K) : Option (List Word × Chain K) :=
  match c.unitMove design ch.lc ((l.get ch.lc).move (.process xs)) with
  | none => none
  | some (ys, c') => c'.unitMove design ch.hc ((l.get ch.hc).move (.process ys))

/-- One move of the design: the processed samples, left and right, of a `process` (none otherwise), and the design
afterwards. A hardware reset comes between two host operations only, never inside one (log entry 22, DESIGN CHOICE,
unsafe); after it the controller starts again from power-up, its clearing policy kept (R182). -/
def Chain.perform (design : DesignFunction K) (c : Chain K) (m : ChainMove K) :
    Option (List (Word × Word) × Chain K) :=
  match m with
  | .prepare fs l => (c.each design (.prepare fs) l UnitId.all).map fun c' => ([], c')
  | .updateFromSettings s l => (c.each design (.updateFromSettings s) l UnitId.all).map fun c' => ([], c')
  | .process xs l =>
    match c.channelBlock design .left (xs.map Prod.fst) l with
    | none => none
    | some (ls, c') => (c'.channelBlock design .right (xs.map Prod.snd) l).map fun r => (ls.zip r.1, r.2)
  | .reset l => (c.each design .reset l UnitId.all).map fun c' => ([], c')
  | .hardwareReset =>
    some ([], { units := c.units.hardwareReset, drivers := c.drivers.map fun d => Driver.initial d.policy })

/-- A list of moves of the design: the processed samples of all its blocks, in order, and the design afterwards. -/
def Chain.performAll (design : DesignFunction K) :
    Chain K → List (ChainMove K) → Option (List (Word × Word) × Chain K)
  | c, [] => some ([], c)
  | c, m :: ms =>
    match c.perform design m with
    | none => none
    | some (ys, c') => (Chain.performAll design c' ms).map fun r => (ys ++ r.1, r.2)

/-- `Chain.perform` with `DESIGN` at its default (R10). -/
noncomputable def Chain.performDefault (c : Chain ℝ) (m : ChainMove ℝ) : Option (List (Word × Word) × Chain ℝ) :=
  c.perform DesignFunction.default m

/-- A list of moves of the design from power-up with `DESIGN` and `CLEAR_ON_RECONFIG` at their defaults (R10). -/
noncomputable def Chain.performAllDefault (ms : List (ChainMove ℝ)) : Option (List (Word × Word) × Chain ℝ) :=
  Chain.performAll DesignFunction.default Chain.initial ms

end Sys2Proof.Machine
end

