-- ==== Sys2Proof/Laws/Chain.lean ====
section
/-! SUPPORT. The things of the four units, hardware reset of the design (R215), and what a move of the whole design does
to each unit: all get the one snapshot (R68). -/

namespace Sys2Proof.Machine

open Sys2Proof

@[simp] theorem PerUnit.get_set_same {α : Type} (p : PerUnit α) (u : UnitId) (x : α) : (p.set u x).get u = x := by
  cases u <;> rfl

theorem PerUnit.get_set_of_ne {α : Type} (p : PerUnit α) {u v : UnitId} (x : α) (h : v ≠ u) :
    (p.set u x).get v = p.get v := by
  cases u <;> cases v <;> first | rfl | exact absurd rfl h

@[simp] theorem PerUnit.get_map {α β : Type} (f : α → β) (p : PerUnit α) (u : UnitId) :
    (p.map f).get u = f (p.get u) := by
  cases u <;> rfl

/-- Hardware reset of the design takes every unit into its own hardware reset (R215, R230). -/
@[simp] theorem Design.hardwareReset_get (d : Design) (u : UnitId) :
    d.hardwareReset.get u = (d.get u).hardwareReset := by
  simp [Design.hardwareReset]

theorem UnitId.mem_all (u : UnitId) : u ∈ UnitId.all := by cases u <;> decide

variable {K : Type} [Field K] [LinearOrder K]

/-- A move towards one unit is that unit's driver's move, its commands given to that unit; the other units and what the
controller holds of them stay. -/
theorem Chain.unitMove_cases {design : DesignFunction K} {c c' : Chain K} {u : UnitId} {m : Move K}
    {ys : List Word} (h : c.unitMove design u m = some (ys, c')) :
    (∃ is, (c.drivers.get u).perform design u.kind m = some (c'.drivers.get u, is) ∧
      takeResponses is (c.units.get u) = .next (ys, c'.units.get u)) ∧
    ∀ v, v ≠ u → c'.drivers.get v = c.drivers.get v ∧ c'.units.get v = c.units.get v := by
  unfold Chain.unitMove at h
  split at h
  · cases h
  · rename_i d is hd
    split at h
    · rename_i zs s hs
      cases h
      exact ⟨⟨is, by simpa using hd, by simpa using hs⟩,
        fun v hv => ⟨PerUnit.get_set_of_ne _ _ hv, PerUnit.get_set_of_ne _ _ hv⟩⟩
    · cases h
    · cases h

/-- One host operation for the units of a list reaches each of them as the same operation (R68). -/
theorem Chain.each_cases {design : DesignFunction K} {op : HostOp K} {l : PerUnit Liberty}
    {us : List UnitId} (hn : us.Nodup) {c c' : Chain K} (h : c.each design op l us = some c') :
    (∀ u ∈ us, ∃ is ys, (c.drivers.get u).perform design u.kind ((l.get u).move op) = some (c'.drivers.get u, is) ∧
      takeResponses is (c.units.get u) = .next (ys, c'.units.get u)) ∧
    ∀ v, v ∉ us → c'.drivers.get v = c.drivers.get v ∧ c'.units.get v = c.units.get v := by
  induction us generalizing c with
  | nil => cases h; exact ⟨fun u hu => absurd hu (List.not_mem_nil), fun v _ => ⟨rfl, rfl⟩⟩
  | cons u us ih =>
    obtain ⟨hu, hn'⟩ := List.nodup_cons.1 hn
    simp only [Chain.each] at h
    split at h
    · cases h
    · rename_i ys d hm
      obtain ⟨⟨is, h1, h2⟩, h3⟩ := Chain.unitMove_cases hm
      obtain ⟨g1, g2⟩ := ih hn' h
      refine ⟨fun v hv => ?_, fun v hv => ?_⟩
      · rcases List.mem_cons.1 hv with rfl | hv
        · exact ⟨is, ys, by rw [(g2 v hu).1]; exact h1, by rw [(g2 v hu).2]; exact h2⟩
        · have hne : v ≠ u := fun e => hu (e ▸ hv)
          obtain ⟨js, zs, k1, k2⟩ := g1 v hv
          exact ⟨js, zs, by rw [← (h3 v hne).1]; exact k1, by rw [← (h3 v hne).2]; exact k2⟩
      · obtain ⟨hne, hv'⟩ := not_or.1 (fun e => hv (List.mem_cons.2 e))
        exact ⟨(g2 v hv').1.trans (h3 v hne).1, (g2 v hv').2.trans (h3 v hne).2⟩

/-- A configuration of the design configures every one of its four units from the one snapshot (R68, R172, R174). -/
theorem Chain.update_cases {design : DesignFunction K} {s : Settings K} {l : PerUnit Liberty}
    {c c' : Chain K} {ys : List (Word × Word)} (h : c.perform design (.updateFromSettings s l) = some (ys, c'))
    (u : UnitId) :
    ∃ is zs, (c.drivers.get u).perform design u.kind ((l.get u).move (.updateFromSettings s))
        = some (c'.drivers.get u, is) ∧
      takeResponses is (c.units.get u) = .next (zs, c'.units.get u) := by
  simp only [Chain.perform, Option.map_eq_some_iff] at h
  obtain ⟨d, hd, he⟩ := h
  cases he
  exact (Chain.each_cases (by decide) hd).1 u (UnitId.mem_all u)

end Sys2Proof.Machine
end

