-- ==== Sys2Proof/Laws/Controller.lean ====
section
/-! SUPPORT. What the controller's shared operations can do: loads left out (R175), status reads put in (R182), and a
move (R182). -/

namespace Sys2Proof.Machine

open Sys2Proof

/-- With no load to leave out every set is loaded (R174). -/
@[simp] theorem loadCommandsSkipping_no_skips (i : Nat) (sets held : List CoefSet) :
    loadCommandsSkipping [] i sets held = loadCommands i sets := by
  induction sets generalizing i held with
  | nil => rfl
  | cons c cs ih => simp [loadCommandsSkipping, loadCommands, ih]

/-- Leaving loads out gives a sublist of the full loads (R175). -/
theorem loadCommandsSkipping_sublist (skips : List Bool) (i : Nat) (sets held : List CoefSet) :
    (loadCommandsSkipping skips i sets held).Sublist (loadCommands i sets) := by
  induction sets generalizing skips i held with
  | nil => exact List.Sublist.refl _
  | cons c cs ih =>
    simp only [loadCommandsSkipping, loadCommands]
    split
    · exact (ih _ _ _).cons _
    · exact (ih _ _ _).cons_cons _

@[simp] theorem insertReads_nil (is : List Instr) : insertReads [] is = is := by cases is <;> rfl

theorem blockDisciplined_replicate_rdst (b : Bool) (n : Nat) (is : List Instr) :
    blockDisciplined b (List.replicate n .rdst ++ is) = blockDisciplined b is := by
  induction n with
  | zero => rfl
  | succ n ih => simpa [List.replicate_succ, blockDisciplined] using ih

/-- Status reads neither break nor mend the block discipline (R182, R235), whatever follows. -/
theorem blockDisciplined_insertReads (reads : List Nat) (b : Bool) (is js : List Instr) :
    blockDisciplined b (insertReads reads is ++ js) = blockDisciplined b (is ++ js) := by
  induction reads generalizing b is with
  | nil => simp
  | cons n ns ih =>
    cases is with
    | nil =>
      simp only [insertReads, List.append_assoc, blockDisciplined_replicate_rdst]
      exact ih b []
    | cons i is =>
      simp only [insertReads, List.append_assoc, blockDisciplined_replicate_rdst, List.cons_append]
      cases i <;> simp only [blockDisciplined, ih]

variable {K : Type} [Field K] [LinearOrder K]

/-- A move that is performed kept its duty and was carried out; its commands are those of the operation with the status
reads put in. -/
theorem Driver.perform_cases {design : DesignFunction K} {kind : CutKind} {d d' : Driver K}
    {m : Move K} {is : List Instr} (h : d.perform design kind m = some (d', is)) :
    ∃ phase e js, d.phase.next m.op = some phase ∧ d.carryOut design kind m = some (e, js) ∧
      d' = { e with phase := phase } ∧ is = insertReads m.reads js := by
  unfold Driver.perform at h
  split at h
  · cases h
  · rename_i phase hp
    split at h
    · cases h
    · rename_i e js hc
      cases h
      exact ⟨phase, e, js, hp, hc, rfl, rfl⟩

end Sys2Proof.Machine
end

