-- ==== Sys2Proof/Laws/State.lean ====
section
/-! SUPPORT. One lemma per field per update of the state, and the slots of a bank, so that no proof unfolds an update. -/

namespace Sys2Proof.Machine

open Sys2Proof

/-! ### setSlot -/

@[simp] theorem State.setSlot_st (s : State) (k : Slot) (g : Stage) : (s.setSlot k g).st = s.st.set k g := rfl
@[simp] theorem State.setSlot_cbyp (s : State) (k : Slot) (g : Stage) : (s.setSlot k g).cbyp = s.cbyp := rfl
@[simp] theorem State.setSlot_status (s : State) (k : Slot) (g : Stage) : (s.setSlot k g).status = s.status := rfl
@[simp] theorem State.setSlot_pend (s : State) (k : Slot) (g : Stage) : (s.setSlot k g).pend = s.pend := rfl
@[simp] theorem State.setSlot_pc (s : State) (k : Slot) (g : Stage) : (s.setSlot k g).pc = s.pc := rfl
@[simp] theorem State.setSlot_out (s : State) (k : Slot) (g : Stage) : (s.setSlot k g).out = s.out := rfl
@[simp] theorem State.setSlot_faultRec (s : State) (k : Slot) (g : Stage) : (s.setSlot k g).faultRec = s.faultRec := rfl
@[simp] theorem State.setSlot_stream (s : State) (k : Slot) (g : Stage) : (s.setSlot k g).stream = s.stream := rfl
@[simp] theorem State.setSlot_params (s : State) (k : Slot) (g : Stage) : (s.setSlot k g).params = s.params := rfl
@[simp] theorem State.setSlot_draws (s : State) (k : Slot) (g : Stage) : (s.setSlot k g).draws = s.draws := rfl
@[simp] theorem State.setSlot_source (s : State) (k : Slot) (g : Stage) : (s.setSlot k g).source = s.source := rfl

/-! ### mapSlots -/

@[simp] theorem State.mapSlots_st (s : State) (f : Slot → Stage → Stage) : (s.mapSlots f).st = s.st.mapSlots f := rfl
@[simp] theorem State.mapSlots_cbyp (s : State) (f : Slot → Stage → Stage) : (s.mapSlots f).cbyp = s.cbyp := rfl
@[simp] theorem State.mapSlots_status (s : State) (f : Slot → Stage → Stage) : (s.mapSlots f).status = s.status := rfl
@[simp] theorem State.mapSlots_pend (s : State) (f : Slot → Stage → Stage) : (s.mapSlots f).pend = s.pend := rfl
@[simp] theorem State.mapSlots_pc (s : State) (f : Slot → Stage → Stage) : (s.mapSlots f).pc = s.pc := rfl
@[simp] theorem State.mapSlots_out (s : State) (f : Slot → Stage → Stage) : (s.mapSlots f).out = s.out := rfl
@[simp] theorem State.mapSlots_faultRec (s : State) (f : Slot → Stage → Stage) : (s.mapSlots f).faultRec = s.faultRec := rfl
@[simp] theorem State.mapSlots_stream (s : State) (f : Slot → Stage → Stage) : (s.mapSlots f).stream = s.stream := rfl
@[simp] theorem State.mapSlots_params (s : State) (f : Slot → Stage → Stage) : (s.mapSlots f).params = s.params := rfl
@[simp] theorem State.mapSlots_draws (s : State) (f : Slot → Stage → Stage) : (s.mapSlots f).draws = s.draws := rfl
@[simp] theorem State.mapSlots_source (s : State) (f : Slot → Stage → Stage) : (s.mapSlots f).source = s.source := rfl

/-! ### setCbyp -/

@[simp] theorem State.setCbyp_st (s : State) (f : Bool) : (s.setCbyp f).st = s.st := rfl
@[simp] theorem State.setCbyp_cbyp (s : State) (f : Bool) : (s.setCbyp f).cbyp = f := rfl
@[simp] theorem State.setCbyp_status (s : State) (f : Bool) : (s.setCbyp f).status = s.status := rfl
@[simp] theorem State.setCbyp_pend (s : State) (f : Bool) : (s.setCbyp f).pend = s.pend := rfl
@[simp] theorem State.setCbyp_pc (s : State) (f : Bool) : (s.setCbyp f).pc = s.pc := rfl
@[simp] theorem State.setCbyp_out (s : State) (f : Bool) : (s.setCbyp f).out = s.out := rfl
@[simp] theorem State.setCbyp_faultRec (s : State) (f : Bool) : (s.setCbyp f).faultRec = s.faultRec := rfl
@[simp] theorem State.setCbyp_stream (s : State) (f : Bool) : (s.setCbyp f).stream = s.stream := rfl
@[simp] theorem State.setCbyp_params (s : State) (f : Bool) : (s.setCbyp f).params = s.params := rfl
@[simp] theorem State.setCbyp_draws (s : State) (f : Bool) : (s.setCbyp f).draws = s.draws := rfl
@[simp] theorem State.setCbyp_source (s : State) (f : Bool) : (s.setCbyp f).source = s.source := rfl

/-! ### emit -/

@[simp] theorem State.emit_st (s : State) (w : Word) : (s.emit w).st = s.st := rfl
@[simp] theorem State.emit_cbyp (s : State) (w : Word) : (s.emit w).cbyp = s.cbyp := rfl
@[simp] theorem State.emit_status (s : State) (w : Word) : (s.emit w).status = s.status := rfl
@[simp] theorem State.emit_pend (s : State) (w : Word) : (s.emit w).pend = s.pend := rfl
@[simp] theorem State.emit_pc (s : State) (w : Word) : (s.emit w).pc = s.pc := rfl
@[simp] theorem State.emit_out (s : State) (w : Word) : (s.emit w).out = s.out ++ [w] := rfl
@[simp] theorem State.emit_faultRec (s : State) (w : Word) : (s.emit w).faultRec = s.faultRec := rfl
@[simp] theorem State.emit_stream (s : State) (w : Word) : (s.emit w).stream = s.stream := rfl
@[simp] theorem State.emit_params (s : State) (w : Word) : (s.emit w).params = s.params := rfl
@[simp] theorem State.emit_draws (s : State) (w : Word) : (s.emit w).draws = s.draws := rfl
@[simp] theorem State.emit_source (s : State) (w : Word) : (s.emit w).source = s.source := rfl

/-! ### advance -/

@[simp] theorem State.advance_st (s : State) (n : Nat) : (s.advance n).st = s.st := rfl
@[simp] theorem State.advance_cbyp (s : State) (n : Nat) : (s.advance n).cbyp = s.cbyp := rfl
@[simp] theorem State.advance_status (s : State) (n : Nat) : (s.advance n).status = s.status := rfl
@[simp] theorem State.advance_pend (s : State) (n : Nat) : (s.advance n).pend = s.pend := rfl
@[simp] theorem State.advance_pc (s : State) (n : Nat) : (s.advance n).pc = s.pc + n := rfl
@[simp] theorem State.advance_out (s : State) (n : Nat) : (s.advance n).out = s.out := rfl
@[simp] theorem State.advance_faultRec (s : State) (n : Nat) : (s.advance n).faultRec = s.faultRec := rfl
@[simp] theorem State.advance_stream (s : State) (n : Nat) : (s.advance n).stream = s.stream := rfl
@[simp] theorem State.advance_params (s : State) (n : Nat) : (s.advance n).params = s.params := rfl
@[simp] theorem State.advance_draws (s : State) (n : Nat) : (s.advance n).draws = s.draws := rfl
@[simp] theorem State.advance_source (s : State) (n : Nat) : (s.advance n).source = s.source := rfl

/-! ### spend -/

@[simp] theorem State.spend_st (s : State) (n : Nat) : (s.spend n).st = s.st := rfl
@[simp] theorem State.spend_cbyp (s : State) (n : Nat) : (s.spend n).cbyp = s.cbyp := rfl
@[simp] theorem State.spend_status (s : State) (n : Nat) : (s.spend n).status = s.status := rfl
@[simp] theorem State.spend_pend (s : State) (n : Nat) : (s.spend n).pend = s.pend := rfl
@[simp] theorem State.spend_pc (s : State) (n : Nat) : (s.spend n).pc = s.pc := rfl
@[simp] theorem State.spend_out (s : State) (n : Nat) : (s.spend n).out = s.out := rfl
@[simp] theorem State.spend_faultRec (s : State) (n : Nat) : (s.spend n).faultRec = s.faultRec := rfl
@[simp] theorem State.spend_stream (s : State) (n : Nat) : (s.spend n).stream = s.stream := rfl
@[simp] theorem State.spend_params (s : State) (n : Nat) : (s.spend n).params = s.params := rfl
@[simp] theorem State.spend_draws (s : State) (n : Nat) : (s.spend n).draws = s.draws + n := rfl
@[simp] theorem State.spend_source (s : State) (n : Nat) : (s.spend n).source = s.source := rfl

/-! ### accepted -/

@[simp] theorem State.accepted_st (s : State) (p : Option Pending) (r : List Word) : (s.accepted p r).st = s.st := rfl
@[simp] theorem State.accepted_cbyp (s : State) (p : Option Pending) (r : List Word) : (s.accepted p r).cbyp = s.cbyp := rfl
@[simp] theorem State.accepted_status (s : State) (p : Option Pending) (r : List Word) : (s.accepted p r).status = s.status := rfl
@[simp] theorem State.accepted_pend (s : State) (p : Option Pending) (r : List Word) : (s.accepted p r).pend = p := rfl
@[simp] theorem State.accepted_pc (s : State) (p : Option Pending) (r : List Word) : (s.accepted p r).pc = s.pc := rfl
@[simp] theorem State.accepted_out (s : State) (p : Option Pending) (r : List Word) : (s.accepted p r).out = s.out := rfl
@[simp] theorem State.accepted_faultRec (s : State) (p : Option Pending) (r : List Word) : (s.accepted p r).faultRec = s.faultRec := rfl
@[simp] theorem State.accepted_stream (s : State) (p : Option Pending) (r : List Word) : (s.accepted p r).stream = r := rfl
@[simp] theorem State.accepted_params (s : State) (p : Option Pending) (r : List Word) : (s.accepted p r).params = s.params := rfl
@[simp] theorem State.accepted_draws (s : State) (p : Option Pending) (r : List Word) : (s.accepted p r).draws = s.draws := rfl
@[simp] theorem State.accepted_source (s : State) (p : Option Pending) (r : List Word) : (s.accepted p r).source = s.source := rfl

/-! ### recordError -/

@[simp] theorem State.recordError_st (s : State) (e : CommandError) (w : Word) : (s.recordError e w).st = s.st := rfl
@[simp] theorem State.recordError_cbyp (s : State) (e : CommandError) (w : Word) : (s.recordError e w).cbyp = s.cbyp := rfl
@[simp] theorem State.recordError_status (s : State) (e : CommandError) (w : Word) : (s.recordError e w).status = s.status.record e := rfl
@[simp] theorem State.recordError_pend (s : State) (e : CommandError) (w : Word) : (s.recordError e w).pend = s.pend := rfl
@[simp] theorem State.recordError_pc (s : State) (e : CommandError) (w : Word) : (s.recordError e w).pc = s.pc + 1 := rfl
@[simp] theorem State.recordError_out (s : State) (e : CommandError) (w : Word) : (s.recordError e w).out = s.out := rfl
@[simp] theorem State.recordError_faultRec (s : State) (e : CommandError) (w : Word) : (s.recordError e w).faultRec = keepFirst s.faultRec (faultOf e w s.pc) := rfl
@[simp] theorem State.recordError_stream (s : State) (e : CommandError) (w : Word) : (s.recordError e w).stream = s.stream := rfl
@[simp] theorem State.recordError_params (s : State) (e : CommandError) (w : Word) : (s.recordError e w).params = s.params := rfl
@[simp] theorem State.recordError_draws (s : State) (e : CommandError) (w : Word) : (s.recordError e w).draws = s.draws := rfl
@[simp] theorem State.recordError_source (s : State) (e : CommandError) (w : Word) : (s.recordError e w).source = s.source := rfl

/-! ### offer -/

@[simp] theorem State.offer_st (s : State) (ws : List Word) : (s.offer ws).st = s.st := rfl
@[simp] theorem State.offer_cbyp (s : State) (ws : List Word) : (s.offer ws).cbyp = s.cbyp := rfl
@[simp] theorem State.offer_status (s : State) (ws : List Word) : (s.offer ws).status = s.status := rfl
@[simp] theorem State.offer_pend (s : State) (ws : List Word) : (s.offer ws).pend = s.pend := rfl
@[simp] theorem State.offer_pc (s : State) (ws : List Word) : (s.offer ws).pc = s.pc := rfl
@[simp] theorem State.offer_out (s : State) (ws : List Word) : (s.offer ws).out = s.out := rfl
@[simp] theorem State.offer_faultRec (s : State) (ws : List Word) : (s.offer ws).faultRec = s.faultRec := rfl
@[simp] theorem State.offer_stream (s : State) (ws : List Word) : (s.offer ws).stream = s.stream ++ ws := rfl
@[simp] theorem State.offer_params (s : State) (ws : List Word) : (s.offer ws).params = s.params := rfl
@[simp] theorem State.offer_draws (s : State) (ws : List Word) : (s.offer ws).draws = s.draws := rfl
@[simp] theorem State.offer_source (s : State) (ws : List Word) : (s.offer ws).source = s.source := rfl

/-! ### hardwareReset -/

@[simp] theorem State.hardwareReset_st (s : State) : s.hardwareReset.st = State.reset.st := rfl
@[simp] theorem State.hardwareReset_cbyp (s : State) : s.hardwareReset.cbyp = State.reset.cbyp := rfl
@[simp] theorem State.hardwareReset_status (s : State) : s.hardwareReset.status = State.reset.status := rfl
@[simp] theorem State.hardwareReset_pend (s : State) : s.hardwareReset.pend = State.reset.pend := rfl
@[simp] theorem State.hardwareReset_pc (s : State) : s.hardwareReset.pc = State.reset.pc := rfl
@[simp] theorem State.hardwareReset_out (s : State) : s.hardwareReset.out = State.reset.out := rfl
@[simp] theorem State.hardwareReset_faultRec (s : State) : s.hardwareReset.faultRec = State.reset.faultRec := rfl
@[simp] theorem State.hardwareReset_stream (s : State) : s.hardwareReset.stream = s.stream := rfl
@[simp] theorem State.hardwareReset_params (s : State) : s.hardwareReset.params = s.params := rfl
@[simp] theorem State.hardwareReset_draws (s : State) : s.hardwareReset.draws = s.draws := rfl
@[simp] theorem State.hardwareReset_source (s : State) : s.hardwareReset.source = s.source := rfl

/-! ### Slots of a bank -/

@[simp] theorem Bank.get_set_same (b : Bank) (k : Slot) (g : Stage) : (b.set k g).get k = g := by
  fin_cases k <;> rfl

theorem Bank.get_set_of_ne (b : Bank) {j k : Slot} (g : Stage) (h : j ≠ k) : (b.set k g).get j = b.get j := by
  fin_cases k <;> fin_cases j <;> first | rfl | exact absurd rfl h

theorem Bank.get_set (b : Bank) (j k : Slot) (g : Stage) :
    (b.set k g).get j = if j = k then g else b.get j := by
  by_cases h : j = k
  · subst h; simp
  · simp [h, Bank.get_set_of_ne b g h]

@[simp] theorem Bank.get_mapSlots (b : Bank) (f : Slot → Stage → Stage) (k : Slot) :
    (b.mapSlots f).get k = f k (b.get k) := by
  fin_cases k <;> rfl

/-- Two banks with the same four slots are the same bank. -/
theorem Bank.ext_get {b c : Bank} (h : ∀ k, b.get k = c.get k) : b = c := by
  have h0 := h 0; have h1 := h 1; have h2 := h 2; have h3 := h 3
  cases b; cases c
  simp only [Bank.get] at h0 h1 h2 h3
  simp [h0, h1, h2, h3]

@[simp] theorem Bank.set_get_self (b : Bank) (k : Slot) : b.set k (b.get k) = b :=
  Bank.ext_get fun j => by
    by_cases h : j = k
    · subst h; simp
    · simp [Bank.get_set_of_ne b _ h]

/-! ### Slots of the unit -/

@[simp] theorem State.setSlot_slot_same (s : State) (k : Slot) (g : Stage) : (s.setSlot k g).slot k = g :=
  Bank.get_set_same s.st k g

theorem State.setSlot_slot_of_ne (s : State) {j k : Slot} (g : Stage) (h : j ≠ k) : (s.setSlot k g).slot j = s.slot j :=
  Bank.get_set_of_ne s.st g h

theorem State.setSlot_slot (s : State) (j k : Slot) (g : Stage) :
    (s.setSlot k g).slot j = if j = k then g else s.slot j := Bank.get_set s.st j k g

@[simp] theorem State.mapSlots_slot (s : State) (f : Slot → Stage → Stage) (k : Slot) :
    (s.mapSlots f).slot k = f k (s.slot k) := Bank.get_mapSlots s.st f k

@[simp] theorem State.setCbyp_slot (s : State) (f : Bool) (k : Slot) : (s.setCbyp f).slot k = s.slot k := rfl
@[simp] theorem State.emit_slot (s : State) (w : Word) (k : Slot) : (s.emit w).slot k = s.slot k := rfl
@[simp] theorem State.advance_slot (s : State) (n : Nat) (k : Slot) : (s.advance n).slot k = s.slot k := rfl
@[simp] theorem State.spend_slot (s : State) (n : Nat) (k : Slot) : (s.spend n).slot k = s.slot k := rfl
@[simp] theorem State.accepted_slot (s : State) (p : Option Pending) (r : List Word) (k : Slot) : (s.accepted p r).slot k = s.slot k := rfl
@[simp] theorem State.recordError_slot (s : State) (e : CommandError) (w : Word) (k : Slot) : (s.recordError e w).slot k = s.slot k := rfl
@[simp] theorem State.offer_slot (s : State) (ws : List Word) (k : Slot) : (s.offer ws).slot k = s.slot k := rfl

/-! ### Fields of a stage -/

@[simp] theorem Stage.loadSet_b0 (g : Stage) (b0 b1 b2 a1 a2 : Word) : (g.loadSet b0 b1 b2 a1 a2).b0 = b0 := rfl
@[simp] theorem Stage.loadSet_b1 (g : Stage) (b0 b1 b2 a1 a2 : Word) : (g.loadSet b0 b1 b2 a1 a2).b1 = b1 := rfl
@[simp] theorem Stage.loadSet_b2 (g : Stage) (b0 b1 b2 a1 a2 : Word) : (g.loadSet b0 b1 b2 a1 a2).b2 = b2 := rfl
@[simp] theorem Stage.loadSet_a1 (g : Stage) (b0 b1 b2 a1 a2 : Word) : (g.loadSet b0 b1 b2 a1 a2).a1 = a1 := rfl
@[simp] theorem Stage.loadSet_a2 (g : Stage) (b0 b1 b2 a1 a2 : Word) : (g.loadSet b0 b1 b2 a1 a2).a2 = a2 := rfl
@[simp] theorem Stage.loadSet_s1 (g : Stage) (b0 b1 b2 a1 a2 : Word) : (g.loadSet b0 b1 b2 a1 a2).s1 = g.s1 := rfl
@[simp] theorem Stage.loadSet_s2 (g : Stage) (b0 b1 b2 a1 a2 : Word) : (g.loadSet b0 b1 b2 a1 a2).s2 = g.s2 := rfl
@[simp] theorem Stage.loadSet_byp (g : Stage) (b0 b1 b2 a1 a2 : Word) : (g.loadSet b0 b1 b2 a1 a2).byp = g.byp := rfl
@[simp] theorem Stage.clear_b0 (g : Stage) : g.clear.b0 = g.b0 := rfl
@[simp] theorem Stage.clear_b1 (g : Stage) : g.clear.b1 = g.b1 := rfl
@[simp] theorem Stage.clear_b2 (g : Stage) : g.clear.b2 = g.b2 := rfl
@[simp] theorem Stage.clear_a1 (g : Stage) : g.clear.a1 = g.a1 := rfl
@[simp] theorem Stage.clear_a2 (g : Stage) : g.clear.a2 = g.a2 := rfl
@[simp] theorem Stage.clear_s1 (g : Stage) : g.clear.s1 = plusZero := rfl
@[simp] theorem Stage.clear_s2 (g : Stage) : g.clear.s2 = plusZero := rfl
@[simp] theorem Stage.clear_byp (g : Stage) : g.clear.byp = g.byp := rfl
@[simp] theorem Stage.setByp_b0 (g : Stage) (f : Bool) : (g.setByp f).b0 = g.b0 := rfl
@[simp] theorem Stage.setByp_b1 (g : Stage) (f : Bool) : (g.setByp f).b1 = g.b1 := rfl
@[simp] theorem Stage.setByp_b2 (g : Stage) (f : Bool) : (g.setByp f).b2 = g.b2 := rfl
@[simp] theorem Stage.setByp_a1 (g : Stage) (f : Bool) : (g.setByp f).a1 = g.a1 := rfl
@[simp] theorem Stage.setByp_a2 (g : Stage) (f : Bool) : (g.setByp f).a2 = g.a2 := rfl
@[simp] theorem Stage.setByp_s1 (g : Stage) (f : Bool) : (g.setByp f).s1 = g.s1 := rfl
@[simp] theorem Stage.setByp_s2 (g : Stage) (f : Bool) : (g.setByp f).s2 = g.s2 := rfl
@[simp] theorem Stage.setByp_byp (g : Stage) (f : Bool) : (g.setByp f).byp = f := rfl
@[simp] theorem Stage.setState_b0 (g : Stage) (s1 s2 : Word) : (g.setState s1 s2).b0 = g.b0 := rfl
@[simp] theorem Stage.setState_b1 (g : Stage) (s1 s2 : Word) : (g.setState s1 s2).b1 = g.b1 := rfl
@[simp] theorem Stage.setState_b2 (g : Stage) (s1 s2 : Word) : (g.setState s1 s2).b2 = g.b2 := rfl
@[simp] theorem Stage.setState_a1 (g : Stage) (s1 s2 : Word) : (g.setState s1 s2).a1 = g.a1 := rfl
@[simp] theorem Stage.setState_a2 (g : Stage) (s1 s2 : Word) : (g.setState s1 s2).a2 = g.a2 := rfl
@[simp] theorem Stage.setState_s1 (g : Stage) (s1 s2 : Word) : (g.setState s1 s2).s1 = s1 := rfl
@[simp] theorem Stage.setState_s2 (g : Stage) (s1 s2 : Word) : (g.setState s1 s2).s2 = s2 := rfl
@[simp] theorem Stage.setState_byp (g : Stage) (s1 s2 : Word) : (g.setState s1 s2).byp = g.byp := rfl
@[simp] theorem Stage.snap_b0 (g : Stage) (t : Word) : (g.snap t).b0 = g.b0 := rfl
@[simp] theorem Stage.snap_b1 (g : Stage) (t : Word) : (g.snap t).b1 = g.b1 := rfl
@[simp] theorem Stage.snap_b2 (g : Stage) (t : Word) : (g.snap t).b2 = g.b2 := rfl
@[simp] theorem Stage.snap_a1 (g : Stage) (t : Word) : (g.snap t).a1 = g.a1 := rfl
@[simp] theorem Stage.snap_a2 (g : Stage) (t : Word) : (g.snap t).a2 = g.a2 := rfl
@[simp] theorem Stage.snap_s1 (g : Stage) (t : Word) : (g.snap t).s1 = snapReg t g.s1 := rfl
@[simp] theorem Stage.snap_s2 (g : Stage) (t : Word) : (g.snap t).s2 = snapReg t g.s2 := rfl
@[simp] theorem Stage.snap_byp (g : Stage) (t : Word) : (g.snap t).byp = g.byp := rfl

end Sys2Proof.Machine
end

