-- ==== Sys2Proof/Laws/Datapath.lean ====
section
/-! SUPPORT. What the stage step and the cascade step can do: they leave every field but the slots and the draws, and of
a slot every register but the state pair (R42, R110 to R112, R140). -/

namespace Sys2Proof.Machine

open Sys2Proof

@[simp] theorem stageRuns_frozen (b : Bool) : stageRuns .frozen b = !b := rfl

@[simp] theorem stageRuns_running (b : Bool) : stageRuns .running b = true := rfl

@[simp] theorem stageRuns_active (policy : BypassPolicy) : stageRuns policy false = true := by cases policy <;> rfl

/-- A stage that does not run passes its input and keeps everything (R112). -/
theorem stageStep_of_not_runs (p : Params) (nan : Nat → Word) (byp : Bool) (g : Stage) (x : Word)
    (h : stageRuns p.bypass byp = false) : stageStep p nan byp g x = (x, g) := by
  simp [stageStep, h]

/-- A stage that runs writes its state pair, and its output is the input when it is bypassed (R110 to R112). -/
theorem stageStep_of_runs (p : Params) (nan : Nat → Word) (byp : Bool) (g : Stage) (x : Word)
    (h : stageRuns p.bypass byp = true) :
    stageStep p nan byp g x = (if byp then x else (stageArith p.form nan g x).1,
      g.setState (stageArith p.form nan g x).2.1 (stageArith p.form nan g x).2.2) := by
  simp [stageStep, h]

/-- A bypassed stage passes its input under either policy (R112). -/
@[simp] theorem stageStep_fst_bypassed (p : Params) (nan : Nat → Word) (g : Stage) (x : Word) :
    (stageStep p nan true g x).1 = x := by
  unfold stageStep; split <;> simp

/-- The stage step writes nothing of a stage but its state pair. -/
theorem stageStep_snd (p : Params) (nan : Nat → Word) (byp : Bool) (g : Stage) (x : Word) :
    ∃ s1 s2, (stageStep p nan byp g x).2 = g.setState s1 s2 := by
  unfold stageStep
  split
  · exact ⟨_, _, rfl⟩
  · exact ⟨g.s1, g.s2, rfl⟩

@[simp] theorem stageStep_b0 (p : Params) (nan : Nat → Word) (byp : Bool) (g : Stage) (x : Word) :
    (stageStep p nan byp g x).2.b0 = g.b0 := by
  obtain ⟨_, _, h⟩ := stageStep_snd p nan byp g x; simp [h]

@[simp] theorem stageStep_b1 (p : Params) (nan : Nat → Word) (byp : Bool) (g : Stage) (x : Word) :
    (stageStep p nan byp g x).2.b1 = g.b1 := by
  obtain ⟨_, _, h⟩ := stageStep_snd p nan byp g x; simp [h]

@[simp] theorem stageStep_b2 (p : Params) (nan : Nat → Word) (byp : Bool) (g : Stage) (x : Word) :
    (stageStep p nan byp g x).2.b2 = g.b2 := by
  obtain ⟨_, _, h⟩ := stageStep_snd p nan byp g x; simp [h]

@[simp] theorem stageStep_a1 (p : Params) (nan : Nat → Word) (byp : Bool) (g : Stage) (x : Word) :
    (stageStep p nan byp g x).2.a1 = g.a1 := by
  obtain ⟨_, _, h⟩ := stageStep_snd p nan byp g x; simp [h]

@[simp] theorem stageStep_a2 (p : Params) (nan : Nat → Word) (byp : Bool) (g : Stage) (x : Word) :
    (stageStep p nan byp g x).2.a2 = g.a2 := by
  obtain ⟨_, _, h⟩ := stageStep_snd p nan byp g x; simp [h]

@[simp] theorem stageStep_byp (p : Params) (nan : Nat → Word) (byp : Bool) (g : Stage) (x : Word) :
    (stageStep p nan byp g x).2.byp = g.byp := by
  obtain ⟨_, _, h⟩ := stageStep_snd p nan byp g x; simp [h]

/-! ### One slot of the unit -/

theorem State.runSlot_fst (s : State) (k : Slot) (byp : Bool) (x : Word) :
    (s.runSlot k byp x).1 = (stageStep s.params (fun i => nanOut s.source (s.draws + i)) byp (s.slot k) x).1 := rfl

theorem State.runSlot_slot_same (s : State) (k : Slot) (byp : Bool) (x : Word) :
    (s.runSlot k byp x).2.slot k
      = (stageStep s.params (fun i => nanOut s.source (s.draws + i)) byp (s.slot k) x).2 := by
  simp [State.runSlot]

theorem State.runSlot_slot_of_ne (s : State) {j k : Slot} (byp : Bool) (x : Word) (h : j ≠ k) :
    (s.runSlot k byp x).2.slot j = s.slot j := by
  simp [State.runSlot, State.setSlot_slot_of_ne s _ h]

/-- A bypassed slot passes its input under either policy. -/
@[simp] theorem State.runSlot_fst_bypassed (s : State) (k : Slot) (x : Word) : (s.runSlot k true x).1 = x := by
  simp [State.runSlot_fst]

/-- A slot that does not run leaves the unit as it is. -/
theorem State.runSlot_of_not_runs (s : State) (k : Slot) (byp : Bool) (x : Word)
    (h : stageRuns s.params.bypass byp = false) : s.runSlot k byp x = (x, s) := by
  simp [State.runSlot, stageStep_of_not_runs _ _ _ _ _ h, h, State.setSlot, State.spend, State.slot]

@[simp] theorem State.runSlot_cbyp (s : State) (k : Slot) (byp : Bool) (x : Word) :
    (s.runSlot k byp x).2.cbyp = s.cbyp := rfl
@[simp] theorem State.runSlot_status (s : State) (k : Slot) (byp : Bool) (x : Word) :
    (s.runSlot k byp x).2.status = s.status := rfl
@[simp] theorem State.runSlot_pend (s : State) (k : Slot) (byp : Bool) (x : Word) :
    (s.runSlot k byp x).2.pend = s.pend := rfl
@[simp] theorem State.runSlot_pc (s : State) (k : Slot) (byp : Bool) (x : Word) :
    (s.runSlot k byp x).2.pc = s.pc := rfl
@[simp] theorem State.runSlot_out (s : State) (k : Slot) (byp : Bool) (x : Word) :
    (s.runSlot k byp x).2.out = s.out := rfl
@[simp] theorem State.runSlot_faultRec (s : State) (k : Slot) (byp : Bool) (x : Word) :
    (s.runSlot k byp x).2.faultRec = s.faultRec := rfl
@[simp] theorem State.runSlot_stream (s : State) (k : Slot) (byp : Bool) (x : Word) :
    (s.runSlot k byp x).2.stream = s.stream := rfl
@[simp] theorem State.runSlot_params (s : State) (k : Slot) (byp : Bool) (x : Word) :
    (s.runSlot k byp x).2.params = s.params := rfl
@[simp] theorem State.runSlot_source (s : State) (k : Slot) (byp : Bool) (x : Word) :
    (s.runSlot k byp x).2.source = s.source := rfl
@[simp] theorem State.runSlot_draws (s : State) (k : Slot) (byp : Bool) (x : Word) :
    (s.runSlot k byp x).2.draws = s.draws + (if stageRuns s.params.bypass byp then drawsPerStage else 0) := rfl

/-- Running a slot writes nothing of any slot but a state pair. -/
theorem State.runSlot_slot (s : State) (k j : Slot) (byp : Bool) (x : Word) :
    ∃ s1 s2, (s.runSlot k byp x).2.slot j = (s.slot j).setState s1 s2 := by
  by_cases h : j = k
  · subst h
    rw [State.runSlot_slot_same]
    exact stageStep_snd _ _ _ _ _
  · exact ⟨(s.slot j).s1, (s.slot j).s2, State.runSlot_slot_of_ne s byp x h⟩

/-! ### The cascade -/

@[simp] theorem State.runSlots_nil (s : State) (x : Word) : s.runSlots [] x = (x, s) := rfl

theorem State.runSlots_cons (s : State) (k : Slot) (ks : List Slot) (x : Word) :
    s.runSlots (k :: ks) x
      = (s.runSlot k ((s.slot k).byp || s.cbyp) x).2.runSlots ks (s.runSlot k ((s.slot k).byp || s.cbyp) x).1 := rfl

/-- Everything the cascade step over some slots leaves alone: every field but the slots and the draws, and of every slot
all but the state pair. -/
theorem State.runSlots_keeps (ks : List Slot) (s : State) (x : Word) :
    (s.runSlots ks x).2.cbyp = s.cbyp ∧ (s.runSlots ks x).2.status = s.status ∧
    (s.runSlots ks x).2.pend = s.pend ∧ (s.runSlots ks x).2.pc = s.pc ∧ (s.runSlots ks x).2.out = s.out ∧
    (s.runSlots ks x).2.faultRec = s.faultRec ∧ (s.runSlots ks x).2.stream = s.stream ∧
    (s.runSlots ks x).2.params = s.params ∧ (s.runSlots ks x).2.source = s.source ∧
    ∀ j, ∃ s1 s2, (s.runSlots ks x).2.slot j = (s.slot j).setState s1 s2 := by
  induction ks generalizing s x with
  | nil => exact ⟨rfl, rfl, rfl, rfl, rfl, rfl, rfl, rfl, rfl, fun j => ⟨_, _, rfl⟩⟩
  | cons k ks ih =>
    rw [State.runSlots_cons]
    obtain ⟨h1, h2, h3, h4, h5, h6, h7, h8, h9, h10⟩ :=
      ih (s.runSlot k ((s.slot k).byp || s.cbyp) x).2 (s.runSlot k ((s.slot k).byp || s.cbyp) x).1
    refine ⟨h1, h2, h3, h4, h5, h6, h7, h8, h9, fun j => ?_⟩
    obtain ⟨u1, u2, hu⟩ := h10 j
    obtain ⟨v1, v2, hv⟩ := State.runSlot_slot s k j ((s.slot k).byp || s.cbyp) x
    exact ⟨u1, u2, by rw [hu, hv]; rfl⟩

end Sys2Proof.Machine
end

