-- ==== Sys2Proof/Laws/Decode.lean ====
section
/-! SUPPORT. The fields of an encoded command word (R81) and the mask of the unused ones (R91). -/

namespace Sys2Proof

/-- The fields of a command word are what it was made of. -/
theorem commandWord_fields (op : Op) (stg slp : Slot) (f : Bool) :
    opField (commandWord op stg slp f) = op.code ∧ stgField (commandWord op stg slp f) = stg ∧
    slpField (commandWord op stg slp f) = slp ∧ fField (commandWord op stg slp f) = f := by
  cases op <;> revert stg slp f <;> decide

@[simp] theorem opOfCode_code (op : Op) : opOfCode op.code = some op := by cases op <;> rfl

/-- A command word has no 1 outside the used fields when the fields the operation does not use are 0. -/
theorem commandWord_unused (op : Op) (stg slp : Slot) (f : Bool) (hs : op.usesStg = true ∨ stg = 0)
    (hl : op.usesSlp = true ∨ slp = 0) (hf : op.usesF = true ∨ f = false) :
    commandWord op stg slp f &&& ~~~op.usedMask = 0#32 := by
  cases op <;> revert stg slp f <;> decide

end Sys2Proof
end

