-- ==== Sys2Proof/Laws/Float.lean ====
section
/-! SUPPORT. Patterns and special values of the arithmetic primitives (R13, R15, R16). -/

namespace Sys2Proof.Machine

open Sys2Proof

theorem packSign_toNat (sign : Bool) (mag : Nat) :
    (packSign sign mag).toNat = (if sign then 2 ^ 31 else 0) + mag % 2 ^ 31 := by
  unfold packSign
  rw [BitVec.toNat_ofNat]
  have := Nat.mod_lt mag (show 0 < 2 ^ 31 by norm_num)
  cases sign <;> simp <;> omega

@[simp] theorem magBits_packSign (sign : Bool) (mag : Nat) : magBits (packSign sign mag) = mag % 2 ^ 31 := by
  unfold magBits
  rw [packSign_toNat]
  cases sign <;> simp

@[simp] theorem signBit_packSign (sign : Bool) (mag : Nat) : signBit (packSign sign mag) = sign := by
  unfold signBit
  have h := packSign_toNat sign mag
  have hm := Nat.mod_lt mag (show 0 < 2 ^ 31 by norm_num)
  rw [← BitVec.testBit_toNat, h, Nat.testBit_eq_decide_div_mod_eq]
  cases sign <;> simp

theorem magBits_lt (w : Word) : magBits w < 2 ^ 31 := Nat.mod_lt _ (by norm_num)

/-- A pattern is its sign and its magnitude. -/
theorem packSign_signBit_magBits (w : Word) : packSign (signBit w) (magBits w) = w := by
  apply BitVec.eq_of_toNat_eq
  rw [packSign_toNat]
  have hw := w.isLt
  unfold signBit magBits
  rw [← BitVec.testBit_toNat, Nat.testBit_eq_decide_div_mod_eq]
  norm_num
  split <;> omega

/-! ### The classes of a pattern, by its magnitude -/

theorem isNaN_eq_true_iff (w : Word) : isNaN w = true ↔ 2139095040 < magBits w := decide_eq_true_iff

theorem isNaN_eq_false_iff (w : Word) : isNaN w = false ↔ magBits w ≤ 2139095040 := by
  rw [← Bool.not_eq_true, isNaN_eq_true_iff]; omega

theorem isInf_eq_true_iff (w : Word) : isInf w = true ↔ magBits w = 2139095040 := decide_eq_true_iff

theorem isInf_eq_false_iff (w : Word) : isInf w = false ↔ magBits w ≠ 2139095040 := by
  rw [← Bool.not_eq_true, isInf_eq_true_iff]

theorem isFinite_eq_true_iff (w : Word) : isFinite w = true ↔ magBits w < 2139095040 := decide_eq_true_iff

theorem isFinite_eq_false_iff (w : Word) : isFinite w = false ↔ 2139095040 ≤ magBits w := by
  rw [← Bool.not_eq_true, isFinite_eq_true_iff]; omega

theorem isZero_eq_true_iff (w : Word) : isZero w = true ↔ magBits w = 0 := decide_eq_true_iff

theorem isZero_eq_false_iff (w : Word) : isZero w = false ↔ magBits w ≠ 0 := by
  rw [← Bool.not_eq_true, isZero_eq_true_iff]

/-- Every draw of `NAN_OUT` is a NaN (R16). -/
theorem nanOut_isNaN (source n : Nat) : isNaN (nanOut source n) = true := by
  have := (Config.nanFraction source n).isLt
  simp only [isNaN, nanOut, magBits_packSign, infMag, decide_eq_true_eq]
  rw [Nat.mod_eq_of_lt] <;> omega

/-- Rounding never exceeds the infinity's pattern. -/
theorem roundMag_le_infMag (num den : Nat) : roundMag num den ≤ infMag := by
  unfold roundMag; exact Nat.min_le_right _ _

theorem magBits_round32 (sign : Bool) (num den : Nat) : magBits (round32 sign num den) = roundMag num den := by
  unfold round32
  rw [magBits_packSign, Nat.mod_eq_of_lt]
  have := roundMag_le_infMag num den
  unfold infMag at this; omega

@[simp] theorem signBit_round32 (sign : Bool) (num den : Nat) : signBit (round32 sign num den) = sign := by
  unfold round32; simp

@[simp] theorem isNaN_round32 (sign : Bool) (num den : Nat) : isNaN (round32 sign num den) = false := by
  have := roundMag_le_infMag num den
  simp only [isNaN, magBits_round32, decide_eq_false_iff_not]; omega

theorem signBit_fneg (a : Word) : signBit (fneg a) = !signBit a := by
  unfold signBit fneg
  simp

theorem magBits_fneg (a : Word) : magBits (fneg a) = magBits a := by
  unfold magBits fneg
  rw [BitVec.toNat_xor]
  apply Nat.eq_of_testBit_eq
  intro i
  rw [Nat.testBit_mod_two_pow, Nat.testBit_mod_two_pow, Nat.testBit_xor]
  by_cases h : i < 31
  · have : (0x80000000#32 : Word).toNat.testBit i = false := by
      have e : (0x80000000#32 : Word).toNat = 2 ^ 31 := by decide
      rw [e, Nat.testBit_two_pow_of_ne (by omega)]
    rw [this]; simp
  · simp [h]

@[simp] theorem isNaN_fneg (a : Word) : isNaN (fneg a) = isNaN a := by simp [isNaN, magBits_fneg]

/-- A NaN operand gives the drawn NaN (R15, R16). -/
theorem fmul_of_isNaN (nan a b : Word) (h : (isNaN a || isNaN b) = true) : fmul nan a b = nan := by
  simp [fmul, h]

/-- A NaN operand gives the drawn NaN (R15, R16). -/
theorem fadd_of_isNaN (nan a b : Word) (h : (isNaN a || isNaN b) = true) : fadd nan a b = nan := by
  simp [fadd, h]

/-- A NaN operand gives the drawn NaN (R15, R16). -/
theorem fsub_of_isNaN (nan a b : Word) (h : (isNaN a || isNaN b) = true) : fsub nan a b = nan := by
  apply fadd_of_isNaN; simpa using h

end Sys2Proof.Machine
end

