-- ==== Sys2Proof/Laws/PerInstr.lean ====
section
/-! SUPPORT. Per-command facts about a command as syntax: the shape of its encoding (R80, R83, R91). -/

namespace Sys2Proof.Laws.EncodingShape

open Sys2Proof

/-- A command is well formed, its encoding has the length its OP decides (R83), starts with a command word whose OP
field is the operation's (R81, R82), and holds no 1 outside the fields the operation uses (R91). -/
def Statement (i : Instr) : Prop :=
  i.wellFormed = true ∧ (encode i).length = i.words ∧
    ∃ w ps, encode i = w :: ps ∧ opField w = i.op.code ∧ w &&& ~~~i.op.usedMask = 0#32

theorem proc (k : Slot) (x : Word) : Statement (.proc k x) :=
  ⟨rfl, rfl, _, _, rfl, (commandWord_fields _ _ _ _).1, commandWord_unused _ _ _ _ (.inl rfl) (.inr rfl) (.inr rfl)⟩

theorem ldc (k : Slot) (b0 b1 b2 a1 a2 : Word) : Statement (.ldc k b0 b1 b2 a1 a2) :=
  ⟨rfl, rfl, _, _, rfl, (commandWord_fields _ _ _ _).1, commandWord_unused _ _ _ _ (.inl rfl) (.inr rfl) (.inr rfl)⟩

theorem rst (k : Slot) : Statement (.rst k) :=
  ⟨rfl, rfl, _, _, rfl, (commandWord_fields _ _ _ _).1, commandWord_unused _ _ _ _ (.inl rfl) (.inr rfl) (.inr rfl)⟩

theorem byp (k : Slot) (f : Bool) : Statement (.byp k f) :=
  ⟨rfl, rfl, _, _, rfl, (commandWord_fields _ _ _ _).1, commandWord_unused _ _ _ _ (.inl rfl) (.inr rfl) (.inl rfl)⟩

theorem cproc (x : Word) : Statement (.cproc x) :=
  ⟨rfl, rfl, _, _, rfl, (commandWord_fields _ _ _ _).1, commandWord_unused _ _ _ _ (.inr rfl) (.inr rfl) (.inr rfl)⟩

theorem slope (c : Slot) : Statement (.slope c) :=
  ⟨rfl, rfl, _, _, rfl, (commandWord_fields _ _ _ _).1, commandWord_unused _ _ _ _ (.inr rfl) (.inl rfl) (.inr rfl)⟩

theorem cbyp (f : Bool) : Statement (.cbyp f) :=
  ⟨rfl, rfl, _, _, rfl, (commandWord_fields _ _ _ _).1, commandWord_unused _ _ _ _ (.inr rfl) (.inr rfl) (.inl rfl)⟩

theorem crst : Statement .crst :=
  ⟨rfl, rfl, _, _, rfl, (commandWord_fields _ _ _ _).1, commandWord_unused _ _ _ _ (.inr rfl) (.inr rfl) (.inr rfl)⟩

theorem blk : Statement .blk :=
  ⟨rfl, rfl, _, _, rfl, (commandWord_fields _ _ _ _).1, commandWord_unused _ _ _ _ (.inr rfl) (.inr rfl) (.inr rfl)⟩

theorem rdst : Statement .rdst :=
  ⟨rfl, rfl, _, _, rfl, (commandWord_fields _ _ _ _).1, commandWord_unused _ _ _ _ (.inr rfl) (.inr rfl) (.inr rfl)⟩

end Sys2Proof.Laws.EncodingShape
end

