-- ==== Sys2Proof/Laws/Rounding.lean ====
section
/-! SUPPORT. Rounding a real number meets its relation (R14), and so the default design is the reference design (R10,
R186). The magnitudes' patterns are in the order of their values; rounding picks one of two neighbours. -/

namespace Sys2Proof.Machine

open Sys2Proof

/-! ### Patterns are in the order of their values -/

/-- The value of a pattern by its exponent and fraction fields (R13). -/
theorem magUnits_fields (e : Nat) {f : Nat} (hf : f < 2 ^ 23) :
    magUnits (e * 2 ^ 23 + f) = if e = 0 then f else (2 ^ 23 + f) * 2 ^ (e - 1) := by
  unfold magUnits
  rw [mul_comm e, Nat.mul_add_div (by norm_num), Nat.mul_add_mod, Nat.div_eq_of_lt hf, Nat.mod_eq_of_lt hf,
    Nat.add_zero]

theorem magUnits_lt_succ (p : Nat) : magUnits p < magUnits (p + 1) := by
  obtain ⟨e, f, hf, rfl⟩ : ∃ e f, f < 2 ^ 23 ∧ p = e * 2 ^ 23 + f :=
    ⟨p / 2 ^ 23, p % 2 ^ 23, Nat.mod_lt _ (by norm_num), (Nat.div_add_mod' p (2 ^ 23)).symm⟩
  rw [magUnits_fields e hf, Nat.add_assoc]
  rcases (show f + 1 ≤ 2 ^ 23 from hf).lt_or_eq with h | h
  · rw [magUnits_fields e h]
    split
    · exact Nat.lt_succ_self f
    · exact Nat.mul_lt_mul_of_pos_right (Nat.add_lt_add_left (Nat.lt_succ_self f) _) (by positivity)
  · rw [h, ← Nat.succ_mul, ← Nat.add_zero ((e.succ) * 2 ^ 23), magUnits_fields _ (by norm_num),
      if_neg (Nat.succ_ne_zero e), Nat.succ_sub_one, Nat.add_zero]
    split
    · exact lt_of_lt_of_le hf (Nat.le_mul_of_pos_right _ (by positivity))
    · obtain ⟨e, rfl⟩ := Nat.exists_eq_succ_of_ne_zero ‹e ≠ 0›
      rw [Nat.succ_sub_one, Nat.succ_eq_add_one, pow_succ' 2 e, ← Nat.mul_assoc, Nat.mul_two]
      exact Nat.mul_lt_mul_of_pos_right (Nat.add_lt_add_left hf _) (by positivity)

theorem magUnits_strictMono : StrictMono magUnits := strictMono_nat_of_lt_succ magUnits_lt_succ

/-- The value of a significand `q` in the binade of `shift`: below the least binade it has fewer bits. -/
theorem magUnits_binade {shift q : Nat} (h : shift = 0 ∨ 2 ^ 23 ≤ q) (hq : q ≤ 2 ^ 24) :
    magUnits (shift * 2 ^ 23 + q) = q * 2 ^ shift := by
  rcases Nat.lt_or_ge q (2 ^ 23) with hlt | hge
  · obtain rfl : shift = 0 := by omega
    rw [magUnits_fields 0 hlt]; simp
  · obtain ⟨f, rfl⟩ := Nat.exists_eq_add_of_le hge
    rw [← Nat.add_assoc, ← Nat.succ_mul]
    rcases (show f ≤ 2 ^ 23 by omega).lt_or_eq with hlt | rfl
    · rw [magUnits_fields _ hlt]; simp
    · rw [← Nat.succ_mul, ← Nat.add_zero (_ * 2 ^ 23), magUnits_fields _ (by norm_num)]
      simp [pow_succ]; ring

/-! ### Rounding a magnitude -/

/-- What rounding a magnitude can do: `m` lies between two neighbouring patterns `p` and `p + 1`, and the result is the
nearer, of two equally near the even one, or the infinity's pattern where that is less. -/
theorem roundMagReal_cases {m : ℝ} (hm : 0 ≤ m) :
    ∃ p : Nat, (magUnits p : ℝ) ≤ m ∧ m < magUnits (p + 1) ∧
      ((roundMagReal m = min p infMag ∧ (m - magUnits p < magUnits (p + 1) - m ∨
          (m - magUnits p = magUnits (p + 1) - m ∧ p % 2 = 0))) ∨
        (roundMagReal m = min (p + 1) infMag ∧ (magUnits (p + 1) - m < m - magUnits p ∨
          (m - magUnits p = magUnits (p + 1) - m ∧ (p + 1) % 2 = 0)))) := by
  set shift := ⌊m⌋₊.log2 - 23 with hs
  set d : ℕ := 2 ^ shift with hd
  have hdpos : (0 : ℝ) < d := by rw [hd]; positivity
  set q := ⌊m / d⌋₊ with hq
  have hlo : (q : ℝ) * d ≤ m := (le_div_iff₀ hdpos).1 (Nat.floor_le (div_nonneg hm hdpos.le))
  have hhi : m < ((q : ℝ) + 1) * d := (div_lt_iff₀ hdpos).1 (Nat.lt_floor_add_one _)
  have hqd : q = ⌊m⌋₊ / d := by rw [hq, Nat.floor_div_natCast]
  have hq24 : q < 2 ^ 24 := by
    rw [hqd, Nat.div_lt_iff_lt_mul (by rw [hd]; positivity), hd, ← pow_add]
    exact lt_of_lt_of_le Nat.lt_log2_self (Nat.pow_le_pow_right (by norm_num) (by omega))
  have hq23 : shift = 0 ∨ 2 ^ 23 ≤ q := by
    rcases Nat.eq_zero_or_pos shift with h0 | hpos
    · exact .inl h0
    · right
      have hne : ⌊m⌋₊ ≠ 0 := by intro h; rw [h] at hs; simp at hs; omega
      rw [hqd, Nat.le_div_iff_mul_le (by rw [hd]; positivity), hd, ← pow_add]
      exact le_trans (Nat.pow_le_pow_right (by norm_num) (by omega)) (Nat.log2_self_le hne)
  have hp : (magUnits (shift * 2 ^ 23 + q) : ℝ) = q * d := by
    rw [magUnits_binade hq23 hq24.le, hd]; push_cast; rfl
  have hp' : (magUnits (shift * 2 ^ 23 + q + 1) : ℝ) = (q + 1) * d := by
    rw [add_assoc, magUnits_binade (by omega) (by omega), hd]; push_cast; rfl
  have hr : roundMagReal m = min (shift * 2 ^ 23 +
      (if (d : ℝ) < 2 * (m - q * d) ∨ (2 * (m - q * d) = d ∧ q % 2 = 1) then q + 1 else q)) infMag := rfl
  refine ⟨shift * 2 ^ 23 + q, by rw [hp]; exact hlo, by rw [hp']; exact hhi, ?_⟩
  rw [hp, hp', hr]
  by_cases hup : (d : ℝ) < 2 * (m - q * d) ∨ (2 * (m - q * d) = d ∧ q % 2 = 1)
  · right
    rw [if_pos hup, ← add_assoc]
    refine ⟨rfl, ?_⟩
    rcases hup with h | ⟨h, hodd⟩
    · left; linarith
    · right; exact ⟨by linarith, by clear hr hp hp'; omega⟩
  · left
    rw [if_neg hup]
    refine ⟨rfl, ?_⟩
    obtain ⟨h1, h2⟩ := not_or.1 hup
    rcases (not_lt.1 h1).lt_or_eq with h | h
    · left; linarith
    · have heven : ¬q % 2 = 1 := fun e => h2 ⟨h, e⟩
      right; exact ⟨by linarith, by clear hr hp hp'; omega⟩

/-- On a quotient it is the rounding the primitives do (R14, R15). -/
theorem roundMagReal_div (num : Nat) {den : Nat} (hden : 0 < den) :
    roundMagReal ((num : ℝ) / den) = roundMag num den := by
  have hf : ⌊(num : ℝ) / den⌋₊ = num / den := Nat.floor_div_eq_div num den
  unfold roundMagReal roundMag
  rw [hf]
  generalize (num / den).log2 - 23 = shift
  have hd : 0 < den * 2 ^ shift := by positivity
  have hq : ⌊(num : ℝ) / den / (2 ^ shift : ℕ)⌋₊ = num / (den * 2 ^ shift) := by
    rw [div_div, ← Nat.cast_mul, Nat.floor_div_eq_div]
  have hr : (num : ℝ) / den - (num / (den * 2 ^ shift) : ℕ) * (2 ^ shift : ℕ)
      = (num % (den * 2 ^ shift) : ℕ) / den := by
    have h : (num : ℝ) = (den * 2 ^ shift : ℕ) * (num / (den * 2 ^ shift) : ℕ) + (num % (den * 2 ^ shift) : ℕ) := by
      exact_mod_cast (Nat.div_add_mod num (den * 2 ^ shift)).symm
    have hpos : (den : ℝ) ≠ 0 := by positivity
    rw [eq_div_iff hpos, sub_mul, div_mul_cancel₀ _ hpos]
    push_cast at h ⊢
    linarith
  have hlt : ((2 ^ shift : ℕ) : ℝ) < 2 * ((num % (den * 2 ^ shift) : ℕ) / den)
      ↔ den * 2 ^ shift < 2 * (num % (den * 2 ^ shift)) := by
    rw [← mul_div_assoc, lt_div_iff₀ (by positivity), mul_comm]
    exact_mod_cast Iff.rfl
  have heq : 2 * ((num % (den * 2 ^ shift) : ℕ) / den) = ((2 ^ shift : ℕ) : ℝ)
      ↔ 2 * (num % (den * 2 ^ shift)) = den * 2 ^ shift := by
    rw [← mul_div_assoc, div_eq_iff (by positivity), mul_comm ((2 ^ shift : ℕ) : ℝ)]
    exact_mod_cast Iff.rfl
  simp only [hq, hr, hlt, heq]

theorem roundMagReal_le_infMag (m : ℝ) : roundMagReal m ≤ infMag := Nat.min_le_right _ _

theorem magUnits_infMag : (magUnits infMag : ℝ) = 2 ^ 24 * 2 ^ 253 := by
  have h : magUnits infMag = 2 ^ 24 * 2 ^ 253 := by decide +kernel
  rw [h]; norm_num

theorem magUnits_largest : (magUnits (infMag - 1) : ℝ) = (2 ^ 24 - 1) * 2 ^ 253 := by
  have h : magUnits (infMag - 1) = (2 ^ 24 - 1) * 2 ^ 253 := by decide +kernel
  rw [h]; norm_num

/-- At or beyond half a step above the largest finite number, the infinity (R14). -/
theorem roundMagReal_of_overflow {m : ℝ} (h : (2 ^ 24 - 1 / 2) * 2 ^ 253 ≤ m) : roundMagReal m = infMag := by
  have hm : 0 ≤ m := le_trans (by norm_num) h
  obtain ⟨p, hlo, hhi, hcase⟩ := roundMagReal_cases hm
  have hp : infMag - 1 ≤ p := by
    by_contra hlt
    have := magUnits_strictMono.monotone (show p + 1 ≤ infMag - 1 by omega)
    have : (magUnits (p + 1) : ℝ) ≤ magUnits (infMag - 1) := by exact_mod_cast this
    rw [magUnits_largest] at this
    linarith
  rcases hp.lt_or_eq with hlt | rfl
  · rcases hcase with ⟨h1, -⟩ | ⟨h1, -⟩ <;> rw [h1] <;> exact Nat.min_eq_right (by omega)
  · have hs : infMag - 1 + 1 = infMag := rfl
    rw [hs, magUnits_largest, magUnits_infMag] at hcase
    rcases hcase with ⟨-, h2 | ⟨-, h2⟩⟩ | ⟨h1, -⟩
    · exfalso; linarith
    · exact absurd h2 (by decide)
    · rw [h1, Nat.min_self]

/-- Below that the result is finite, no finite number is nearer to `m`, and of two equally near it is the even (R14). Finite
numbers are read as integers, negative ones among them. -/
theorem roundMagReal_nearest {m : ℝ} (hm : 0 ≤ m) (h : m < (2 ^ 24 - 1 / 2) * 2 ^ 253) :
    roundMagReal m < infMag ∧ ∀ (z : ℤ) (p' : Nat), z = magUnits p' ∨ z ≤ 0 →
      |m - magUnits (roundMagReal m)| ≤ |m - z| ∧
      (z ≠ magUnits (roundMagReal m) → |m - z| = |m - magUnits (roundMagReal m)| → roundMagReal m % 2 = 0) := by
  obtain ⟨p, hlo, hhi, hcase⟩ := roundMagReal_cases hm
  -- no finite number lies strictly between the two neighbours
  have grid : ∀ (z : ℤ) (p' : Nat), z = magUnits p' ∨ z ≤ 0 → (z : ℝ) ≤ magUnits p ∨ (magUnits (p + 1) : ℝ) ≤ z := by
    rintro z p' (rfl | hz)
    · rcases Nat.lt_or_ge p p' with hp | hp
      · right; exact_mod_cast magUnits_strictMono.monotone (show p + 1 ≤ p' from hp)
      · left; exact_mod_cast magUnits_strictMono.monotone hp
    · left
      have : (z : ℝ) ≤ 0 := by exact_mod_cast hz
      exact this.trans (Nat.cast_nonneg _)
  have hp : p < infMag := by
    by_contra hge
    have : (magUnits infMag : ℝ) ≤ magUnits p := by exact_mod_cast magUnits_strictMono.monotone (not_lt.1 hge)
    rw [magUnits_infMag] at this
    linarith
  rcases hcase with ⟨hr, hn⟩ | ⟨hr, hn⟩
  · rw [Nat.min_eq_left hp.le] at hr
    rw [hr]
    refine ⟨hp, fun z p' hz => ?_⟩
    rw [abs_of_nonneg (sub_nonneg.2 hlo)]
    rcases grid z p' hz with hz | hz
    · rw [abs_of_nonneg (by linarith : 0 ≤ m - (z : ℝ))]
      refine ⟨by linarith, fun hne he => absurd ?_ hne⟩
      have : (z : ℝ) = magUnits p := by linarith
      exact_mod_cast this
    · rw [abs_of_nonpos (by linarith : m - (z : ℝ) ≤ 0)]
      rcases hn with hn | ⟨hn, he⟩
      · exact ⟨by linarith, fun _ he => by linarith⟩
      · exact ⟨by linarith, fun _ _ => he⟩
  · have hp1 : p + 1 < infMag := by
      rcases Nat.lt_or_ge (p + 1) infMag with hlt | hge
      · exact hlt
      · obtain rfl : p = infMag - 1 := by omega
        rw [show infMag - 1 + 1 = infMag from rfl, magUnits_largest, magUnits_infMag] at hn
        rcases hn with hn | ⟨hn, -⟩ <;> linarith
    rw [Nat.min_eq_left hp1.le] at hr
    rw [hr]
    refine ⟨hp1, fun z p' hz => ?_⟩
    rw [abs_of_nonpos (by linarith : m - (magUnits (p + 1) : ℝ) ≤ 0)]
    rcases grid z p' hz with hz | hz
    · rw [abs_of_nonneg (by linarith : 0 ≤ m - (z : ℝ))]
      rcases hn with hn | ⟨hn, he⟩
      · exact ⟨by linarith, fun _ he => by linarith⟩
      · exact ⟨by linarith, fun _ _ => he⟩
    · rw [abs_of_nonpos (by linarith : m - (z : ℝ) ≤ 0)]
      refine ⟨by linarith, fun hne he => absurd ?_ hne⟩
      have : (z : ℝ) = magUnits (p + 1) := by linarith
      exact_mod_cast this

/-! ### Rounding a real number, and the default design -/

theorem magBits_roundReal (v : ℝ) : magBits (roundReal v) = roundMagReal (|v| * 2 ^ 149) := by
  rw [roundReal, magBits_packSign, Nat.mod_eq_of_lt]
  exact lt_of_le_of_lt (roundMagReal_le_infMag _) (by decide)

@[simp] theorem signBit_roundReal (v : ℝ) : signBit (roundReal v) = decide (v < 0) := by simp [roundReal]

/-- The value of a pattern, its sign aside, is its magnitude's or its opposite. -/
theorem units_eq_or (w : Word) : units w = magUnits (magBits w) ∨ units w = -magUnits (magBits w) := by
  unfold units; split <;> simp

/-- Rounding a real number meets the relation (R14). -/
theorem isRound32_roundReal (v : ℝ) : IsRound32 v (roundReal v) := by
  have hpos : (0 : ℝ) < 2 ^ 149 := by positivity
  refine ⟨fun h => ?_, fun h => ?_, by simp⟩
  · rw [isInf_eq_true_iff, magBits_roundReal]
    refine roundMagReal_of_overflow ?_
    calc ((2 : ℝ) ^ 24 - 1 / 2) * 2 ^ 253 = (2 ^ 128 - 2 ^ 103) * 2 ^ 149 := by norm_num
      _ ≤ |v| * 2 ^ 149 := mul_le_mul_of_nonneg_right h hpos.le
  · have hlt : |v| * 2 ^ 149 < (2 ^ 24 - 1 / 2) * 2 ^ 253 := by
      calc |v| * 2 ^ 149 < (2 ^ 128 - 2 ^ 103) * 2 ^ 149 := mul_lt_mul_of_pos_right h hpos
        _ = (2 ^ 24 - 1 / 2) * 2 ^ 253 := by norm_num
    obtain ⟨hfin, hnear⟩ := roundMagReal_nearest (by positivity) hlt
    rw [← magBits_roundReal] at hfin hnear
    -- a finite pattern as `v` sees it: its value with the sign of `v` taken off, and its distance in units
    set σ : ℤ := if v < 0 then -1 else 1 with hσ
    have habs : ∀ z : ℤ, |v - (z : ℝ) / 2 ^ 149| = |(|v| * 2 ^ 149) - ((σ * z : ℤ) : ℝ)| / 2 ^ 149 := by
      intro z
      rw [eq_div_iff hpos.ne', ← abs_of_pos hpos, ← abs_mul, abs_of_pos hpos, sub_mul, div_mul_cancel₀ _ hpos.ne']
      rcases lt_or_ge v 0 with hv | hv
      · rw [hσ, if_pos hv, abs_of_neg hv, ← abs_neg]; congr 1; push_cast; ring
      · rw [hσ, if_neg (not_lt.2 hv), abs_of_nonneg hv]; congr 1; push_cast; ring
    have hw : σ * units (roundReal v) = magUnits (magBits (roundReal v)) := by
      unfold units
      rw [signBit_roundReal, hσ]
      by_cases hv : v < 0 <;> simp [hv]
    have hside : ∀ u, σ * units u = magUnits (magBits u) ∨ σ * units u ≤ 0 := by
      intro u
      rw [hσ]
      rcases units_eq_or u with h | h <;> rw [h] <;> split <;> simp
    refine ⟨isFinite_eq_true_iff _ |>.2 hfin, fun u _ => ?_, fun u _ hne he => ?_⟩
    · rw [habs, habs, hw, Int.cast_natCast]
      exact div_le_div_of_nonneg_right (hnear _ _ (hside u)).1 hpos.le
    · rw [habs, habs, hw, Int.cast_natCast, div_left_inj' hpos.ne'] at he
      refine (hnear _ _ (hside u)).2 (fun h => hne ?_) he
      rw [← hw] at h
      exact mul_left_cancel₀ (by rw [hσ]; split <;> decide) h

theorem isRoundedSet_roundSet (c : ExactSet) : IsRoundedSet c (roundSet c) :=
  ⟨isRound32_roundReal _, isRound32_roundReal _, isRound32_roundReal _, isRound32_roundReal _, isRound32_roundReal _⟩

/-- Where the reference design is defined it gives one set per active stage (R183). -/
theorem referenceDesign_length (kind : CutKind) {f fs : ℝ} {n : Nat} (h : DesignDefined f fs n) :
    (referenceDesign kind f fs n).length = n := by
  rw [referenceDesign, if_pos h]; simp [exactDesign]

/-- Elsewhere it gives none (R183). -/
theorem referenceDesign_of_not_defined (kind : CutKind) {f fs : ℝ} {n : Nat} (h : ¬DesignDefined f fs n) :
    referenceDesign kind f fs n = [] := if_neg h

/-- The default of DESIGN is the reference design of R183 to R186 (R10). -/
theorem designFunction_default_isReference : IsReference DesignFunction.default := by
  intro kind f fs n h
  refine ⟨_, ⟨h, rfl⟩, ?_⟩
  rw [DesignFunction.default, referenceDesign, if_pos h, List.forall₂_map_right_iff, List.forall₂_same]
  exact fun c _ => isRoundedSet_roundSet c

end Sys2Proof.Machine
end

