-- ==== Sys2Proof/Laws/Step.lean ====
section
/-! SUPPORT. What fetching, taking an error and one step can do, said once (R39, R201 to R204, R217). -/

namespace Sys2Proof.Machine

open Sys2Proof

/-- Taking an error keeps the first code and sets OVF on any later error (R203). -/
theorem Status.record_of_zero (t : Status) (e : CommandError) (h : t.errcode = 0#8) :
    t.record e = { t with errcode := errorCode e } := by simp [Status.record, h]

theorem Status.record_of_nonzero (t : Status) (e : CommandError) (h : t.errcode ≠ 0#8) :
    t.record e = { t with ovf := true } := by simp [Status.record, h]

@[simp] theorem keepFirst_none (f : Fault) : keepFirst none f = some f := rfl

@[simp] theorem keepFirst_some (f₀ f : Fault) : keepFirst (some f₀) f = some f₀ := rfl

/-- Taking payload gives a whole command when enough words are there, else holds them all (R39). -/
theorem takePayload_cases (h : Header) (ws : List Word) :
    (ws.length < h.op.payloadWords ∧ takePayload h ws = .incomplete h ws) ∨
    (h.op.payloadWords ≤ ws.length ∧ takePayload h ws
      = .command (assemble h (ws.take h.op.payloadWords)) (ws.drop h.op.payloadWords)) := by
  by_cases hl : ws.length < h.op.payloadWords
  · exact .inl ⟨hl, by simp [takePayload, hl]⟩
  · exact .inr ⟨by omega, by simp [takePayload, hl]⟩

/-- What a fetch is, by the stream and `pend`. -/
theorem fetch_nil {s : State} (h : s.stream = []) : fetch s = .empty := by simp [fetch, h]

theorem fetch_command_position {s : State} (h : s.pend = none) : fetch s = decode s.stream := by
  unfold fetch
  cases hs : s.stream with
  | nil => rfl
  | cons w ws => simp [h]

theorem fetch_payload {s : State} {p : Pending} (h : s.pend = some p) (hs : s.stream ≠ []) :
    fetch s = takePayload p.head (p.got ++ s.stream) := by
  unfold fetch
  cases hw : s.stream with
  | nil => exact absurd hw hs
  | cons w ws => simp [h]

/-- A fetch is empty exactly when the stream holds no word. -/
theorem fetch_eq_empty_iff (s : State) : fetch s = .empty ↔ s.stream = [] := by
  constructor
  · intro h
    by_contra hs
    cases hp : s.pend with
    | none =>
      rw [fetch_command_position hp] at h
      cases hw : s.stream with
      | nil => exact hs hw
      | cons w ws =>
        rw [hw] at h
        simp only [decode] at h
        split at h
        · exact absurd h (by simp)
        · rename_i hd _
          rcases takePayload_cases hd ws with ⟨_, e⟩ | ⟨_, e⟩ <;> rw [e] at h <;> exact absurd h (by simp)
    | some p =>
      rw [fetch_payload hp hs] at h
      rcases takePayload_cases p.head (p.got ++ s.stream) with ⟨_, e⟩ | ⟨_, e⟩ <;> rw [e] at h <;>
        exact absurd h (by simp)
  · exact fetch_nil

/-- Everything a step with a next state can have done: executed one whole command, taken an error, or held words. -/
theorem step_next_cases {s t : State} (h : step s = .next t) :
    (∃ i rest, fetch s = .command i rest ∧ exec i (s.accepted none rest) = .next t) ∨
    (∃ e w rest, fetch s = .rejected e w rest ∧ t = (s.accepted none rest).recordError e w) ∨
    (∃ hd got, fetch s = .incomplete hd got ∧ t = s.accepted (some { head := hd, got := got }) []) := by
  unfold step stepFetched at h
  split at h
  · exact .inl ⟨_, _, by assumption, h⟩
  · cases h; exact .inr (.inl ⟨_, _, _, by assumption, rfl⟩)
  · cases h; exact .inr (.inr ⟨_, _, by assumption, rfl⟩)
  · cases h

/-- What accepting one word does with no command pending. -/
theorem acceptWord_command_position {s : State} (h : s.pend = none) (w : Word) :
    acceptWord w s = match decodeWord w with
      | .error e => .next (s.recordError e w)
      | .ok hd =>
        if hd.op.payloadWords = 0 then exec (assemble hd []) s
        else .next (s.accepted (some { head := hd, got := [] }) s.stream) := by
  obtain ⟨st, cbyp, status, pend, pc, out, faultRec, stream, params, draws, source⟩ := s
  change pend = none at h
  subst h
  rfl

/-- What accepting one word does with a command pending. -/
theorem acceptWord_payload {s : State} {p : Pending} (h : s.pend = some p) (w : Word) :
    acceptWord w s =
      if (p.got ++ [w]).length < p.head.op.payloadWords then
        .next (s.accepted (some { head := p.head, got := p.got ++ [w] }) s.stream)
      else exec (assemble p.head (p.got ++ [w])) (s.accepted none s.stream) := by
  simp [acceptWord, h]

end Sys2Proof.Machine
end

