-- ==== Sys2Proof/Tests/Slice0.lean ====
section
/-! SUPPORT. The model's own tests. Expected values come from spec/95_test_vectors.md (the vector is named at each test)
or by hand from the rule named. The `witness_` theorems show states and operands that meet the hypotheses of the
statement of that name. -/

namespace Sys2Proof.Tests

set_option Elab.async false

open Sys2Proof Sys2Proof.Machine

/-! ### Small states -/

/-- The next state of an outcome, if it is one. -/
def after (o : Host.Outcome State Fault Refusal) : Option State :=
  match o with
  | .next t => some t
  | .fault _ => none
  | .refused _ => none

/-- A reset unit that has been offered words. -/
def offered (ws : List Word) : State := State.reset.offer ws

/-- The set CA of the vectors, Active, with given state registers. -/
def stageCA (s1 s2 : Word) : Stage :=
  { b0 := 0x3F000000#32, b1 := 0x3E800000#32, b2 := 0x3E000000#32, a1 := 0xBF000000#32, a2 := 0x3E800000#32,
    s1 := s1, s2 := s2, byp := false }

/-- The set CB of the vectors, Active, with given state registers. -/
def stageCB (s1 s2 : Word) : Stage :=
  { b0 := 0x3F000000#32, b1 := 0x3F000000#32, b2 := 0#32, a1 := 0#32, a2 := 0#32, s1 := s1, s2 := s2, byp := false }

/-- The reset set, Active, with given state registers. -/
def stageID (s1 s2 : Word) : Stage := { Stage.reset with s1 := s1, s2 := s2, byp := false }

/-- A reset unit with slot `k` replaced. -/
def withStage (k : Slot) (g : Stage) : State := State.reset.setSlot k g

/-- A unit with other parameters. -/
def withParams (s : State) (p : Params) : State := { s with params := p }

/-- What the stage commands and PROC touch: the last response and the state pair of slot `k`. -/
def pairOf (k : Slot) (o : Host.Outcome State Fault Refusal) : Option (List Word × Word × Word) :=
  (after o).map fun t => (t.out, (t.slot k).s1, (t.slot k).s2)

/-- The four bypass bits after a command. -/
def bypsOf (o : Host.Outcome State Fault Refusal) : Option (List Bool) :=
  (after o).map fun t => [(t.slot 0).byp, (t.slot 1).byp, (t.slot 2).byp, (t.slot 3).byp]

/-- A state that has recorded RESERVED_FIELD and a later error. -/
def afterErrors : State :=
  { State.reset with status := { errcode := 2#8, ovf := true }, faultRec := some (.reservedField 0x10000001#32 0), pc := 2 }

/-- A unit whose slot 0 waits for payload words of `ldc s0`. -/
def pendingLdc (got : List Word) (ws : List Word) : State :=
  { State.reset with pend := some { head := { op := .ldc, stg := 0, slp := 0, f := false }, got := got }, stream := ws }

/-! ### WellFormed: each check refuses an ill-formed term -/

theorem test_threshold_zero_refused : thresholdWellFormed 0x00000000#32 = false := by decide
theorem test_threshold_negative_refused : thresholdWellFormed 0x80000001#32 = false := by decide
theorem test_threshold_nan_refused : thresholdWellFormed 0x7FC00000#32 = false := by decide
theorem test_threshold_bounds : thresholdWellFormed 0x00000001#32 = true ∧ thresholdWellFormed 0x7F800000#32 = true := by
  decide
theorem test_params_snap_zero_refused : Params.wellFormed { Params.default with snap := some 0#32 } = false := by decide
theorem test_params_default : Params.default.wellFormed = true := by decide
theorem test_asm_slot_refused : (Asm.rst 4).wellFormed = false := by decide
theorem test_asm_flag_refused : (Asm.byp 0 2).wellFormed = false := by decide
theorem test_asm_slope_refused : (Asm.slope 18).wellFormed = false := by decide
theorem test_asm_set_count_refused : (Asm.cutcfg 24 0 []).wellFormed = false := by decide
theorem test_pending_full_refused :
    Pending.wf { head := { op := .proc, stg := 0, slp := 0, f := false }, got := [0#32] } = false := by decide
theorem test_pending_unused_field_refused :
    Pending.wf { head := { op := .cproc, stg := 1, slp := 0, f := false }, got := [] } = false := by decide
theorem test_slope_setting_refused : slopeLegal 60 = false := by decide
theorem test_frequency_refused : freqLegal (19 : ℚ) = false ∧ freqLegal (20001 : ℚ) = false := by decide +kernel

/-! ### Decode: words written out from the encodings of R94 and R96 -/

theorem test_decode_proc : decode [0x18000000#32, 0xBF800000#32] = .command (.proc 2 0xBF800000#32) [] := by decide
/-- V7. -/
theorem test_decode_ldc :
    decode [0x24000000#32, 0x3F000000#32, 0x3E800000#32, 0x3E000000#32, 0xBF000000#32, 0x3E800000#32, 0xC0000000#32]
      = .command (.ldc 1 0x3F000000#32 0x3E800000#32 0x3E000000#32 0xBF000000#32 0x3E800000#32) [0xC0000000#32] := by
  decide
theorem test_decode_rst : decode [0x3C000000#32] = .command (.rst 3) [] := by decide
theorem test_decode_byp : decode [0x44000000#32] = .command (.byp 1 false) [] := by decide
theorem test_decode_cproc : decode [0x80000000#32, 0#32] = .command (.cproc 0#32) [] := by decide
theorem test_decode_slope : decode [0x93000000#32] = .command (.slope 3) [] := by decide
theorem test_decode_cbyp : decode [0xA0000001#32] = .command (.cbyp true) [] := by decide
theorem test_decode_crst : decode [0xB0000000#32] = .command .crst [] := by decide
theorem test_decode_blk : decode [0xC0000000#32] = .command .blk [] := by decide
theorem test_decode_rdst : decode [0xD0000000#32] = .command .rdst [] := by decide

/-- V1, the ILLEGAL_OPCODE rows. -/
theorem test_decode_illegal :
    [0x00000000#32, 0x50000000#32, 0x6FFFFFFF#32, 0x70000000#32, 0xE0000000#32, 0xFFFFFFFF#32].all
      (fun w => decide (decode [w] = .rejected .illegalOpcode w [])) = true := by decide
/-- V1, the RESERVED_FIELD rows. -/
theorem test_decode_reserved :
    [0x10000001#32, 0x20000001#32, 0x31000000#32, 0x40000002#32, 0x80000004#32, 0x94000000#32, 0xA1000000#32,
      0xC4000000#32, 0xD0800000#32].all (fun w => decide (decode [w] = .rejected .reservedField w [])) = true := by
  decide
/-- P1: its first two words travel as these bytes. -/
theorem test_bytes_of_words :
    bytesOfWords [0x20000000#32, 0x3F000000#32] = [0x00#8, 0x00#8, 0x00#8, 0x20#8, 0x00#8, 0x00#8, 0x00#8, 0x3F#8] := by
  decide
/-- R94: `ldc` of V7, encoded. -/
theorem test_encode_ldc : encode (.ldc 1 0x3F000000#32 0x3E800000#32 0x3E000000#32 0xBF000000#32 0x3E800000#32)
    = [0x24000000#32, 0x3F000000#32, 0x3E800000#32, 0x3E000000#32, 0xBF000000#32, 0x3E800000#32] := by decide
theorem test_table_word : decodeTableWord 64 0x3F8000001C000000 = some (.proc 3 0x3F800000#32) := by decide

/-! ### Arithmetic: V2 -/

theorem test_fmul_ties :
    fmul 0#32 0x3F000000#32 0x00000001#32 = 0x00000000#32 ∧ fmul 0#32 0x3F000000#32 0x00000003#32 = 0x00000002#32 ∧
    fmul 0#32 0x3F000000#32 0x807FFFFF#32 = 0x80400000#32 := by decide +kernel
theorem test_fmul_overflow : fmul 0#32 0x40000000#32 0x7F61B1E6#32 = 0x7F800000#32 := by decide +kernel
theorem test_fmul_zeros :
    fmul 0x7FC00000#32 0x00000000#32 0x7F800000#32 = 0x7FC00000#32 ∧
    fmul 0#32 0x00000000#32 0x80000000#32 = 0x80000000#32 := by decide +kernel
theorem test_fadd_zeros :
    fadd 0#32 0x80000000#32 0x00000000#32 = 0x00000000#32 ∧
    fadd 0#32 0x80000000#32 0x80000000#32 = 0x80000000#32 := by decide +kernel
theorem test_fadd_nan :
    fadd 0x7FC00000#32 0x7F800000#32 0xFF800000#32 = 0x7FC00000#32 ∧
    fadd 0x7FC00000#32 0x7FA00001#32 0x3F800000#32 = 0x7FC00000#32 := by decide +kernel
theorem test_fsub_exact_zero : fsub 0x7FC00000#32 0x3F800000#32 0x3F800000#32 = 0x00000000#32 := by decide +kernel

/-! ### One command each -/

/-- V3, n = 4 (TDF2). -/
theorem test_proc_tdf2 : pairOf 0 (exec (.proc 0 0#32) (withStage 0 (stageCA 0xBD800000#32 0#32)))
    = some ([0xBD800000#32], 0xBD000000#32, 0x3C800000#32) := by decide +kernel
/-- V4, n = 4 (DF2). -/
theorem test_proc_df2 :
    pairOf 0 (exec (.proc 0 0#32)
        (withParams (withStage 0 (stageCA 0xBE000000#32 0#32)) { Params.default with form := .df2 }))
      = some ([0xBD800000#32], 0xBD800000#32, 0xBE000000#32) := by decide +kernel
/-- V7: slot 1 holds CA, its state registers and its bypass bit stay. -/
theorem test_ldc :
    (after (exec (.ldc 1 0x3F000000#32 0x3E800000#32 0x3E000000#32 0xBF000000#32 0x3E800000#32)
        (withStage 1 (stageID 0x3E800000#32 0xBE000000#32)))).map (fun t => (t.slot 1, t.out, t.pc))
      = some (stageCA 0x3E800000#32 0xBE000000#32, [], 6) := by decide
/-- V7: `rst s0` after the V3 inputs n = 0 and n = 1. -/
theorem test_rst : pairOf 0 (exec (.rst 0) (withStage 0 (stageCA 0x3E800000#32 0xBE000000#32)))
    = some ([], 0#32, 0#32) := by decide
/-- R113: PROC ignores `cbyp`; a Bypassed slot passes -0 (V5). -/
theorem test_proc_bypassed : pairOf 0 (exec (.proc 0 0x80000000#32) State.reset)
    = some ([0x80000000#32], 0#32, 0#32) := by decide +kernel
/-- R116: `byp s2, 0` on a reset unit. -/
theorem test_byp : bypsOf (exec (.byp 2 false) State.reset) = some [true, true, false, true] := by decide
/-- V8, the first sample: 0.25, and both slots' state (by hand: slot 0 as V3 n = 0, slot 1 has s1 = 0.5 * 0.5). -/
theorem test_cproc :
    (after (exec (.cproc 0x3F800000#32)
        ((withStage 0 (stageCA 0#32 0#32)).setSlot 1 (stageCB 0#32 0#32)))).map
          (fun t => (t.out, (t.slot 0).s1, (t.slot 1).s1))
      = some ([0x3E800000#32], 0x3F000000#32, 0x3E800000#32) := by decide +kernel
/-- E7: with `cbyp` = 1 a NaN payload comes back bit for bit from Active slots. -/
theorem test_cproc_cascade_bypass :
    (after (exec (.cproc 0x7FA00001#32) ((withStage 0 (stageCA 0#32 0#32)).setCbyp true))).map (fun t => t.out)
      = some [0x7FA00001#32] := by decide +kernel
/-- E1: `slope 24`. -/
theorem test_slope : bypsOf (exec (.slope 1) State.reset) = some [false, false, true, true] := by decide
/-- E2: `slope 48` over a non-cumulative pattern. -/
theorem test_slope_cumulative : bypsOf (exec (.slope 3) (withStage 3 (stageID 0#32 0#32)))
    = some [false, false, false, false] := by decide
/-- R143. -/
theorem test_cbyp : (after (exec (.cbyp true) State.reset)).map (fun t => (t.cbyp, t.st, t.pc))
    = some (true, State.reset.st, 1) := by decide
/-- V10: the state of slot 3 is cleared too, the coefficients stay. -/
theorem test_crst : (after (exec .crst (withStage 3 (stageCA 0x3E000000#32 0xBD800000#32)))).map (fun t => t.slot 3)
    = some (stageCA 0#32 0#32) := by decide
/-- V11: T is flushed, the next value above T is kept. -/
theorem test_blk_snap :
    pairOf 0 (exec .blk (withParams (withStage 0 (stageCA 0xB22BCC77#32 0x322BCC78#32))
        { Params.default with snap := some 0x322BCC77#32 })) = some ([], 0#32, 0x322BCC78#32) := by decide
/-- V11: a NaN is flushed, an infinity is kept. -/
theorem test_blk_snap_special :
    pairOf 3 (exec .blk (withParams (withStage 3 (stageCA 0x7FC00000#32 0x7F800000#32))
        { Params.default with snap := some 0x322BCC77#32 })) = some ([], 0#32, 0x7F800000#32) := by decide
/-- V12, P3: STATUS after two errors, twice. -/
theorem test_rdst : (after (exec .rdst afterErrors)).map (fun t => (t.out, t.status))
    = some ([0x00000102#32], { errcode := 2#8, ovf := true }) := by decide

/-! ### One step -/

/-- V12: the all-zero word, then `rdst` next in the stream. -/
theorem test_step_illegal :
    (after (step (offered [0#32, 0xD0000000#32]))).map (fun t => (t.status.word, t.pc, t.stream, t.faultRec))
      = some (0x00000001#32, 1, [0xD0000000#32], some (.illegalOpcode 0#32 0)) := by decide
/-- P3, its second word: RESERVED_FIELD again, so OVF, and the first record stays. -/
theorem test_step_second_error :
    (after (step { afterErrors with status := { errcode := 2#8, ovf := false }, pc := 1, stream := [0x3F800000#32] })).map
        (fun t => (t.status.word, t.pc, t.faultRec))
      = some (0x00000102#32, 2, some (.reservedField 0x10000001#32 0)) := by decide
/-- V7, the truncated LDC: two payload words wait in `pend`, slot 0 is unchanged. -/
theorem test_step_truncated_ldc :
    (after (step (offered [0x20000000#32, 0x3F000000#32, 0x3E800000#32]))).map (fun t => (t.pend, t.st))
      = some (some { head := { op := .ldc, stg := 0, slp := 0, f := false }, got := [0x3F000000#32, 0x3E800000#32] },
          State.reset.st) := by decide
/-- V1: a word that looks like `rdst` is payload while a PROC waits for it. -/
theorem test_step_payload :
    (after (step { State.reset with
        pend := some { head := { op := .proc, stg := 0, slp := 0, f := false }, got := [] },
        stream := [0xD0000000#32] })).map (fun t => (t.out, t.pc, t.pend)) = some ([0xD0000000#32], 2, none) := by
  decide +kernel
/-- R217: no word, no step. -/
theorem test_step_waits : step State.reset = .refused .awaitingWord := rfl
/-- The placed instruction runs as the first step after reset. -/
theorem test_with_fetch_word : bypsOf (step (State.reset.withFetchWord 32 0x4C000000)) = some [true, true, true, false] := by
  decide
/-- P3, read as R208 does: the run stops at `pc` 0 with code 2. -/
theorem test_faulting_step :
    faultingStep (offered [0x10000001#32, 0x3F800000#32]) = .fault (.reservedField 0x10000001#32 0) := rfl
/-- V14. -/
theorem test_hardware_reset : afterErrors.hardwareReset = State.reset := by decide

/-! ### Controller and assembler -/

/-- P5: `cutcfg 12, 0` with the set of V13. -/
theorem test_cutcfg :
    (Asm.assemble (.cutcfg 12 0 [⟨.bits 0x3F695DBE#32, .bits 0xBFE95DBE#32, .bits 0x3F695DBE#32,
        .bits 0xBFE85D19#32, .bits 0x3F54BCC8#32⟩])).map encodeAll
      = some [0x90000000#32, 0x20000000#32, 0x3F695DBE#32, 0xBFE95DBE#32, 0x3F695DBE#32, 0xBFE85D19#32, 0x3F54BCC8#32,
          0xA0000000#32] := by decide
/-- V8: 0.3 assembles to 0x3E99999A. -/
theorem test_decimal_literal : (F32Lit.dec false 3 (-1)).word = 0x3E99999A#32 := by decide +kernel
/-- R188: `ON_SLOPE_CHANGE` clears when n changed from 2 to 1. -/
theorem test_clear_on_slope_change :
    clearingCommands .onSlopeChange { UnitView.initial with active := some 2 } [CoefSet.identity] = [.crst] := by decide
/-- R188: `ON_VALUE_CHANGE` keeps an unchanged Active slot and clears one that was Bypassed. -/
theorem test_clear_on_value_change :
    clearingCommands .onValueChange { UnitView.initial with active := some 1 } [CoefSet.identity, CoefSet.identity]
      = [.rst 1] := by decide
/-- R235: a load inside a block breaks the discipline. -/
theorem test_discipline_broken : blockDisciplined false [.cproc 0#32, loadCommand 0 CoefSet.identity] = false := by decide
/-- R182: samples without a configuration break the order of duties, and so do two snapshots before one block. -/
theorem test_duties :
    dutiful (K := ℚ) .unprepared [.prepare 48000, .process []] = false ∧
    dutiful (K := ℚ) .betweenBlocks
      [.updateFromSettings ⟨20, 20000, 12, 12, false, false⟩, .updateFromSettings ⟨20, 20000, 24, 12, false, false⟩]
        = false ∧
    dutiful (K := ℚ) .unprepared
      [.prepare 48000, .updateFromSettings ⟨20, 20000, 12, 12, false, false⟩, .process []] = true := by decide
/-- R175: a load may be left out where the words are the slot's own, not where they differ. -/
theorem test_skip_unchanged_load :
    loadCommandsSkipping [true, true] 0 [CoefSet.identity, { CoefSet.identity with b0 := 0x3F000000#32 }]
      [CoefSet.identity, CoefSet.identity] = [loadCommand 1 { CoefSet.identity with b0 := 0x3F000000#32 }] := by decide
/-- R182: RDST before the first and after the last command. -/
theorem test_insert_reads : insertReads [1, 0, 1] [.crst, .blk] = [.rdst, .crst, .blk, .rdst] := by decide
/-- R238: a double pole at z = 1 (V5's unstable set) is not stable, the set CA is. -/
theorem test_stable :
    CoefSet.stable ⟨0x3F800000#32, 0#32, 0#32, 0xC0000000#32, 0x3F800000#32⟩ = false ∧
    CoefSet.stable ⟨0x3F000000#32, 0x3E800000#32, 0x3E000000#32, 0xBF000000#32, 0x3E800000#32⟩ = true := by decide +kernel
/-- R10: the default clearing policy is NEVER. -/
theorem test_default_policy : (Driver.initial (K := ℚ)).policy = .never := by decide
/-- R181: `prepare` becomes `crst`, with a status read where the controller takes that liberty. -/
theorem test_perform_prepare :
    ((Driver.initial (K := ℚ)).perform (fun _ _ _ _ => []) .lowPass { op := .prepare 48000, skips := [], reads := [1] }).map
      Prod.snd = some [.rdst, .crst] := by decide +kernel
/-- R75, R230: a reset between two edges abandons a pending command. -/
theorem test_reset_between_edges :
    (Port.event .resetBetweenEdges { Port.reset with unit := pendingLdc [1#32] [] }).unit.pend = none := by decide

/-- No liberty towards any unit. -/
def noLiberties : PerUnit Liberty :=
  { lcLeft := Liberty.none, lcRight := Liberty.none, hcLeft := Liberty.none, hcRight := Liberty.none }
/-- A reset design whose controller stands at a phase, sample rate 48000 Hz. -/
def chainAt (phase : DutyPhase) : Chain ℚ :=
  let driver : Driver ℚ := { fs := some 48000, policy := .never, view := UnitView.initial, phase := phase }
  { units := Design.reset, drivers := ⟨driver, driver, driver, driver⟩ }
/-- R68, R177: one snapshot reaches all four units, the low-cut flag the low-cut units, the high-cut flag the high-cut
ones, and its slopes likewise. -/
theorem test_one_snapshot :
    (((chainAt .betweenBlocks).perform (fun _ _ _ n => List.replicate n CoefSet.identity)
        (.updateFromSettings ⟨20, 20000, 12, 24, false, true⟩ noLiberties)).map fun r =>
          UnitId.all.map fun u => ((r.2.units.get u).cbyp, (r.2.units.get u).pc, ((r.2.units.get u).slot 1).byp))
      = some [(false, 8, true), (false, 8, true), (true, 14, false), (true, 14, false)] := by decide +kernel
/-- R178: an unconfigured pair of units passes a sample of each channel through both; the low-cut's response is the
high-cut's payload. -/
theorem test_channel_block :
    (((chainAt .configured).perform (fun _ _ _ _ => []) (.process [(0x80000000#32, 0x7FA00001#32)] noLiberties)).map fun r =>
        (r.1, r.2.units.hcRight.out)) = some ([(0x80000000#32, 0x7FA00001#32)], [0x7FA00001#32]) := by decide +kernel
/-- R215: a hardware reset of the design resets all four units together. -/
theorem test_design_reset :
    (Design.hardwareReset ⟨afterErrors, afterErrors, pendingLdc [] [], afterErrors⟩)
      = ⟨State.reset, State.reset, State.reset, State.reset⟩ := by decide
/-- V13: the two calls of the reference design that are refused give no set. -/
theorem test_design_undefined :
    DesignFunction.default .lowPass 20000 40000 1 = [] ∧ DesignFunction.default .highPass 0 48000 1 = [] :=
  ⟨referenceDesign_of_not_defined _ (by norm_num), referenceDesign_of_not_defined _ (by norm_num)⟩
/-- R13, R14, by hand: 1 is a pattern's value; 0.1 is 1.6 times 2^-4, its fraction 5033164.8 rounds to 0x4CCCCD. -/
theorem test_round_real : roundReal 1 = 0x3F800000#32 ∧ roundReal (-(1 / 10)) = 0xBDCCCCCD#32 := by
  have one : |(1 : ℝ)| * 2 ^ 149 = (2 ^ 149 : ℕ) / (1 : ℕ) := by norm_num
  have tenth : |(-(1 / 10) : ℝ)| * 2 ^ 149 = (2 ^ 149 : ℕ) / (10 : ℕ) := by rw [abs_neg]; norm_num
  rw [roundReal, roundReal, one, tenth, roundMagReal_div _ (by norm_num), roundMagReal_div _ (by norm_num)]
  norm_num only [decide_true, decide_false]
  decide +kernel

/-! ### Witnesses: each statement's hypotheses are met -/

theorem witness_DecodeEncodeRoundTrip : (Instr.proc 3 0x7FA00001#32).wellFormed = true := by decide
theorem witness_EncodeDecodeRoundTrip :
    decode [0x48000001#32, 0x10000000#32] = .command (.byp 2 true) [0x10000000#32] := by decide
theorem witness_DecodeWordCases :
    decodeWord 0x6FFFFFFF#32 = .error .illegalOpcode ∧ decodeWord 0x10000001#32 = .error .reservedField ∧
    decodeWord 0x4C000001#32 = .ok { op := .byp, stg := 3, slp := 0, f := true } ∧
    (pendingLdc [] [0#32]).pend ≠ none ∧ (pendingLdc [] [0#32]).stream ≠ [] := by decide
theorem witness_LegalCommandWords :
    (Op.byp, 0x4C000001#32) ∈ legalCommandWords ∧ ∀ op : Op, (op, 0x4C000002#32) ∉ legalCommandWords := by
  refine ⟨by decide, fun op => ?_⟩
  cases op <;> decide
theorem witness_ByteTransportRoundTrip : ([0x01#8, 0x02#8, 0x03#8] : List Byte).length < 4 := by decide
theorem witness_StepRunsDecodedCommand :
    (offered [0x30000000#32]).pend = none ∧ decode (offered [0x30000000#32]).stream = .command (.rst 0) [] ∧
    (offered [0x30000000#32]).stream = encode (.rst 0) ++ [] := by decide
theorem witness_PendingCommandTakesPayload_completes :
    (pendingLdc [1#32, 2#32, 3#32, 4#32] [5#32]).pend = some ⟨⟨.ldc, 0, 0, false⟩, [1#32, 2#32, 3#32, 4#32]⟩ ∧
    Pending.wf ⟨⟨.ldc, 0, 0, false⟩, [1#32, 2#32, 3#32, 4#32]⟩ = true ∧ Op.ldc.payloadWords ≤ 4 + 1 := by decide
theorem witness_PendingCommandTakesPayload_waits :
    (pendingLdc [1#32, 2#32, 3#32] [4#32]).stream ≠ [] ∧ Pending.wf ⟨⟨.ldc, 0, 0, false⟩, [1#32, 2#32, 3#32]⟩ = true ∧
    3 + 1 < Op.ldc.payloadWords := by decide
theorem witness_PendingCommandTakesPayload_starts :
    (offered [0x20000000#32, 1#32, 2#32, 3#32, 4#32]).pend = none ∧
    decodeWord 0x20000000#32 = .ok ⟨.ldc, 0, 0, false⟩ ∧ [1#32, 2#32, 3#32, 4#32].length < Op.ldc.payloadWords := by decide
theorem witness_StepWaitsOnlyWithoutWords :
    State.reset.stream = [] ∧ (offered [0#32]).stream ≠ [] := by decide
theorem witness_StepIsTransfers :
    (offered [0x10000000#32, 0#32]).pendWf = true ∧ ∃ t, step (offered [0x10000000#32, 0#32]) = .next t :=
  ⟨by decide, _, rfl⟩
theorem witness_FeedExecutesCommands : State.reset.pend = none := by decide
theorem witness_GoodRunsAreCommandRuns :
    State.reset.pend = none ∧ EndsGood (encodeAll [.rst 0, .crst]) State.reset
      ((State.reset.setSlot 0 (State.reset.slot 0).clear).advance 2) := ⟨rfl, ⟨rfl, rfl⟩, rfl⟩
theorem witness_IllegalOpcodeRecorded :
    (offered [0xFFFFFFFF#32, 1#32]).pend = none ∧
    (0xFFFFFFFF#32 : Word).extractLsb' 28 4 ∈ [0x0#4, 0x5#4, 0x6#4, 0x7#4, 0xE#4, 0xF#4] := by decide
theorem witness_ReservedFieldRecorded :
    (0x40000002#32 : Word).extractLsb' 28 4 = Op.byp.code ∧ (0x40000002#32 : Word) &&& ~~~Op.byp.usedMask ≠ 0#32 := by
  decide
theorem witness_FirstErrorIsSticky :
    (∃ t, Host.Core.run Sys2Proof.core 1 { afterErrors with stream := [0#32] } = .next t) ∧
    afterErrors.status.errcode ≠ 0#8 ∧ afterErrors.status.ovf = true ∧
    afterErrors.faultRec = some (.reservedField 0x10000001#32 0) := ⟨⟨_, rfl⟩, by decide, by decide, by decide⟩
theorem witness_FaultingStepStopsAtFirstError :
    State.reset.faultRec = none ∧ fetch (offered [0#32]) = .rejected .illegalOpcode 0#32 [] ∧
    fetch (offered [0x10000001#32]) = .rejected .reservedField 0x10000001#32 [] ∧
    fetch (offered [0xD0000000#32]) = .command .rdst [] ∧
    fetch (offered [0x80000000#32]) = .incomplete ⟨.cproc, 0, 0, false⟩ [] ∧ fetch State.reset = .empty := by decide
theorem witness_TransposedStageStep : Params.default.form = .tdf2 := by decide
theorem witness_DirectFormTwoStageStep : ({ Params.default with form := .df2 } : Params).form = .df2 := by decide
theorem witness_BypassedProcPassesInput :
    (State.reset.slot 2).byp = true ∧ State.reset.params.bypass = .frozen ∧
    (withParams State.reset { Params.default with bypass := .running }).params.bypass = .running := by decide
theorem witness_NanStatePersists_s1 :
    ((withStage 1 (stageCA 0x7FC00000#32 0#32)).slot 1).byp = false ∧
    isNaN ((withStage 1 (stageCA 0x7FC00000#32 0#32)).slot 1).s1 = true := by decide
theorem witness_NanStatePersists_s2_df2 :
    let s := withParams (withStage 1 (stageCA 0#32 0xFF800001#32)) { Params.default with form := .df2 }
    (s.slot 1).byp = false ∧ s.params.form = .df2 ∧ isNaN (s.slot 1).s2 = true := by decide
theorem witness_NanStatePersists_s2_tdf2 :
    let s := withStage 1 (stageCA 0#32 0xFF800001#32)
    (s.slot 1).byp = false ∧ s.params.form = .tdf2 ∧ isNaN (s.slot 1).s2 = true := by decide
theorem witness_NanInputPoisonsState :
    (withStage 0 (stageCA 0#32 0#32)).params.form = .tdf2 ∧ ((withStage 0 (stageCA 0#32 0#32)).slot 0).byp = false ∧
    isNaN 0x7F800001#32 = true := by decide
theorem witness_CascadeBypassPassesInput :
    (State.reset.setCbyp true).cbyp = true ∧ (State.reset.setCbyp true).params.bypass = .frozen ∧
    (withParams (State.reset.setCbyp true) { Params.default with bypass := .running }).params.bypass = .running := by decide
theorem witness_BypassedSlotsPassInput : ∀ k, (State.reset.slot k).byp = true := by decide
theorem witness_SlopePatternPersists :
    (∀ i ∈ [Instr.crst, .cbyp true, .cproc 0#32], (∀ k f, i ≠ .byp k f) ∧ ∀ c', i ≠ .slope c') ∧
    ∃ t, execAll [.slope 0, .crst, .cbyp true, .cproc 0#32] State.reset = .next t := by
  refine ⟨fun i hi => ?_, _, rfl⟩
  simp at hi
  rcases hi with rfl | rfl | rfl <;> simp
theorem witness_CbypSetsCascadeBypass : State.reset.params.bypass = .frozen := by decide
theorem witness_CrstClearsEverySlot : List.Perm ([2, 0, 3, 1] : List Slot) [0, 1, 2, 3] := by decide
theorem witness_SnapComparesValues :
    thresholdWellFormed 0x322BCC77#32 = true ∧ isFinite 0x322BCC77#32 = true ∧ isFinite 0xB22BCC77#32 = true ∧
    isInf 0xFF800000#32 = true := by decide
theorem witness_CommandsKeepControl : ∃ t, exec .rdst afterErrors = .next t := ⟨_, rfl⟩
theorem witness_OnlyLdcWritesCoefficients :
    (∃ t, exec (.ldc 1 0#32 0#32 0#32 0#32 0#32) State.reset = .next t) ∧
    ∀ b0 b1 b2 a1 a2, Instr.ldc 1 0#32 0#32 0#32 0#32 0#32 ≠ .ldc 0 b0 b1 b2 a1 a2 :=
  ⟨⟨_, rfl⟩, by intros; simp⟩
theorem witness_WhoWritesStateRegisters :
    (∃ t, exec (.rst 1) State.reset = .next t) ∧ Instr.rst 1 ≠ .rst 0 ∧ Instr.rst 1 ≠ .crst ∧ Instr.rst 1 ≠ .blk ∧
    (∀ x, Instr.rst 1 ≠ .proc 0 x) ∧ (∀ x, Instr.rst 1 ≠ .cproc x) ∧ State.reset.params.bypass = .frozen ∧
    (State.reset.slot 0).byp = true :=
  ⟨⟨_, rfl⟩, by decide, by decide, by decide, by simp, by simp, by decide, by decide⟩
theorem witness_WhoWritesBypassBits :
    (∃ t, exec (.byp 1 false) State.reset = .next t) ∧ (∀ f, Instr.byp 1 false ≠ .byp 0 f) ∧
    (∀ c, Instr.byp 1 false ≠ .slope c) ∧ ∀ f, Instr.byp 1 false ≠ .cbyp f :=
  ⟨⟨_, rfl⟩, by simp, by simp, by simp⟩
theorem witness_ResponseWordsPerCommand : fetch (offered [0x94000000#32]) = .rejected .reservedField 0x94000000#32 [] := by
  decide
theorem witness_PcAdvancesByLength :
    (∃ t, exec (.cproc 0#32) State.reset = .next t) ∧ fetch (offered [0#32]) = .rejected .illegalOpcode 0#32 [] :=
  ⟨⟨_, rfl⟩, by decide⟩
theorem witness_ConfigurationCommandsIdempotent : (Instr.byp 0 true).op = .byp ∧ Instr.crst.op = .crst := by decide
theorem witness_StepKeepsInvariant :
    { afterErrors with stream := [0xD0000000#32] }.Inv ∧
    ∃ t, step { afterErrors with stream := [0xD0000000#32] } = .next t :=
  ⟨⟨by decide, by decide, by decide⟩, _, rfl⟩
theorem witness_FmulSpecialValues :
    isNaN 0xFFC00001#32 = true ∧ isInf 0xFF800000#32 = true ∧ isZero 0x80000000#32 = true ∧
    isNaN 0x00000001#32 = false ∧ isZero 0x00000001#32 = false ∧ isFinite 0x7F7FFFFF#32 = true := by decide
theorem witness_FaddSpecialValues :
    isNaN 0x7F800001#32 = true ∧ isInf 0x7F800000#32 = true ∧ isInf 0xFF800000#32 = true ∧
    signBit 0x7F800000#32 ≠ signBit 0xFF800000#32 ∧ isFinite 0x007FFFFF#32 = true ∧ isZero 0x00000000#32 = true ∧
    isZero 0x3F800000#32 = false ∧ units 0x00800000#32 + units 0x80800000#32 = 0 := by decide
theorem hasValue_plusOne : HasValue plusOne 1 := by
  have h : units plusOne = 2 ^ 149 := by decide +kernel
  refine ⟨by decide, ?_⟩
  rw [h]; norm_num
theorem witness_FmulCorrectlyRounded : HasValue plusOne 1 ∧ (1 : ℝ) * 1 ≠ 0 := ⟨hasValue_plusOne, by norm_num⟩
theorem witness_FaddCorrectlyRounded : HasValue plusOne 1 ∧ (1 : ℝ) + 1 ≠ 0 := ⟨hasValue_plusOne, by norm_num⟩
theorem hasValue_plusZero : HasValue plusZero 0 := by
  have h : units plusZero = 0 := by decide
  refine ⟨by decide, ?_⟩
  rw [h]; norm_num
/-- The reset set on the input 1.0 from zero state: every exact part is 0 or 1. -/
theorem witness_StageArithmeticIsExactWhenRepresentable (form : Form) :
    let c : ExactSet := ⟨1, 0, 0, 0, 0⟩
    let g := Stage.reset
    HasSet g.b0 g.b1 g.b2 g.a1 g.a2 c ∧ HasValue g.s1 0 ∧ HasValue g.s2 0 ∧ HasValue plusOne 1 ∧
    ∀ v ∈ exactParts form c 0 0 1, Representable v := by
  refine ⟨⟨hasValue_plusOne, hasValue_plusZero, hasValue_plusZero, hasValue_plusZero, hasValue_plusZero⟩,
    hasValue_plusZero, hasValue_plusZero, hasValue_plusOne, fun v hv => ?_⟩
  have h : v = 1 ∨ v = 0 := by cases form <;> simp [exactParts] at hv <;> tauto
  rcases h with rfl | rfl
  · exact ⟨_, hasValue_plusOne⟩
  · exact ⟨_, hasValue_plusZero⟩
/-- A low-pass at 1000 Hz and a high-pass at 1000 Hz, 48000 Hz, one and two stages, with the test frequencies of R189. -/
theorem witness_SteepnessIsMonotonicInStopband (kind : CutKind) :
    (1 : ℕ) ≤ 2 ∧ (∃ cs, IsExactDesign kind 1000 48000 1 cs) ∧ (∃ ds, IsExactDesign kind 1000 48000 2 ds) ∧
    InStopband kind 1000 48000 (match kind with | .highPass => 250 | .lowPass => 4000) := by
  refine ⟨by norm_num, ⟨_, ⟨by norm_num, by norm_num, by norm_num, by norm_num⟩, rfl⟩,
    ⟨_, ⟨by norm_num, by norm_num, by norm_num, by norm_num⟩, rfl⟩, ?_⟩
  · cases kind <;> simp only [InStopband] <;> norm_num
theorem witness_PortKeepsResponseOrder :
    Port.reset.unit.out = Port.reset.taken ++ Port.reset.waiting.toList ∧
    (let p : Port := { unit := (State.reset.emit 7#32).emit 8#32, waiting := some 8#32, taken := [7#32] }
     p.unit.out = p.taken ++ p.waiting.toList ∧ p.waiting.isSome = true) := by decide
theorem witness_UnitsAreIndependent :
    UnitId.lcLeft ≠ UnitId.hcLeft ∧ ∃ d₁ d₂, Design.reset.feed .lcLeft [0xB0000000#32] = .next d₁ ∧
      d₁.feed .hcLeft [0#32] = .next d₂ := ⟨by decide, _, _, rfl, rfl⟩
theorem identity_stable : CoefSet.identity.stable = true := by decide
theorem witness_DutifulControllerIsAccepted :
    let st : Settings ℝ := ⟨20, 20000, 12, 48, false, true⟩
    let ms : List (Move ℝ) :=
      [⟨.prepare 44100, [], [1]⟩, ⟨.updateFromSettings st, [true], []⟩, .plain (.process [0#32]), .plain .reset]
    let design : CutKind → ℝ → ℝ → Nat → List CoefSet := fun _ _ _ n => List.replicate n CoefSet.identity
    dutiful .unprepared (ms.map Move.op) = true ∧
    (∀ m ∈ ms, ∀ fs, m.op = .prepare fs → 40000 < fs ∧ ∀ (k : CutKind) (f : ℝ) (n : Nat), 20 ≤ f → f ≤ 20000 →
      1 ≤ n → n ≤ 4 → (design k f fs n).length = n ∧ (design k f fs n).all CoefSet.stable = true) ∧
    (∀ m ∈ ms, ∀ st, m.op = .updateFromSettings st → st.inRange = true) := by
  refine ⟨rfl, fun m hm fs hfs => ⟨?_, fun _ _ n _ _ _ _ => ?_⟩, fun m hm st hst => ?_⟩
  · simp only [List.mem_cons, List.not_mem_nil, or_false] at hm
    rcases hm with rfl | rfl | rfl | rfl <;> cases hfs
    norm_num
  · simp [identity_stable]
  · simp only [List.mem_cons, List.not_mem_nil, or_false] at hm
    rcases hm with rfl | rfl | rfl | rfl <;> cases hst
    simp only [Settings.inRange, freqLegal, slopeLegal]
    norm_num
theorem witness_DutifulControllerIsAccepted_refused :
    dutiful .unprepared (([.plain (.process [])] : List (Move ℝ)).map Move.op) = false := rfl
theorem witness_SkippedLoadsChangeNothing :
    [CoefSet.identity, CoefSet.identity].length ≤ 4 ∧
    ∀ (k : Slot) (c : CoefSet), UnitView.initial.held[k.val]? = some c →
      (State.reset.slot k).b0 = c.b0 ∧ (State.reset.slot k).b1 = c.b1 ∧ (State.reset.slot k).b2 = c.b2 ∧
      (State.reset.slot k).a1 = c.a1 ∧ (State.reset.slot k).a2 = c.a2 := by
  refine ⟨by decide, fun k c hc => ?_⟩
  fin_cases k <;> cases hc <;> decide
theorem witness_ConfigurationOrderIrrelevant :
    List.Perm [Instr.cbyp true, loadCommand 0 CoefSet.identity, .slope 0]
      (.slope 0 :: loadCommands 0 [CoefSet.identity] ++ [.cbyp true]) := by decide
theorem witness_CutcfgIsCanonicalConfiguration :
    (12 = 12 ∧ 1 < 2 ∧ ([⟨.bits 0#32, .bits 0#32, .bits 0#32, .bits 0#32, .bits 0#32⟩] : List SetLit).length = 12 / 12) ∧
    ¬((13 = 12 ∨ 13 = 24 ∨ 13 = 36 ∨ 13 = 48) ∧ 0 < 2) := by decide

end Sys2Proof.Tests
end

section
/-! PROOFS. The value a pattern denotes (R13), and rounding a number that some pattern denotes (R14). -/

namespace Sys2Proof.Machine

open Sys2Proof

/-! ### The value of a pattern -/

@[simp] theorem magUnits_zero : magUnits 0 = 0 := rfl

@[simp] theorem magUnits_eq_zero_iff (m : Nat) : magUnits m = 0 ↔ m = 0 :=
  magUnits_strictMono.injective.eq_iff' magUnits_zero

theorem natAbs_units (w : Word) : (units w).natAbs = magUnits (magBits w) := by
  rcases units_eq_or w with h | h <;> simp [h]

theorem units_eq_zero_iff (w : Word) : units w = 0 ↔ isZero w = true := by
  rw [isZero_eq_true_iff, ← Int.natAbs_eq_zero, natAbs_units, magUnits_eq_zero_iff]

theorem units_neg_iff {w : Word} (hw : units w ≠ 0) : units w < 0 ↔ signBit w = true := by
  have hpos : 0 < magUnits (magBits w) := by rw [← natAbs_units]; exact Int.natAbs_pos.2 hw
  unfold units
  cases signBit w
  · simp
  · simpa using hpos

theorem units_fneg (w : Word) : units (fneg w) = -units w := by
  unfold units
  rw [signBit_fneg, magBits_fneg]
  cases signBit w <;> simp

theorem isFinite_of_isZero {w : Word} (h : isZero w = true) : isFinite w = true := by
  rw [isZero_eq_true_iff] at h
  rw [isFinite_eq_true_iff, h]; norm_num

theorem isNaN_of_isFinite {w : Word} (h : isFinite w = true) : isNaN w = false := by
  rw [isFinite_eq_true_iff] at h
  rw [isNaN_eq_false_iff]; omega

theorem isInf_of_isFinite {w : Word} (h : isFinite w = true) : isInf w = false := by
  rw [isFinite_eq_true_iff] at h
  rw [isInf_eq_false_iff]; omega

theorem isNaN_of_isInf {w : Word} (h : isInf w = true) : isNaN w = false := by
  rw [isInf_eq_true_iff] at h
  rw [isNaN_eq_false_iff]; omega

theorem isZero_of_isInf {w : Word} (h : isInf w = true) : isZero w = false := by
  rw [isInf_eq_true_iff] at h
  rw [isZero_eq_false_iff]; omega

/-- A zero is its sign and no magnitude. -/
theorem eq_packSign_of_isZero {w : Word} (h : isZero w = true) : w = packSign (signBit w) 0 := by
  rw [← (isZero_eq_true_iff w).1 h, packSign_signBit_magBits]

theorem isZero_packSign_zero (sign : Bool) : isZero (packSign sign 0) = true := by
  rw [isZero_eq_true_iff, magBits_packSign, Nat.zero_mod]

theorem hasValue_of_isZero {w : Word} (h : isZero w = true) : HasValue w 0 :=
  ⟨isFinite_of_isZero h, by rw [(units_eq_zero_iff w).2 h]; simp⟩

theorem hasValue_of_isFinite {w : Word} (h : isFinite w = true) : HasValue w ((units w : ℝ) / 2 ^ 149) := ⟨h, rfl⟩

theorem HasValue.eq_zero_iff {w : Word} {v : ℝ} (h : HasValue w v) : v = 0 ↔ isZero w = true := by
  rw [h.2, ← units_eq_zero_iff]
  simp

theorem HasValue.neg_iff {w : Word} {v : ℝ} (h : HasValue w v) (hv : v ≠ 0) : v < 0 ↔ signBit w = true := by
  have hu : units w ≠ 0 := by rwa [ne_eq, units_eq_zero_iff, ← h.eq_zero_iff]
  rw [← units_neg_iff hu, h.2, div_lt_iff₀ (by positivity), zero_mul, Int.cast_lt_zero]

theorem HasValue.pos_iff {w : Word} {v : ℝ} (h : HasValue w v) (hv : v ≠ 0) : 0 < v ↔ signBit w = false := by
  rw [← Bool.not_eq_true, ← h.neg_iff hv, not_lt, hv.symm.le_iff_lt]

/-- The magnitude in units of 2^-149. -/
theorem HasValue.abs_mul {w : Word} {v : ℝ} (h : HasValue w v) : |v| * 2 ^ 149 = magUnits (magBits w) := by
  rw [h.2, abs_div, abs_of_pos (by positivity : (0 : ℝ) < 2 ^ 149), div_mul_cancel₀ _ (by positivity), ← natAbs_units,
    Nat.cast_natAbs, Int.cast_abs]

/-! ### Rounding what needs no rounding -/

/-- A magnitude that is a pattern's rounds to that pattern. -/
theorem roundMagReal_magUnits {p : Nat} (hp : p ≤ infMag) : roundMagReal (magUnits p) = p := by
  obtain ⟨q, hlo, hhi, hcase⟩ := roundMagReal_cases (Nat.cast_nonneg (magUnits p))
  obtain rfl : q = p := by
    have h1 : q ≤ p := magUnits_strictMono.le_iff_le.1 (by exact_mod_cast hlo)
    have h2 : p < q + 1 := magUnits_strictMono.lt_iff_lt.1 (by exact_mod_cast hhi)
    omega
  rcases hcase with ⟨hr, -⟩ | ⟨-, hn | ⟨hn, -⟩⟩
  · rw [hr, Nat.min_eq_left hp]
  · exfalso; linarith
  · exfalso; linarith

theorem roundMag_zero {den : Nat} (hden : 0 < den) : roundMag 0 den = 0 := by
  have h := roundMagReal_magUnits (Nat.zero_le infMag)
  rwa [magUnits_zero, Nat.cast_zero, ← zero_div (den : ℝ), ← Nat.cast_zero, roundMagReal_div 0 hden] at h

/-- A nonzero number some pattern denotes rounds to that pattern. -/
theorem roundReal_of_hasValue {w : Word} {v : ℝ} (h : HasValue w v) (hv : v ≠ 0) : roundReal v = w := by
  have hfin : magBits w ≤ infMag := ((isFinite_eq_true_iff w).1 h.1).le
  have hsign : decide (v < 0) = signBit w := by rw [Bool.eq_iff_iff, decide_eq_true_iff, h.neg_iff hv]
  rw [roundReal, h.abs_mul, roundMagReal_magUnits hfin, hsign, packSign_signBit_magBits]

/-- What the primitives compute on a nonzero number of magnitude `num / den` units is its rounding (R14). -/
theorem round32_eq_roundReal {sign : Bool} {num den : Nat} {v : ℝ} (hden : 0 < den) (hs : sign = true ↔ v < 0)
    (hm : |v| * 2 ^ 149 = (num : ℝ) / den) : round32 sign num den = roundReal v := by
  have hsign : sign = decide (v < 0) := by rw [Bool.eq_iff_iff, decide_eq_true_iff, hs]
  rw [round32, roundReal, hm, roundMagReal_div num hden, hsign]

end Sys2Proof.Machine
end

section
/-! PROOFS. `fmul` by the classes of its operands (R15), and its rounding (R14). -/

namespace Sys2Proof.Machine

open Sys2Proof

theorem fmul_of_isFinite (nan : Word) {a b : Word} (ha : isFinite a = true) (hb : isFinite b = true) :
    fmul nan a b = round32 (signBit a != signBit b) (magUnits (magBits a) * magUnits (magBits b)) (2 ^ 149) := by
  simp [fmul, isNaN_of_isFinite, isInf_of_isFinite, ha, hb]

theorem fmul_of_isInf_of_isZero (nan : Word) {a b : Word}
    (h : isInf a = true ∧ isZero b = true ∨ isZero a = true ∧ isInf b = true) : fmul nan a b = nan := by
  rcases h with ⟨ha, hb⟩ | ⟨ha, hb⟩ <;> simp [fmul, ha, hb]

theorem fmul_of_isInf (nan : Word) {a b : Word}
    (h : isInf a = true ∧ isNaN b = false ∧ isZero b = false ∨ isInf b = true ∧ isNaN a = false ∧ isZero a = false) :
    fmul nan a b = packSign (signBit a != signBit b) infMag := by
  rcases h with ⟨hi, hn, hz⟩ | ⟨hi, hn, hz⟩ <;> simp [fmul, hi, hn, hz, isNaN_of_isInf, isZero_of_isInf]

/-- A zero times a finite number is a zero, with the exclusive or of the signs (R15). -/
theorem fmul_of_isZero (nan : Word) {a b : Word}
    (h : isZero a = true ∧ isFinite b = true ∨ isFinite a = true ∧ isZero b = true) :
    fmul nan a b = packSign (signBit a != signBit b) 0 := by
  have hfin : isFinite a = true ∧ isFinite b = true :=
    h.elim (.imp_left isFinite_of_isZero) (.imp_right isFinite_of_isZero)
  have hprod : magUnits (magBits a) * magUnits (magBits b) = 0 := by
    rw [Nat.mul_eq_zero, magUnits_eq_zero_iff, magUnits_eq_zero_iff, ← isZero_eq_true_iff, ← isZero_eq_true_iff]
    exact h.imp And.left And.right
  rw [fmul_of_isFinite nan hfin.1 hfin.2, hprod, round32, roundMag_zero (by positivity)]

/-- Where the exact product is not zero, `fmul` is its rounding (R14, R15). -/
theorem fmul_eq_roundReal (nan : Word) {a b : Word} {va vb : ℝ} (ha : HasValue a va) (hb : HasValue b vb)
    (h : va * vb ≠ 0) : fmul nan a b = roundReal (va * vb) := by
  obtain ⟨hva, hvb⟩ := mul_ne_zero_iff.1 h
  rw [fmul_of_isFinite nan ha.1 hb.1]
  refine round32_eq_roundReal (by positivity) ?_ ?_
  · rw [mul_neg_iff, ha.pos_iff hva, hb.neg_iff hvb, ha.neg_iff hva, hb.pos_iff hvb]
    cases signBit a <;> cases signBit b <;> simp
  · have hm : |va * vb| * 2 ^ 149 * 2 ^ 149 = magUnits (magBits a) * magUnits (magBits b) := by
      rw [← ha.abs_mul, ← hb.abs_mul, abs_mul]; ring
    rw [eq_div_iff (by positivity)]
    exact_mod_cast hm

/-- Settles O48, by the classes of the operands. -/
theorem fmulSpecialValues : Obligations.FmulSpecialValues := by
  intro nan a b
  refine ⟨fun h => fmul_of_isNaN nan a b (by simpa using h), fmul_of_isInf_of_isZero nan, fun h => ?_, fun h => ?_⟩
  · rw [fmul_of_isInf nan h, isInf_eq_true_iff]
    exact ⟨by rw [magBits_packSign]; rfl, signBit_packSign _ _⟩
  · rw [fmul_of_isZero nan h]
    exact ⟨isZero_packSign_zero _, signBit_packSign _ _⟩

/-- Settles O50: the product in units is a quotient of naturals, which `roundMag` rounds as R14 rounds a real. -/
theorem fmulCorrectlyRounded : Obligations.FmulCorrectlyRounded := by
  intro nan a b va vb ha hb h
  rw [fmul_eq_roundReal nan ha hb h]
  exact isRound32_roundReal _

end Sys2Proof.Machine
end

section
/-! PROOFS. `fadd` and `fsub` by the classes of their operands (R15), and their rounding (R14). -/

namespace Sys2Proof.Machine

open Sys2Proof

theorem fadd_of_isFinite (nan : Word) {a b : Word} (ha : isFinite a = true) (hb : isFinite b = true) :
    fadd nan a b = if units a + units b = 0 then packSign (isZero a && isZero b && signBit a && signBit b) 0
      else round32 (decide (units a + units b < 0)) (units a + units b).natAbs 1 := by
  simp [fadd, isNaN_of_isFinite, isInf_of_isFinite, ha, hb]

theorem fadd_of_isInf_of_signBit_ne (nan : Word) {a b : Word} (ha : isInf a = true) (hb : isInf b = true)
    (hs : signBit a ≠ signBit b) : fadd nan a b = nan := by
  simp [fadd, ha, hb, isNaN_of_isInf, hs]

theorem fadd_of_isInf_of_signBit_eq (nan : Word) {a b : Word} (ha : isInf a = true) (hb : isInf b = true)
    (hs : signBit a = signBit b) : fadd nan a b = a := by
  simp [fadd, ha, hb, isNaN_of_isInf, hs]

theorem fadd_of_isInf_left (nan : Word) {a b : Word} (ha : isInf a = true) (hb : isFinite b = true) :
    fadd nan a b = a := by
  simp [fadd, ha, isNaN_of_isInf, isNaN_of_isFinite, isInf_of_isFinite, hb]

theorem fadd_of_isInf_right (nan : Word) {a b : Word} (ha : isFinite a = true) (hb : isInf b = true) :
    fadd nan a b = b := by
  simp [fadd, ha, isNaN_of_isInf, isNaN_of_isFinite, isInf_of_isFinite, hb]

/-- An exact zero sum is -0 when both operands are, else +0 (R15). -/
theorem fadd_of_units_add_eq_zero (nan : Word) {a b : Word} (ha : isFinite a = true) (hb : isFinite b = true)
    (h : units a + units b = 0) :
    fadd nan a b = packSign (isZero a && isZero b && signBit a && signBit b) 0 := by
  rw [fadd_of_isFinite nan ha hb, if_pos h]

/-- The sum of two values, in units of 2^-149. -/
theorem HasValue.add_eq {a b : Word} {va vb : ℝ} (ha : HasValue a va) (hb : HasValue b vb) :
    va + vb = ((units a + units b : ℤ) : ℝ) / 2 ^ 149 := by
  rw [ha.2, hb.2, ← add_div, Int.cast_add]

theorem HasValue.add_eq_zero_iff {a b : Word} {va vb : ℝ} (ha : HasValue a va) (hb : HasValue b vb) :
    va + vb = 0 ↔ units a + units b = 0 := by
  rw [ha.add_eq hb, div_eq_zero_iff, or_iff_left (by positivity), Int.cast_eq_zero]

/-- Where the exact sum is not zero, `fadd` is its rounding (R14, R15). -/
theorem fadd_eq_roundReal (nan : Word) {a b : Word} {va vb : ℝ} (ha : HasValue a va) (hb : HasValue b vb)
    (h : va + vb ≠ 0) : fadd nan a b = roundReal (va + vb) := by
  rw [fadd_of_isFinite nan ha.1 hb.1, if_neg (mt (ha.add_eq_zero_iff hb).2 h)]
  refine round32_eq_roundReal one_pos ?_ ?_
  · rw [decide_eq_true_iff, ha.add_eq hb, div_lt_iff₀ (by positivity), zero_mul, Int.cast_lt_zero]
  · rw [ha.add_eq hb, abs_div, abs_of_pos (by positivity : (0 : ℝ) < 2 ^ 149), div_mul_cancel₀ _ (by positivity),
      Nat.cast_natAbs, Int.cast_abs, Nat.cast_one, div_one]

/-- A finite nonzero number and a zero: the exact sum is a number that needs no rounding. -/
theorem fadd_of_isZero (nan : Word) {a b : Word} (ha : isFinite a = true) (hz : isZero a = false)
    (hb : isZero b = true) : fadd nan a b = a ∧ fadd nan b a = a := by
  have hva := hasValue_of_isFinite ha
  have hvb := hasValue_of_isZero hb
  have hne : (units a : ℝ) / 2 ^ 149 ≠ 0 := by rw [ne_eq, hva.eq_zero_iff, hz]; decide
  constructor
  · rw [fadd_eq_roundReal nan hva hvb (by rwa [add_zero]), add_zero, roundReal_of_hasValue hva hne]
  · rw [fadd_eq_roundReal nan hvb hva (by rwa [zero_add]), zero_add, roundReal_of_hasValue hva hne]

/-- Two zeros give -0 only when both are -0 (R15). -/
theorem fadd_of_isZero_of_isZero (nan : Word) {a b : Word} (ha : isZero a = true) (hb : isZero b = true) :
    fadd nan a b = if a = 0x80000000#32 ∧ b = 0x80000000#32 then 0x80000000#32 else 0x00000000#32 := by
  have hsum : units a + units b = 0 := by rw [(units_eq_zero_iff a).2 ha, (units_eq_zero_iff b).2 hb, add_zero]
  rw [fadd_of_units_add_eq_zero nan (isFinite_of_isZero ha) (isFinite_of_isZero hb) hsum, ha, hb,
    eq_packSign_of_isZero ha, eq_packSign_of_isZero hb, signBit_packSign, signBit_packSign]
  cases signBit a <;> cases signBit b <;> decide

/-- Settles O49, by the classes of the operands. -/
theorem faddSpecialValues : Obligations.FaddSpecialValues := by
  intro nan a b
  refine ⟨fun h => fadd_of_isNaN nan a b (by simpa using h), fadd_of_isInf_of_signBit_ne nan,
    fadd_of_isInf_of_signBit_eq nan, fadd_of_isInf_left nan, fadd_of_isInf_right nan, fadd_of_isZero_of_isZero nan,
    fadd_of_isZero nan, fun ha hb hz hsum => ?_, ⟨signBit_fneg a, magBits_fneg a⟩, rfl⟩
  rw [fadd_of_units_add_eq_zero nan ha hb hsum, hz]
  rfl

/-- Settles O51: the sum in units is an integer, which `roundMag` rounds as R14 rounds a real. -/
theorem faddCorrectlyRounded : Obligations.FaddCorrectlyRounded := by
  intro nan a b va vb ha hb h
  rw [fadd_eq_roundReal nan ha hb h]
  exact isRound32_roundReal _

end Sys2Proof.Machine
end

section
/-! PROOFS. The stage step where no primitive rounds (R110, R111, R117). -/

namespace Sys2Proof.Machine

open Sys2Proof

theorem hasValue_roundReal {v : ℝ} (h : Representable v) (hv : v ≠ 0) : HasValue (roundReal v) v := by
  obtain ⟨w, hw⟩ := h
  rwa [roundReal_of_hasValue hw hv]

theorem HasValue.fneg {a : Word} {va : ℝ} (ha : HasValue a va) : HasValue (fneg a) (-va) := by
  refine ⟨?_, ?_⟩
  · rw [isFinite_eq_true_iff, magBits_fneg, ← isFinite_eq_true_iff]; exact ha.1
  · rw [units_fneg, ha.2]; push_cast; ring

theorem HasValue.fmul (nan : Word) {a b : Word} {va vb : ℝ} (ha : HasValue a va) (hb : HasValue b vb)
    (h : Representable (va * vb)) : HasValue (fmul nan a b) (va * vb) := by
  by_cases hv : va * vb = 0
  · have hz : isZero a = true ∧ isFinite b = true ∨ isFinite a = true ∧ isZero b = true :=
      (mul_eq_zero.1 hv).imp (fun h => ⟨ha.eq_zero_iff.1 h, hb.1⟩) (fun h => ⟨ha.1, hb.eq_zero_iff.1 h⟩)
    rw [hv, fmul_of_isZero nan hz]
    exact hasValue_of_isZero (isZero_packSign_zero _)
  · rw [fmul_eq_roundReal nan ha hb hv]
    exact hasValue_roundReal h hv

theorem HasValue.fadd (nan : Word) {a b : Word} {va vb : ℝ} (ha : HasValue a va) (hb : HasValue b vb)
    (h : Representable (va + vb)) : HasValue (fadd nan a b) (va + vb) := by
  by_cases hv : va + vb = 0
  · rw [hv, fadd_of_units_add_eq_zero nan ha.1 hb.1 ((ha.add_eq_zero_iff hb).1 hv)]
    exact hasValue_of_isZero (isZero_packSign_zero _)
  · rw [fadd_eq_roundReal nan ha hb hv]
    exact hasValue_roundReal h hv

theorem HasValue.fsub (nan : Word) {a b : Word} {va vb : ℝ} (ha : HasValue a va) (hb : HasValue b vb)
    (h : Representable (va - vb)) : HasValue (fsub nan a b) (va - vb) := by
  rw [sub_eq_add_neg] at h ⊢
  exact ha.fadd nan hb.fneg h

/-- Settles O25: each primitive on values whose exact result is representable gives that result, in the order of the
form. -/
theorem stageArithmeticIsExactWhenRepresentable : Obligations.StageArithmeticIsExactWhenRepresentable := by
  intro form nan g x c v1 v2 vx hset h1 h2 hx hrep
  obtain ⟨hb0, hb1, hb2, ha1, ha2⟩ := hset
  cases form with
  | tdf2 =>
    simp only [exactParts, List.forall_mem_cons] at hrep
    obtain ⟨r0, r1, r2, r3, r4, r5, r6, r7, r8, -⟩ := hrep
    have hy := (hb0.fmul (nan 0) hx r0).fadd (nan 1) h1 r1
    have ht := (hb1.fmul (nan 2) hx r2).fsub (nan 4) (ha1.fmul (nan 3) hy r3) r4
    exact ⟨hy, ht.fadd (nan 5) h2 r5, (hb2.fmul (nan 6) hx r6).fsub (nan 8) (ha2.fmul (nan 7) hy r7) r8⟩
  | df2 =>
    simp only [exactParts, List.forall_mem_cons] at hrep
    obtain ⟨r0, r1, r2, r3, r4, r5, r6, r7, r8, -⟩ := hrep
    have hw := (hx.fsub (nan 1) (ha1.fmul (nan 0) h1 r0) r1).fsub (nan 3) (ha2.fmul (nan 2) h2 r2) r3
    have hv := (hb0.fmul (nan 4) hw r4).fadd (nan 6) (hb1.fmul (nan 5) h1 r5) r6
    exact ⟨hv.fadd (nan 8) (hb2.fmul (nan 7) h2 r7) r8, hw, h1⟩

end Sys2Proof.Machine
end

section
/-! PROOFS. The comparison of SNAP (R145). -/

namespace Sys2Proof.Machine

open Sys2Proof

/-- A positive threshold has sign 0 and is not a NaN (R145). -/
theorem thresholdWellFormed_cases {t : Word} (h : thresholdWellFormed t = true) :
    signBit t = false ∧ isNaN t = false := by
  simp only [thresholdWellFormed, Bool.and_eq_true, decide_eq_true_eq] at h
  constructor
  · rw [signBit, BitVec.getLsbD, Nat.testBit_lt_two_pow (by omega)]
  · rw [isNaN_eq_false_iff, magBits]; omega

/-- Against a positive threshold the comparison is that of the magnitudes' patterns. -/
theorem absLe_of_threshold {r t : Word} (ht : thresholdWellFormed t = true) (hr : isNaN r = false) :
    absLe r t = decide (magBits r ≤ magBits t) := by
  obtain ⟨hs, hn⟩ := thresholdWellFormed_cases ht
  simp [absLe, hs, hn, hr]

/-- Settles O37: the patterns of magnitudes are in the order of their values. -/
theorem snapComparesValues : Obligations.SnapComparesValues := by
  intro r T hT hfin
  refine ⟨fun hr => ?_, fun hr => ?_⟩
  · have hunits : units T = magUnits (magBits T) := by simp [units, (thresholdWellFormed_cases hT).1]
    rw [absLe_of_threshold hT (isNaN_of_isFinite hr), decide_eq_true_iff, hunits, Int.abs_eq_natAbs, natAbs_units,
      Int.ofNat_le, magUnits_strictMono.le_iff_le]
  · rw [absLe_of_threshold hT (isNaN_of_isInf hr), decide_eq_false_iff_not, not_le, (isInf_eq_true_iff r).1 hr]
    exact (isFinite_eq_true_iff T).1 hfin

end Sys2Proof.Machine
end

section
/-! PROOFS. The units of the design share no state (R11, R67). -/

namespace Sys2Proof.Machine

open Sys2Proof

theorem PerUnit.set_comm {α : Type} (p : PerUnit α) {u v : UnitId} (x y : α) (h : u ≠ v) :
    (p.set u x).set v y = (p.set v y).set u x := by
  revert h
  cases u <;> cases v <;> simp [PerUnit.set]

/-- Words given to a unit of the design are words given to that unit, put back in its place. -/
theorem Design.feed_eq_next_iff {u : UnitId} {ws : List Word} {d d' : Design} :
    d.feed u ws = .next d' ↔ ∃ t, Machine.feed ws (d.get u) = .next t ∧ d' = d.set u t := by
  unfold Design.feed Design.lift
  cases Machine.feed ws (d.get u) <;> simp [eq_comm]

/-- Settles O54: a feed reads and writes its own unit alone, and writes to two places commute. -/
theorem unitsAreIndependent : Obligations.UnitsAreIndependent := by
  intro u v ws vs d d₁ d₂ huv h₁ h₂
  obtain ⟨t, ht, rfl⟩ := Design.feed_eq_next_iff.1 h₁
  obtain ⟨t', ht', rfl⟩ := Design.feed_eq_next_iff.1 h₂
  rw [PerUnit.get_set_of_ne d t huv.symm] at ht'
  refine ⟨fun w hw => PerUnit.get_set_of_ne d t hw, d.set v t', Design.feed_eq_next_iff.2 ⟨t', ht', rfl⟩,
    Design.feed_eq_next_iff.2 ⟨t, ?_, PerUnit.set_comm d t t' huv⟩⟩
  rwa [PerUnit.get_set_of_ne d t' huv]

end Sys2Proof.Machine
end

section
/-! PROOFS. Commands and command words: lengths (R83, R93) and the fields an operation does not use (R91). -/

namespace Sys2Proof

/-- How many response words a command emits (R93). -/
def Instr.responseWords (i : Instr) : Nat := if i.op = .proc ∨ i.op = .cproc ∨ i.op = .rdst then 1 else 0

theorem Instr.responseWords_le_words (i : Instr) : i.responseWords ≤ i.words := by
  unfold Instr.responseWords Instr.words
  split <;> omega

theorem length_encode (i : Instr) : (encode i).length = i.words := by cases i <;> rfl

/-- Bits outside the mask are 0, field by field (R91). -/
theorem extractLsb'_eq_zero_of_masked {w m : Word} {start len : Nat} (h : w &&& m = 0#32)
    (hm : m.extractLsb' start len = BitVec.allOnes len) : w.extractLsb' start len = 0#len := by
  rw [← BitVec.and_allOnes (x := w.extractLsb' start len), ← hm, ← BitVec.extractLsb'_and, h,
    BitVec.extractLsb'_zero]

/-- Outside the fields an operation uses its mask is 0 (R91, R92). -/
theorem Op.usedMask_unused (op : Op) :
    (op.usesStg = false → (~~~op.usedMask).extractLsb' 26 2 = BitVec.allOnes 2) ∧
    (op.usesSlp = false → (~~~op.usedMask).extractLsb' 24 2 = BitVec.allOnes 2) ∧
    (op.usesF = false → (~~~op.usedMask).extractLsb' 0 1 = BitVec.allOnes 1) := by
  cases op <;> decide

/-- A decoded command word has 0 in the fields its operation does not use (R91). -/
theorem decodeWord_unused {w : Word} {h : Header} (hd : decodeWord w = .ok h) :
    (h.op.usesStg = false → h.stg = 0) ∧ (h.op.usesSlp = false → h.slp = 0) ∧
      (h.op.usesF = false → h.f = false) := by
  unfold decodeWord at hd
  split at hd
  · cases hd
  · rename_i op _
    split at hd
    · rename_i hmask
      cases hd
      obtain ⟨hstg, hslp, hf⟩ := Op.usedMask_unused op
      refine ⟨fun hu => ?_, fun hu => ?_, fun hu => ?_⟩
      · exact congrArg BitVec.toFin (extractLsb'_eq_zero_of_masked hmask (hstg hu))
      · exact congrArg BitVec.toFin (extractLsb'_eq_zero_of_masked hmask (hslp hu))
      · simpa [fField] using congrArg (BitVec.getLsbD · 0) (extractLsb'_eq_zero_of_masked hmask (hf hu))
    · cases hd

/-- Only operations without payload use the fields SLP and F. -/
theorem Op.unused_of_payload {op : Op} (h : 0 < op.payloadWords) : op.usesSlp = false ∧ op.usesF = false := by
  revert h
  cases op <;> decide

end Sys2Proof
end

section
/-! PROOFS. What a command leaves alone outside the slots (R36, R42), how far it advances `pc` (R37, R83) and how many
words it emits (R93), said once for all ten commands. -/

namespace Sys2Proof.Machine

open Sys2Proof

/-- What command `i` does to the fields outside the slots: from `s` it leads to `t`. -/
structure CommandFrame (i : Instr) (s t : State) : Prop where
  control : SameControl s t
  pc : t.pc = s.pc + i.words
  cbyp : (∀ f, i ≠ .cbyp f) → t.cbyp = s.cbyp
  out : ∃ ws, t.out = s.out ++ ws ∧ ws.length = i.responseWords

theorem SameControl.refl (s : State) : SameControl s s := ⟨rfl, rfl, rfl, rfl, rfl, rfl⟩

/-- The frame of a command that emits nothing and writes at most slots. -/
theorem CommandFrame.of_slots {i : Instr} (s : State) (f : Slot → Stage → Stage) (h : i.responseWords = 0) :
    CommandFrame i s ((s.mapSlots f).advance i.words) :=
  ⟨.refl s, rfl, fun _ => rfl, [], (List.append_nil _).symm, h.symm⟩

/-- The frame of a command that emits nothing and writes one slot. -/
theorem CommandFrame.of_slot {i : Instr} (s : State) (k : Slot) (g : Stage) (h : i.responseWords = 0) :
    CommandFrame i s ((s.setSlot k g).advance i.words) :=
  ⟨.refl s, rfl, fun _ => rfl, [], (List.append_nil _).symm, h.symm⟩

/-- Every command has a next state, in its frame. -/
theorem exec_next (i : Instr) (s : State) : ∃ t, exec i s = .next t ∧ CommandFrame i s t := by
  cases i with
  | proc k x => exact ⟨_, rfl, .refl s, rfl, fun _ => rfl, [_], rfl, rfl⟩
  | ldc k b0 b1 b2 a1 a2 => exact ⟨_, rfl, .of_slot s k _ rfl⟩
  | rst k => exact ⟨_, rfl, .of_slot s k _ rfl⟩
  | byp k f => exact ⟨_, rfl, .of_slot s k _ rfl⟩
  | cproc x =>
    obtain ⟨hcbyp, hstatus, hpend, hpc, hout, hrec, hstream, hparams, hsource, -⟩ :=
      State.runSlots_keeps [0, 1, 2, 3] s x
    exact ⟨_, rfl, ⟨hstatus, hrec, hpend, hstream, hparams, hsource⟩, congrArg (· + 2) hpc, fun _ => hcbyp, [_],
      congrArg (· ++ [_]) hout, rfl⟩
  | slope c => exact ⟨_, rfl, .of_slots s _ rfl⟩
  | cbyp f => exact ⟨_, rfl, .refl s, rfl, fun h => absurd rfl (h f), [], (List.append_nil _).symm, rfl⟩
  | crst => exact ⟨_, rfl, .of_slots s _ rfl⟩
  | blk =>
    change ∃ t, execBlk s = .next t ∧ _
    unfold execBlk
    cases s.params.snap with
    | none => exact ⟨_, rfl, .refl s, rfl, fun _ => rfl, [], (List.append_nil _).symm, rfl⟩
    | some T => exact ⟨_, rfl, .of_slots s _ rfl⟩
  | rdst => exact ⟨_, rfl, .refl s, rfl, fun _ => rfl, [_], rfl, rfl⟩

theorem CommandFrame.of_exec {i : Instr} {s t : State} (h : exec i s = .next t) : CommandFrame i s t := by
  obtain ⟨u, hu, hframe⟩ := exec_next i s
  rw [hu] at h
  cases h
  exact hframe

theorem stream_of_exec {i : Instr} {s t : State} (h : exec i s = .next t) : t.stream = s.stream := by
  obtain ⟨-, -, -, hstream, -⟩ := (CommandFrame.of_exec h).control
  exact hstream

/-- A step on an erroneous word records the error and does nothing else (R204). -/
theorem step_of_fetch_rejected {s : State} {e : CommandError} {w : Word} {rest : List Word}
    (h : fetch s = .rejected e w rest) : step s = .next ((s.accepted none rest).recordError e w) := by
  rw [step, h, stepFetched]

/-- Settles O39: STATUS and the command stream are in the frame of every command. -/
theorem commandsKeepControl : Obligations.CommandsKeepControl :=
  fun _ _ _ h => (CommandFrame.of_exec h).control

/-- Settles O43: the responses are in the frame of every command; taking an error emits none. -/
theorem responseWordsPerCommand : Obligations.ResponseWordsPerCommand := by
  refine ⟨fun i s => ?_, fun s e w rest h => ⟨_, step_of_fetch_rejected h, rfl⟩⟩
  obtain ⟨t, ht, hframe⟩ := exec_next i s
  obtain ⟨ws, hout, hlen⟩ := hframe.out
  exact ⟨t, ws, ht, hout, hlen⟩

/-- Settles O44: the advance of `pc` is in the frame of every command; an erroneous word is one word long (R83). -/
theorem pcAdvancesByLength : Obligations.PcAdvancesByLength := by
  refine ⟨fun i s t h => ?_, fun s e w rest h => ⟨_, step_of_fetch_rejected h, rfl⟩⟩
  rw [length_encode]
  exact (CommandFrame.of_exec h).pc

end Sys2Proof.Machine
end

section
/-! PROOFS. What a command can do to a slot, said once for all ten commands (R31 to R33, R42, R112). -/

namespace Sys2Proof.Machine

open Sys2Proof

/-- Under FROZEN a bypassed slot keeps everything while slots run, itself among them or not (R112). -/
theorem State.runSlots_slot_of_frozen (ks : List Slot) {s : State} {k : Slot} (x : Word)
    (hp : s.params.bypass = .frozen) (hk : (s.slot k).byp = true) : (s.runSlots ks x).2.slot k = s.slot k := by
  induction ks generalizing s x with
  | nil => rfl
  | cons j ks ih =>
    have hone : (s.runSlot j ((s.slot j).byp || s.cbyp) x).2.slot k = s.slot k := by
      by_cases hkj : k = j
      · subst hkj
        rw [hk, Bool.true_or, State.runSlot_of_not_runs s k true x (by rw [hp]; rfl)]
      · exact State.runSlot_slot_of_ne s _ x hkj
    rw [State.runSlots_cons]
    exact Eq.trans (ih _ hp (hone ▸ hk)) hone

/-- What command `i` can make of slot `k` of a unit in state `s`. -/
inductive SlotEffect (i : Instr) (s : State) (k : Slot) : Stage → Prop
  | kept : SlotEffect i s k (s.slot k)
  /-- A stage step, which a bypassed slot under FROZEN does not take. -/
  | stepped (s1 s2 : Word) (hi : (∃ x, i = .proc k x) ∨ ∃ x, i = .cproc x)
      (hruns : ¬(s.params.bypass = .frozen ∧ (s.slot k).byp = true)) : SlotEffect i s k ((s.slot k).setState s1 s2)
  /-- The state pair cleared or snapped. -/
  | cleared (s1 s2 : Word) (hi : i = .rst k ∨ i = .crst ∨ i = .blk) : SlotEffect i s k ((s.slot k).setState s1 s2)
  | loaded (b0 b1 b2 a1 a2 : Word) (hi : i = .ldc k b0 b1 b2 a1 a2) :
      SlotEffect i s k ((s.slot k).loadSet b0 b1 b2 a1 a2)
  | bypassed (f : Bool) (hi : i = .byp k f ∨ ∃ c, i = .slope c) : SlotEffect i s k ((s.slot k).setByp f)

/-- A write of slot `j` reaches slot `k` only when they are the same. -/
theorem SlotEffect.of_setSlot {i : Instr} {s : State} {j k : Slot} {g : Stage} (h : k = j → SlotEffect i s k g) :
    SlotEffect i s k ((s.setSlot j g).slot k) := by
  rw [State.setSlot_slot]
  split
  · exact h ‹_›
  · exact .kept

/-- PROC and CPROC: a slot of which only the state pair changes, and nothing where it is bypassed under FROZEN. -/
theorem SlotEffect.of_stageStep {i : Instr} {s : State} {k : Slot} {g : Stage}
    (hi : (∃ x, i = .proc k x) ∨ ∃ x, i = .cproc x) (hg : ∃ s1 s2, g = (s.slot k).setState s1 s2)
    (hfrozen : s.params.bypass = .frozen → (s.slot k).byp = true → g = s.slot k) : SlotEffect i s k g := by
  by_cases hruns : s.params.bypass = .frozen ∧ (s.slot k).byp = true
  · rw [hfrozen hruns.1 hruns.2]
    exact .kept
  · obtain ⟨s1, s2, rfl⟩ := hg
    exact .stepped s1 s2 hi hruns

/-- Every command does to a slot one of these. -/
theorem SlotEffect.of_exec {i : Instr} {s t : State} (h : exec i s = .next t) (k : Slot) :
    SlotEffect i s k (t.slot k) := by
  cases i with
  | proc j x =>
    cases h
    change SlotEffect _ s k ((s.runSlot j (s.slot j).byp x).2.slot k)
    by_cases hkj : k = j
    · subst hkj
      refine .of_stageStep (.inl ⟨x, rfl⟩) (State.runSlot_slot s k k _ x) fun hp hk => ?_
      rw [hk, State.runSlot_of_not_runs s k true x (by rw [hp]; rfl)]
    · rw [State.runSlot_slot_of_ne s _ x hkj]
      exact .kept
  | ldc j b0 b1 b2 a1 a2 => cases h; exact .of_setSlot fun hkj => hkj ▸ .loaded _ _ _ _ _ rfl
  | rst j => cases h; exact .of_setSlot fun hkj => hkj ▸ .cleared _ _ (.inl rfl)
  | byp j f => cases h; exact .of_setSlot fun hkj => hkj ▸ .bypassed f (.inl rfl)
  | cproc x =>
    cases h
    change SlotEffect _ s k ((s.runSlots [0, 1, 2, 3] x).2.slot k)
    obtain ⟨-, -, -, -, -, -, -, -, -, hslots⟩ := State.runSlots_keeps [0, 1, 2, 3] s x
    exact .of_stageStep (.inr ⟨x, rfl⟩) (hslots k) fun hp hk => State.runSlots_slot_of_frozen _ x hp hk
  | slope c =>
    cases h
    rw [State.advance_slot, State.mapSlots_slot]
    exact .bypassed _ (.inr ⟨c, rfl⟩)
  | cbyp f => cases h; exact .kept
  | crst =>
    cases h
    rw [State.advance_slot, State.mapSlots_slot]
    exact .cleared _ _ (.inr (.inl rfl))
  | blk =>
    change execBlk s = .next t at h
    unfold execBlk at h
    split at h
    · cases h; exact .kept
    · cases h
      rw [State.advance_slot, State.mapSlots_slot]
      exact .cleared _ _ (.inr (.inr rfl))
  | rdst => cases h; exact .kept

/-- Settles O40: of what a command can do to a slot, only the load writes coefficients. -/
theorem onlyLdcWritesCoefficients : Obligations.OnlyLdcWritesCoefficients := by
  intro i s t k h hldc
  have heffect := SlotEffect.of_exec h k
  generalize t.slot k = g at heffect ⊢
  cases heffect with
  | kept | stepped | cleared | bypassed => exact ⟨rfl, rfl, rfl, rfl, rfl⟩
  | loaded b0 b1 b2 a1 a2 hi => exact absurd hi (hldc b0 b1 b2 a1 a2)

/-- Settles O41: of what a command can do to a slot, only the stage step and the clearing write the state pair. -/
theorem whoWritesStateRegisters : Obligations.WhoWritesStateRegisters := by
  intro i s t k h
  have heffect := SlotEffect.of_exec h k
  generalize t.slot k = g at heffect ⊢
  cases heffect with
  | kept | loaded | bypassed => exact ⟨fun _ _ _ _ _ => ⟨rfl, rfl⟩, fun _ _ _ _ _ => ⟨rfl, rfl⟩⟩
  | stepped s1 s2 hi hruns =>
    exact ⟨fun hproc _ hcproc _ _ => absurd hi (by simp [hproc, hcproc]),
      fun hp hk _ _ _ => absurd ⟨hp, hk⟩ hruns⟩
  | cleared s1 s2 hi =>
    exact ⟨fun _ hrst _ hcrst hblk => absurd hi (by simp [hrst, hcrst, hblk]),
      fun _ _ hrst hcrst hblk => absurd hi (by simp [hrst, hcrst, hblk])⟩

/-- Settles O42: of what a command can do to a slot, only BYP and SLOPE write the bypass bit; `cbyp` is in the frame of
every other command than CBYP. -/
theorem whoWritesBypassBits : Obligations.WhoWritesBypassBits := by
  intro i s t h
  refine ⟨fun k hbyp hslope => ?_, (CommandFrame.of_exec h).cbyp⟩
  have heffect := SlotEffect.of_exec h k
  generalize t.slot k = g at heffect ⊢
  cases heffect with
  | kept | stepped | cleared | loaded => rfl
  | bypassed f hi => exact absurd hi (by simp [hbyp, hslope])

end Sys2Proof.Machine
end

section
/-! PROOFS. The cascade through Bypassed slots (R112, R141). -/

namespace Sys2Proof.Machine

open Sys2Proof

/-- Bypassed slots pass their input, under either policy. -/
theorem State.runSlots_fst_of_bypassed (ks : List Slot) {s : State} (x : Word) (h : ∀ k, (s.slot k).byp = true) :
    (s.runSlots ks x).1 = x := by
  induction ks generalizing s with
  | nil => rfl
  | cons k ks ih =>
    rw [State.runSlots_cons, h k, Bool.true_or, State.runSlot_fst_bypassed]
    refine ih fun j => ?_
    obtain ⟨s1, s2, hj⟩ := State.runSlot_slot s k j true x
    rw [hj]
    exact h j

/-- CPROC through Bypassed slots emits its input, under FROZEN with no slot changed. -/
theorem exec_cproc_of_bypassed {s : State} (x : Word) (h : ∀ k, (s.slot k).byp = true) :
    ∃ t, exec (.cproc x) s = .next t ∧ t.out = s.out ++ [x] ∧ t.params = s.params ∧
      (s.params.bypass = .frozen → t.st = s.st) := by
  obtain ⟨-, -, -, -, hout, -, -, hparams, -⟩ := State.runSlots_keeps [0, 1, 2, 3] s x
  refine ⟨_, rfl, ?_, hparams, fun hp => Bank.ext_get fun k => State.runSlots_slot_of_frozen _ x hp (h k)⟩
  rw [State.advance_out, State.emit_out, State.runCascade, hout, State.runSlots_fst_of_bypassed _ x h]

/-- Under FROZEN any list of samples passes Bypassed slots unchanged and changes none of them. -/
theorem execAll_cproc_of_bypassed (xs : List Word) {s : State} (hp : s.params.bypass = .frozen)
    (h : ∀ k, (s.slot k).byp = true) :
    ∃ t, execAll (xs.map .cproc) s = .next t ∧ t.out = s.out ++ xs ∧ t.st = s.st := by
  induction xs generalizing s with
  | nil => exact ⟨s, rfl, (List.append_nil _).symm, rfl⟩
  | cons x xs ih =>
    obtain ⟨u, hu, hout, hparams, hst⟩ := exec_cproc_of_bypassed x h
    have hslots : u.slot = s.slot := congrArg Bank.get (hst hp)
    obtain ⟨t, ht, htout, htst⟩ := ih (hparams ▸ hp) (hslots ▸ h)
    refine ⟨t, ?_, ?_, htst.trans (hst hp)⟩
    · rw [List.map_cons, execAll, hu]
      exact ht
    · rw [htout, hout, List.append_assoc, List.singleton_append]

/-- Settles O31: a Bypassed slot passes its input, and all four of a reset unit are Bypassed, under FROZEN (R43). -/
theorem bypassedSlotsPassInput : Obligations.BypassedSlotsPassInput := by
  refine ⟨fun x s h => ?_, fun xs => execAll_cproc_of_bypassed xs rfl (by decide)⟩
  obtain ⟨t, ht, hout, -, hst⟩ := exec_cproc_of_bypassed x h
  exact ⟨t, ht, hout, hst⟩

end Sys2Proof.Machine
end

section
/-! PROOFS. Steps at a command word and inside a command, and the transfers they consist of (R39, R66, R75). -/

namespace Sys2Proof.Machine

open Sys2Proof

/-! ### A step inside a command -/

theorem Pending.wf_iff (p : Pending) : p.wf = true ↔
    p.got.length < p.head.op.payloadWords ∧ p.head.slp = 0 ∧ p.head.f = false ∧
      (p.head.op.usesStg = false → p.head.stg = 0) := by
  simp [Pending.wf, and_assoc, or_iff_not_imp_left]

theorem Pending.length_lt_of_wf {p : Pending} (h : p.wf = true) : p.got.length < p.head.op.payloadWords :=
  ((Pending.wf_iff p).1 h).1

theorem step_of_fetch_incomplete {s : State} {h : Header} {got : List Word} (hf : fetch s = .incomplete h got) :
    step s = .next (s.accepted (some ⟨h, got⟩) []) := by
  rw [step, hf, stepFetched]

theorem step_of_fetch_command {s : State} {i : Instr} {rest : List Word} (hf : fetch s = .command i rest) :
    step s = exec i (s.accepted none rest) := by
  rw [step, hf, stepFetched]

theorem fetch_of_decodeWord_ok {s : State} {w : Word} {ws : List Word} {h : Header} (hp : s.pend = none)
    (hs : s.stream = w :: ws) (hd : decodeWord w = .ok h) : fetch s = takePayload h ws := by
  rw [fetch_command_position hp, hs, decode, hd]

theorem fetch_of_decodeWord_error {s : State} {w : Word} {ws : List Word} {e : CommandError} (hp : s.pend = none)
    (hs : s.stream = w :: ws) (hd : decodeWord w = .error e) : fetch s = .rejected e w ws := by
  rw [fetch_command_position hp, hs, decode, hd]

/-- With too few words a step holds them all. -/
theorem step_of_payload_lacking {s : State} {p : Pending} (hp : s.pend = some p) (hs : s.stream ≠ [])
    (hlt : p.got.length + s.stream.length < p.head.op.payloadWords) :
    step s = .next (s.accepted (some ⟨p.head, p.got ++ s.stream⟩) []) := by
  apply step_of_fetch_incomplete
  rw [fetch_payload hp hs, takePayload, List.length_append, if_pos hlt]

/-- With the words still needed at hand a step takes those and executes the command. -/
theorem step_of_payload_complete {s : State} {p : Pending} {ws rest : List Word} (hp : s.pend = some p)
    (hs : s.stream = ws ++ rest) (hne : ws ≠ []) (hlen : p.got.length + ws.length = p.head.op.payloadWords) :
    step s = exec (assemble p.head (p.got ++ ws)) (s.accepted none rest) := by
  have hlen' : (p.got ++ ws).length = p.head.op.payloadWords := by rw [List.length_append, hlen]
  apply step_of_fetch_command
  rw [fetch_payload hp (by simp [hs, hne]), hs, ← List.append_assoc, takePayload, if_neg (by simp [← hlen']),
    List.take_left' hlen', List.drop_left' hlen']

/-- The payload words still needed, where the stream has them. -/
theorem needed_payload {p : Pending} {ws : List Word} (hgot : p.got.length < p.head.op.payloadWords)
    (hle : p.head.op.payloadWords ≤ p.got.length + ws.length) :
    ws.take (p.head.op.payloadWords - p.got.length) ≠ [] ∧
    p.got.length + (ws.take (p.head.op.payloadWords - p.got.length)).length = p.head.op.payloadWords := by
  rw [← List.length_pos_iff, List.length_take]
  omega

/-- Settles O8: the fetch takes the payload still needed, or all the words there are. -/
theorem pendingCommandTakesPayload : Obligations.PendingCommandTakesPayload := by
  refine ⟨fun s w ws h hp hs hd hlt => step_of_fetch_incomplete ?_, fun s p hp hwf => ⟨fun hle => ?_, ?_⟩⟩
  · rw [fetch_of_decodeWord_ok hp hs hd, takePayload, if_pos hlt]
  · obtain ⟨hne, hlen⟩ := needed_payload (Pending.length_lt_of_wf hwf) hle
    exact step_of_payload_complete hp (List.take_append_drop _ _).symm hne hlen
  · exact step_of_payload_lacking hp

/-! ### Transfers -/

theorem transfers_one (s : State) : transfers 1 s = transfer s := by
  rw [transfers]
  cases transfer s <;> rfl

theorem transfers_succ {s u : State} (n : Nat) (h : transfer s = .next u) : transfers (n + 1) s = transfers n u := by
  rw [transfers, h]

theorem transfer_of_decodeWord_error {s : State} {w : Word} {ws : List Word} {e : CommandError} (hp : s.pend = none)
    (hs : s.stream = w :: ws) (hd : decodeWord w = .error e) :
    transfer s = .next ((s.accepted none ws).recordError e w) := by
  rw [transfer, hs, hp]
  dsimp only
  rw [acceptWord_command_position rfl, hd]

theorem transfer_of_decodeWord_ok {s : State} {w : Word} {ws : List Word} {h : Header} (hp : s.pend = none)
    (hs : s.stream = w :: ws) (hd : decodeWord w = .ok h) :
    transfer s = if h.op.payloadWords = 0 then exec (assemble h []) (s.accepted none ws)
      else .next (s.accepted (some ⟨h, []⟩) ws) := by
  rw [transfer, hs, hp]
  dsimp only
  rw [acceptWord_command_position rfl, hd]
  rfl

theorem transfer_of_pending {s : State} {h : Header} {got ws : List Word} {w : Word} (hp : s.pend = some ⟨h, got⟩)
    (hs : s.stream = w :: ws) :
    transfer s = if got.length + 1 < h.op.payloadWords then .next (s.accepted (some ⟨h, got ++ [w]⟩) ws)
      else exec (assemble h (got ++ [w])) (s.accepted none ws) := by
  rw [transfer, hs, hp]
  dsimp only
  rw [acceptWord_payload rfl, List.length_append, List.length_singleton]
  rfl

/-- Payload words, transferred one after the other, wait in `pend`; the last one needed executes the command. -/
theorem transfers_payload {s : State} {h : Header} {got ws rest : List Word} (hp : s.pend = some ⟨h, got⟩)
    (hs : s.stream = ws ++ rest) (hne : ws ≠ []) (hle : got.length + ws.length ≤ h.op.payloadWords) :
    transfers ws.length s =
      if got.length + ws.length < h.op.payloadWords then .next (s.accepted (some ⟨h, got ++ ws⟩) rest)
      else exec (assemble h (got ++ ws)) (s.accepted none rest) := by
  induction ws generalizing s got with
  | nil => exact absurd rfl hne
  | cons w ws ih =>
    have hone := transfer_of_pending hp hs
    by_cases hws : ws = []
    · subst hws
      exact (transfers_one s).trans hone
    · have hpos := List.length_pos_iff.2 hws
      have hlen : (got ++ [w]).length + ws.length = got.length + (w :: ws).length := by
        simp only [List.length_append, List.length_cons, List.length_nil]; omega
      rw [List.length_cons] at hle
      rw [if_pos (by omega)] at hone
      rw [List.length_cons, transfers_succ _ hone, ih rfl rfl hws (by rw [hlen]; exact hle), hlen, ← List.append_cons]
      rfl

/-- The words that have gone from the stream between `s` and `t`, at least one, are transfers from `s` to `t`. -/
def ReachedByTransfers (s t : State) : Prop :=
  ∃ taken : List Word, taken ≠ [] ∧ s.stream = taken ++ t.stream ∧ transfers taken.length s = .next t

theorem ReachedByTransfers.one {s t : State} {w : Word} (hs : s.stream = w :: t.stream) (h : transfer s = .next t) :
    ReachedByTransfers s t :=
  ⟨[w], List.cons_ne_nil _ _, hs, (transfers_one s).trans h⟩

theorem ReachedByTransfers.cons {s u t : State} {w : Word} (hs : s.stream = w :: u.stream)
    (h : transfer s = .next u) : ReachedByTransfers u t → ReachedByTransfers s t := by
  rintro ⟨taken, -, hu, ht⟩
  exact ⟨w :: taken, List.cons_ne_nil _ _, by rw [hs, hu]; rfl, (transfers_succ _ h).trans ht⟩

/-- Inside a command a step transfers the payload still needed, or all the words there are. -/
theorem ReachedByTransfers.of_step_payload {s t : State} {p : Pending} (hp : s.pend = some p) (hs : s.stream ≠ [])
    (hgot : p.got.length < p.head.op.payloadWords) (h : step s = .next t) : ReachedByTransfers s t := by
  rcases lt_or_ge (p.got.length + s.stream.length) p.head.op.payloadWords with hlt | hle
  · have hstep := step_of_payload_lacking hp hs hlt
    have htransfers := transfers_payload hp (List.append_nil _).symm hs hlt.le
    rw [if_pos hlt, ← hstep, h] at htransfers
    rw [h] at hstep
    cases hstep
    exact ⟨s.stream, hs, (List.append_nil _).symm, htransfers⟩
  · obtain ⟨hne, hlen⟩ := needed_payload hgot hle
    have hsplit := List.take_append_drop (p.head.op.payloadWords - p.got.length) s.stream
    have hstep := step_of_payload_complete hp hsplit.symm hne hlen
    have htransfers := transfers_payload hp hsplit.symm hne hlen.le
    rw [if_neg hlen.not_lt, ← hstep, h] at htransfers
    rw [hstep] at h
    exact ⟨_, hne, by rw [stream_of_exec h]; exact hsplit.symm, htransfers⟩

/-- After the transfer of a command word the rest of the step is a step inside the command. -/
theorem step_accepted_header {s : State} {w : Word} {ws : List Word} {h : Header} (hp : s.pend = none)
    (hs : s.stream = w :: ws) (hd : decodeWord w = .ok h) (hws : ws ≠ []) :
    step (s.accepted (some ⟨h, []⟩) ws) = step s := by
  rw [step, step, fetch_of_decodeWord_ok hp hs hd, fetch_payload rfl hws]
  rcases takePayload_cases h ws with ⟨-, hcase⟩ | ⟨-, hcase⟩ <;>
    · simp only [List.nil_append, State.accepted_stream, hcase]
      rfl

/-- At a command word a step transfers that word, and where it asks for payload and there is some does the rest as a
step inside the command. -/
theorem ReachedByTransfers.of_step_command_position {s t : State} {w : Word} {ws : List Word} (hp : s.pend = none)
    (hs : s.stream = w :: ws) (h : step s = .next t) : ReachedByTransfers s t := by
  cases hd : decodeWord w with
  | error e =>
    rw [step_of_fetch_rejected (fetch_of_decodeWord_error hp hs hd)] at h
    cases h
    exact .one hs (transfer_of_decodeWord_error hp hs hd)
  | ok hdr =>
    have hone := transfer_of_decodeWord_ok hp hs hd
    have hfetch := fetch_of_decodeWord_ok hp hs hd
    by_cases hzero : hdr.op.payloadWords = 0
    · rw [takePayload, hzero, if_neg (Nat.not_lt_zero _)] at hfetch
      rw [if_pos hzero] at hone
      rw [step_of_fetch_command hfetch] at h
      exact .one (by rw [stream_of_exec h]; exact hs) (hone.trans h)
    · rw [if_neg hzero] at hone
      by_cases hws : ws = []
      · subst hws
        rw [takePayload, List.length_nil, if_pos (Nat.pos_of_ne_zero hzero)] at hfetch
        rw [step_of_fetch_incomplete hfetch] at h
        cases h
        exact .one hs hone
      · rw [← step_accepted_header hp hs hd hws] at h
        exact .cons hs hone (.of_step_payload rfl hws (Nat.pos_of_ne_zero hzero) h)

/-- Settles O10, by whether a command is pending. -/
theorem stepIsTransfers : Obligations.StepIsTransfers := by
  intro s t hwf h
  change ReachedByTransfers s t
  cases hs : s.stream with
  | nil => rw [step, fetch_nil hs] at h; cases h
  | cons w ws =>
    cases hp : s.pend with
    | none => exact ReachedByTransfers.of_step_command_position hp hs h
    | some p =>
      rw [State.pendWf, hp] at hwf
      exact ReachedByTransfers.of_step_payload hp (hs ▸ List.cons_ne_nil w ws) (Pending.length_lt_of_wf hwf) h

end Sys2Proof.Machine
end

section
/-! PROOFS. Hardware reset (R43, R230). -/

namespace Sys2Proof.Machine

open Sys2Proof

theorem State.hardwareReset_slot (s : State) (k : Slot) : s.hardwareReset.slot k = Stage.reset := by
  fin_cases k <;> rfl

/-- Settles O52: hardware reset leaves the values of R43. -/
theorem hardwareResetValues : Obligations.HardwareResetValues := by
  intro s
  refine ⟨fun k => ?_, rfl, rfl, rfl, rfl, rfl, rfl⟩
  rw [State.hardwareReset_slot]
  exact ⟨rfl, rfl, rfl, rfl, rfl, rfl, rfl, rfl⟩

/-- Settles O47: no command is pending, no error recorded and no word emitted. -/
theorem resetHasInvariant : Obligations.ResetHasInvariant := ⟨rfl, rfl, Nat.le_refl _⟩

end Sys2Proof.Machine
end

section
/-! PROOFS. The first error stays recorded (R203, R207, R208). -/

namespace Sys2Proof.Machine

open Sys2Proof

/-- What stays of the error state of `s` in `t`: a code, OVF once set, a record (R203, R208). -/
structure KeepsErrors (s t : State) : Prop where
  errcode : s.status.errcode ≠ 0#8 → t.status.errcode = s.status.errcode
  ovf : s.status.ovf = true → t.status.ovf = true
  faultRec : ∀ f, s.faultRec = some f → t.faultRec = some f

theorem KeepsErrors.of_eq {s t : State} (hstatus : t.status = s.status) (hrec : t.faultRec = s.faultRec) :
    KeepsErrors s t :=
  ⟨fun _ => by rw [hstatus], fun h => by rw [hstatus, h], fun _ h => by rw [hrec, h]⟩

theorem KeepsErrors.trans {s t u : State} (h : KeepsErrors s t) (h' : KeepsErrors t u) : KeepsErrors s u where
  errcode hs := (h'.errcode (by rwa [h.errcode hs])).trans (h.errcode hs)
  ovf hs := h'.ovf (h.ovf hs)
  faultRec f hs := h'.faultRec f (h.faultRec f hs)

theorem KeepsErrors.recordError (s : State) (e : CommandError) (w : Word) : KeepsErrors s (s.recordError e w) where
  errcode hs := by rw [State.recordError_status, Status.record_of_nonzero _ _ hs]
  ovf hs := by
    rw [State.recordError_status, Status.record]
    split
    · exact hs
    · rfl
  faultRec f hs := by rw [State.recordError_faultRec, hs, keepFirst_some]

theorem KeepsErrors.of_step {s t : State} (h : step s = .next t) : KeepsErrors s t := by
  rcases step_next_cases h with ⟨i, rest, -, hexec⟩ | ⟨e, w, rest, -, rfl⟩ | ⟨hd, got, -, rfl⟩
  · obtain ⟨hstatus, hrec, -⟩ := (CommandFrame.of_exec hexec).control
    exact .of_eq hstatus hrec
  · exact (KeepsErrors.of_eq (s := s) (t := s.accepted none rest) rfl rfl).trans (.recordError _ e w)
  · exact .of_eq rfl rfl

theorem run_succ_eq_next {M : Host.Core} {n : Nat} {s t : M.State} (h : M.run (n + 1) s = .next t) :
    ∃ u, M.step s = .next u ∧ M.run n u = .next t := by
  rw [Host.Core.run] at h
  split at h
  next u hu => exact ⟨u, hu, h⟩
  next => cases h
  next => cases h

/-- Settles O15, by induction on the number of steps. -/
theorem firstErrorIsSticky : Obligations.FirstErrorIsSticky := by
  intro n s t h
  suffices hkeeps : KeepsErrors s t from ⟨hkeeps.errcode, hkeeps.ovf, hkeeps.faultRec⟩
  induction n generalizing s with
  | zero => cases h; exact .of_eq rfl rfl
  | succ n ih =>
    obtain ⟨u, hu, hrun⟩ := run_succ_eq_next h
    exact .trans (.of_step hu) (ih u hrun)

end Sys2Proof.Machine
end

section
/-! PROOFS. The invariant of the unit (R35, R39, R83, R93, R203). -/

namespace Sys2Proof.Machine

open Sys2Proof

theorem takePayload_eq_incomplete {h h' : Header} {ws got : List Word} (ht : takePayload h ws = .incomplete h' got) :
    h = h' ∧ ws = got ∧ ws.length < h.op.payloadWords := by
  rcases takePayload_cases h ws with ⟨hlt, hcase⟩ | ⟨-, hcase⟩
  · rw [hcase] at ht
    cases ht
    exact ⟨rfl, rfl, hlt⟩
  · rw [hcase] at ht
    cases ht

/-- What an incomplete fetch leaves in `pend` is a proper part of a command (R39). -/
theorem wf_of_fetch_incomplete {s : State} {h : Header} {got : List Word} (hwf : s.pendWf = true)
    (hf : fetch s = .incomplete h got) : Pending.wf ⟨h, got⟩ = true := by
  cases hs : s.stream with
  | nil => rw [fetch_nil hs] at hf; cases hf
  | cons w ws =>
    cases hp : s.pend with
    | none =>
      cases hd : decodeWord w with
      | error e => rw [fetch_of_decodeWord_error hp hs hd] at hf; cases hf
      | ok hdr =>
        rw [fetch_of_decodeWord_ok hp hs hd] at hf
        obtain ⟨rfl, rfl, hlt⟩ := takePayload_eq_incomplete hf
        obtain ⟨hstg, hslp, hf⟩ := decodeWord_unused hd
        obtain ⟨hnoslp, hnof⟩ := Op.unused_of_payload (Nat.zero_lt_of_lt hlt)
        exact (Pending.wf_iff _).2 ⟨hlt, hslp hnoslp, hf hnof, hstg⟩
    | some p =>
      rw [State.pendWf, hp] at hwf
      rw [fetch_payload hp (hs ▸ List.cons_ne_nil w ws)] at hf
      obtain ⟨rfl, rfl, hlt⟩ := takePayload_eq_incomplete hf
      exact (Pending.wf_iff _).2 ⟨hlt, ((Pending.wf_iff p).1 hwf).2⟩

/-- Every command keeps the invariant: it emits at most as many words as it is long (R83, R93). -/
theorem State.Inv.of_exec {i : Instr} {s t : State} (hs : s.Inv) (h : exec i s = .next t) : t.Inv := by
  obtain ⟨hpend, herror, hout⟩ := hs
  have hframe := CommandFrame.of_exec h
  obtain ⟨hstatus, hrec, hpendEq, -⟩ := hframe.control
  obtain ⟨ws, hws, hlen⟩ := hframe.out
  refine ⟨?_, ?_, ?_⟩
  · rwa [State.pendWf, hpendEq]
  · rwa [State.errorWf, hstatus, hrec]
  · have := Instr.responseWords_le_words i
    rw [hws, List.length_append, hlen, hframe.pc]
    omega

/-- Taking words off the stream keeps the invariant when what is held is a proper part of a command. -/
theorem State.Inv.accepted {s : State} (hs : s.Inv) (p : Option Pending) (rest : List Word)
    (hp : ∀ q, p = some q → q.wf = true) : (s.accepted p rest).Inv := by
  obtain ⟨-, herror, hout⟩ := hs
  refine ⟨?_, herror, hout⟩
  cases p with
  | none => rfl
  | some q => exact hp q rfl

/-- Taking an error keeps the agreement of ERRCODE with the record: the first error sets both, a later one neither. -/
theorem State.errorWf_recordError {s : State} (hs : s.errorWf = true) (e : CommandError) (w : Word) :
    (s.recordError e w).errorWf = true := by
  cases hrec : s.faultRec with
  | none =>
    simp only [State.errorWf, hrec, Bool.and_eq_true, decide_eq_true_eq] at hs
    cases e <;> simp [State.errorWf, hrec, faultOf, Status.record_of_zero _ _ hs.1, errorCode]
  | some f =>
    cases f <;>
      · simp only [State.errorWf, hrec, decide_eq_true_eq] at hs
        simp [State.errorWf, hrec, Status.record, hs]

theorem State.Inv.recordError {s : State} (hs : s.Inv) (e : CommandError) (w : Word) : (s.recordError e w).Inv := by
  obtain ⟨hpend, herror, hout⟩ := hs
  exact ⟨hpend, State.errorWf_recordError herror e w, Nat.le_succ_of_le hout⟩

/-- Settles O46, by what a step can do: run a command, take an error, or hold words. -/
theorem stepKeepsInvariant : Obligations.StepKeepsInvariant := by
  intro s t hs h
  rcases step_next_cases h with ⟨i, rest, -, hexec⟩ | ⟨e, w, rest, -, rfl⟩ | ⟨hdr, got, hf, rfl⟩
  · exact (hs.accepted none rest nofun).of_exec hexec
  · exact (hs.accepted none rest nofun).recordError e w
  · refine hs.accepted _ [] fun q hq => ?_
    cases hq
    obtain ⟨hpend, -, -⟩ := hs
    exact wf_of_fetch_incomplete hpend hf

end Sys2Proof.Machine
end

section
/-! PROOFS. Words on a byte-wide transport (R62, R63). -/

namespace Sys2Proof

/-- The four bytes of a word in the order of R62 make that word. -/
theorem wordOfBytes_extractLsb' (w : Word) :
    wordOfBytes (w.extractLsb' 0 8) (w.extractLsb' 8 8) (w.extractLsb' 16 8) (w.extractLsb' 24 8) = w := by
  have hhigh2 : w.extractLsb' 24 8 ++ w.extractLsb' 16 8 = w.extractLsb' 16 16 :=
    BitVec.extractLsb'_append_extractLsb'_eq_extractLsb' rfl
  have hhigh3 : w.extractLsb' 16 16 ++ w.extractLsb' 8 8 = w.extractLsb' 8 24 :=
    BitVec.extractLsb'_append_extractLsb'_eq_extractLsb' rfl
  have hall : w.extractLsb' 8 24 ++ w.extractLsb' 0 8 = w.extractLsb' 0 32 :=
    BitVec.extractLsb'_append_extractLsb'_eq_extractLsb' rfl
  rw [wordOfBytes, hhigh2, hhigh3, hall, BitVec.extractLsb'_eq_self]

theorem wordsOfBytes_bytesOfWord_append (w : Word) (bs : List Byte) :
    wordsOfBytes (bytesOfWord w ++ bs) = (w :: (wordsOfBytes bs).1, (wordsOfBytes bs).2) := by
  simp only [bytesOfWord, List.cons_append, List.nil_append, wordsOfBytes, wordOfBytes_extractLsb']

/-- Fewer than four bytes hold no whole word (R63). -/
theorem wordsOfBytes_of_length_lt : ∀ {bs : List Byte}, bs.length < 4 → wordsOfBytes bs = ([], bs)
  | [], _ | [_], _ | [_, _], _ | [_, _, _], _ => rfl

/-- Settles O6, by induction on the list of words. -/
theorem byteTransportRoundTrip : Obligations.ByteTransportRoundTrip := by
  refine ⟨fun w => ?_, fun ws tail htail => ?_⟩
  · simp [bytesOfWord, BitVec.extractLsb'_toNat, Nat.shiftRight_eq_div_pow]
  · induction ws with
    | nil => exact wordsOfBytes_of_length_lt htail
    | cons w ws ih => rw [bytesOfWords, List.append_assoc, wordsOfBytes_bytesOfWord_append, ih]

end Sys2Proof
end

section
/-! PROOFS. The words of a command, decoded (R80, R83, R92). -/

namespace Sys2Proof

/-- A command word with 0 in its unused fields decodes to the fields it was made of. -/
theorem decodeWord_commandWord (op : Op) (stg slp : Slot) (f : Bool) (hs : op.usesStg = true ∨ stg = 0)
    (hl : op.usesSlp = true ∨ slp = 0) (hf : op.usesF = true ∨ f = false) :
    decodeWord (commandWord op stg slp f) = .ok ⟨op, stg, slp, f⟩ := by
  obtain ⟨hop, hstg, hslp, hfield⟩ := commandWord_fields op stg slp f
  rw [decodeWord, hop, opOfCode_code]
  dsimp only
  rw [if_pos (commandWord_unused op stg slp f hs hl hf), hstg, hslp, hfield]

/-- The words of a command are a legal command word and the payload it asks for, and assemble to that command. -/
theorem encode_eq_cons (i : Instr) : ∃ w h ps,
    encode i = w :: ps ∧ decodeWord w = .ok h ∧ ps.length = h.op.payloadWords ∧ assemble h ps = i := by
  cases i with
  | proc | ldc | rst =>
    exact ⟨_, _, _, rfl, decodeWord_commandWord _ _ _ _ (.inl rfl) (.inr rfl) (.inr rfl), rfl, rfl⟩
  | byp => exact ⟨_, _, _, rfl, decodeWord_commandWord _ _ _ _ (.inl rfl) (.inr rfl) (.inl rfl), rfl, rfl⟩
  | slope => exact ⟨_, _, _, rfl, decodeWord_commandWord _ _ _ _ (.inr rfl) (.inl rfl) (.inr rfl), rfl, rfl⟩
  | cbyp => exact ⟨_, _, _, rfl, decodeWord_commandWord _ _ _ _ (.inr rfl) (.inr rfl) (.inl rfl), rfl, rfl⟩
  | cproc | crst | blk | rdst =>
    exact ⟨_, _, _, rfl, decodeWord_commandWord _ _ _ _ (.inr rfl) (.inr rfl) (.inr rfl), rfl, rfl⟩

theorem takePayload_append {h : Header} {ps : List Word} (rest : List Word) (hlen : ps.length = h.op.payloadWords) :
    takePayload h (ps ++ rest) = .command (assemble h ps) rest := by
  rw [takePayload, if_neg (by simp [← hlen]), List.take_left' hlen, List.drop_left' hlen]

theorem decode_encode_append (i : Instr) (rest : List Word) : decode (encode i ++ rest) = .command i rest := by
  obtain ⟨w, h, ps, henc, hw, hlen, hasm⟩ := encode_eq_cons i
  rw [henc, List.cons_append, decode, hw]
  dsimp only
  rw [takePayload_append rest hlen, hasm]

end Sys2Proof
end

section
/-! PROOFS. Commands from the stream: one by a step, a list of them word by word (R66, R80, R83). -/

namespace Sys2Proof.Machine

open Sys2Proof

/-- Where no command is pending, taking words off the stream changes the stream alone. -/
theorem State.accepted_of_pend_none {s : State} (rest : List Word) (hp : s.pend = none) :
    s.accepted none rest = { s with stream := rest } := by
  rw [← hp]
  rfl

theorem step_of_decode_command {s : State} {i : Instr} {rest : List Word} (hp : s.pend = none)
    (h : decode s.stream = .command i rest) : step s = exec i { s with stream := rest } := by
  rw [step_of_fetch_command ((fetch_command_position hp).trans h), State.accepted_of_pend_none rest hp]

/-- Settles O7: in command position a fetch decodes the stream, and decoding undoes encoding. -/
theorem stepRunsDecodedCommand : Obligations.StepRunsDecodedCommand :=
  fun _ i rest hp => ⟨step_of_decode_command hp,
    fun hs => step_of_decode_command hp (hs ▸ decode_encode_append i rest)⟩

theorem feed_cons {s t : State} {w : Word} (ws : List Word) (h : acceptWord w s = .next t) :
    feed (w :: ws) s = feed ws t := by
  rw [feed, h]

/-- The payload words still needed, given one after the other, execute the command with the last one. -/
theorem feed_payload_append {s t : State} {h : Header} {got ps : List Word} (ws : List Word)
    (hp : s.pend = some ⟨h, got⟩) (hne : ps ≠ []) (hlen : got.length + ps.length = h.op.payloadWords)
    (hexec : exec (assemble h (got ++ ps)) (s.accepted none s.stream) = .next t) :
    feed (ps ++ ws) s = feed ws t := by
  induction ps generalizing s got with
  | nil => exact absurd rfl hne
  | cons p ps ih =>
    have hone := acceptWord_payload hp p
    have hgot : (got ++ [p]).length + ps.length = h.op.payloadWords := by
      rw [← hlen, List.length_append, List.length_singleton, List.length_cons]; omega
    by_cases hps : ps = []
    · subst hps
      rw [if_neg (by simpa using hgot.ge)] at hone
      exact feed_cons ws (hone.trans hexec)
    · have hpos := List.length_pos_iff.2 hps
      rw [if_pos (by dsimp only; omega)] at hone
      rw [List.cons_append, feed_cons _ hone]
      exact ih rfl hps hgot (by rwa [← List.append_cons])

/-- The words of a command, given one after the other, execute it. -/
theorem feed_encode_append {i : Instr} {s t : State} (ws : List Word) (hp : s.pend = none) (h : exec i s = .next t) :
    feed (encode i ++ ws) s = feed ws t := by
  obtain ⟨w, hdr, ps, henc, hw, hlen, rfl⟩ := encode_eq_cons i
  have hone := acceptWord_command_position hp w
  rw [hw] at hone
  dsimp only at hone
  rw [henc, List.cons_append]
  by_cases hzero : hdr.op.payloadWords = 0
  · obtain rfl := List.length_eq_zero_iff.1 (hlen.trans hzero)
    rw [if_pos hzero] at hone
    exact feed_cons ws (hone.trans h)
  · have hps : ps ≠ [] := mt List.length_eq_zero_iff.2 (hlen ▸ hzero)
    rw [if_neg hzero] at hone
    rw [feed_cons _ hone]
    refine feed_payload_append ws rfl hps ((Nat.zero_add _).trans hlen) ?_
    rwa [List.nil_append, ← hp]

/-- Settles O11, by induction on the list of commands. -/
theorem feedExecutesCommands : Obligations.FeedExecutesCommands := by
  intro is s hp
  induction is generalizing s with
  | nil => rfl
  | cons i is ih =>
    obtain ⟨t, ht, hframe⟩ := exec_next i s
    obtain ⟨-, -, hpend, -⟩ := hframe.control
    rw [encodeAll, feed_encode_append _ hp ht, execAll, ht]
    exact ih t (hpend.trans hp)

end Sys2Proof.Machine
end

section
/-! PROOFS. Configuration commands given twice (R65). -/

namespace Sys2Proof.Machine

open Sys2Proof

@[simp] theorem Bank.set_set (b : Bank) (k : Slot) (g h : Stage) : (b.set k g).set k h = b.set k h := by
  fin_cases k <;> rfl

/-- Rewriting a slot by an idempotent function is idempotent. -/
theorem State.setSlot_idempotent (k : Slot) (g : Stage → Stage) (hg : ∀ x, g (g x) = g x) (s : State) :
    (s.setSlot k (g (s.slot k))).setSlot k (g ((s.setSlot k (g (s.slot k))).slot k)) = s.setSlot k (g (s.slot k)) := by
  rw [State.setSlot_slot_same, hg, State.setSlot, State.setSlot_st, Bank.set_set]
  rfl

/-- Rewriting all slots by idempotent functions is idempotent. -/
theorem State.mapSlots_idempotent (f : Slot → Stage → Stage) (hf : ∀ k x, f k (f k x) = f k x) (s : State) :
    (s.mapSlots f).mapSlots f = s.mapSlots f := by
  have hst : (s.st.mapSlots f).mapSlots f = s.st.mapSlots f := Bank.ext_get fun k => by simp [hf]
  rw [State.mapSlots, State.mapSlots_st, hst]
  rfl

/-- A command that makes an idempotent write which does not read `pc`, repeated, changes `pc` alone. -/
theorem exec_twice_of_idempotent {i : Instr} {write : State → State} {n : Nat}
    (hexec : ∀ s, exec i s = .next ((write s).advance n))
    (hpc : ∀ s, write (s.advance n) = (write s).advance n) (hidem : ∀ s, write (write s) = write s) (s : State) :
    ∃ t u, exec i s = .next t ∧ exec i t = .next u ∧ { u with pc := t.pc } = t :=
  ⟨_, _, hexec s, hexec _, by rw [hpc, hidem]; rfl⟩

/-- Settles O45: each of the six commands makes an idempotent write. -/
theorem configurationCommandsIdempotent : Obligations.ConfigurationCommandsIdempotent := by
  intro i s hop
  cases i with
  | ldc k b0 b1 b2 a1 a2 =>
    exact exec_twice_of_idempotent (fun _ => rfl) (fun _ => rfl)
      (State.setSlot_idempotent k (·.loadSet b0 b1 b2 a1 a2) fun _ => rfl) s
  | rst k =>
    exact exec_twice_of_idempotent (fun _ => rfl) (fun _ => rfl) (State.setSlot_idempotent k (·.clear) fun _ => rfl) s
  | byp k f =>
    exact exec_twice_of_idempotent (fun _ => rfl) (fun _ => rfl)
      (State.setSlot_idempotent k (·.setByp f) fun _ => rfl) s
  | slope c =>
    exact exec_twice_of_idempotent (fun _ => rfl) (fun _ => rfl)
      (State.mapSlots_idempotent (fun k g => g.setByp (slopeByp c k)) fun _ _ => rfl) s
  | cbyp f => exact exec_twice_of_idempotent (write := (·.setCbyp f)) (fun _ => rfl) (fun _ => rfl) (fun _ => rfl) s
  | crst =>
    exact exec_twice_of_idempotent (fun _ => rfl) (fun _ => rfl)
      (State.mapSlots_idempotent (fun _ g => g.clear) fun _ _ => rfl) s
  | proc | cproc | blk | rdst => simp [Instr.op] at hop

end Sys2Proof.Machine
end

section
/-! PROOFS. The response port (R74, R75, R230). -/

namespace Sys2Proof.Machine

open Sys2Proof

theorem Instr.responseWords_le_one (i : Instr) : i.responseWords ≤ 1 := by
  unfold Instr.responseWords
  split <;> decide

/-- An accepted word emits at most one response (R75, R93). -/
theorem acceptWord_next (w : Word) (s : State) :
    ∃ t, acceptWord w s = .next t ∧ ∃ ws, t.out = s.out ++ ws ∧ ws.length ≤ 1 := by
  have silent : ∀ t : State, t.out = s.out → ∃ ws, t.out = s.out ++ ws ∧ ws.length ≤ 1 :=
    fun t ht => ⟨[], by rw [ht, List.append_nil], Nat.zero_le 1⟩
  have executes : ∀ (i : Instr) (u : State), u.out = s.out →
      ∃ t, exec i u = .next t ∧ ∃ ws, t.out = s.out ++ ws ∧ ws.length ≤ 1 := by
    intro i u hu
    obtain ⟨t, ht, hframe⟩ := exec_next i u
    obtain ⟨ws, hout, hlen⟩ := hframe.out
    exact ⟨t, ht, ws, hu ▸ hout, hlen.trans_le (Instr.responseWords_le_one i)⟩
  cases hp : s.pend with
  | none =>
    rw [acceptWord_command_position hp]
    cases decodeWord w with
    | error e => exact ⟨_, rfl, silent _ rfl⟩
    | ok h =>
      dsimp only
      split
      · exact executes _ _ rfl
      · exact ⟨_, rfl, silent _ rfl⟩
  | some p =>
    rw [acceptWord_payload hp]
    split
    · exact ⟨_, rfl, silent _ rfl⟩
    · exact executes _ _ rfl

/-- R75: the words the controller has accepted, then the waiting one, are the words the unit has emitted. -/
def Port.InOrder (p : Port) : Prop := p.unit.out = p.taken ++ p.waiting.toList

theorem Port.inOrder_hardwareReset (p : Port) : p.hardwareReset.InOrder := rfl

theorem Port.InOrder.take {p : Port} (h : p.InOrder) : p.take.InOrder := h.trans (List.append_nil _).symm

theorem toList_head?_of_length_le_one : ∀ {α : Type} {l : List α}, l.length ≤ 1 → l.head?.toList = l
  | _, [], _ | _, [_], _ => rfl

/-- With no word waiting, what an accepted command word emits waits next. -/
theorem Port.InOrder.accept {p : Port} (h : p.InOrder) (hw : p.waiting = none) (w : Word) : (p.accept w).InOrder := by
  obtain ⟨t, ht, ws, hout, hlen⟩ := acceptWord_next w p.unit
  have htaken : p.unit.out = p.taken := by rw [h, hw, Option.toList_none, List.append_nil]
  rw [Port.accept, ht]
  change t.out = p.taken ++ (t.out.drop p.unit.out.length).head?.toList
  rw [hout, List.drop_left, toList_head?_of_length_le_one hlen, htaken]

theorem Port.edge_of_reset {i : PortIn} (h : i.rstN = false) (stall : Bool) (p : Port) :
    p.edge stall i = p.hardwareReset := by
  simp [Port.edge, h]

/-- Out of reset an edge moves the waiting response, or a command word where none waits, or nothing. -/
theorem Port.edge_cases {i : PortIn} (h : i.rstN = true) (stall : Bool) (p : Port) :
    p.edge stall i = p.take ∨ (p.waiting = none ∧ p.edge stall i = p.accept i.cmdData) ∨ p.edge stall i = p := by
  rw [Port.edge, if_pos h]
  split
  · exact .inl rfl
  · split
    next hcmd =>
      simp only [Port.cmdReady, Bool.and_eq_true, Option.isNone_iff_eq_none] at hcmd
      obtain ⟨-, ⟨-, hw⟩, -⟩ := hcmd
      exact .inr (.inl ⟨hw, rfl⟩)
    next => exact .inr (.inr rfl)

theorem Port.InOrder.edge {p : Port} (h : p.InOrder) (stall : Bool) (i : PortIn) : (p.edge stall i).InOrder := by
  cases hr : i.rstN with
  | false => rw [Port.edge_of_reset hr]; exact p.inOrder_hardwareReset
  | true =>
    rcases Port.edge_cases hr stall p with he | ⟨hw, he⟩ | he <;> rw [he]
    · exact h.take
    · exact h.accept hw _
    · exact h

/-- At an edge out of reset the unit does not change while a response waits. -/
theorem Port.edge_unit_of_waiting {p : Port} {i : PortIn} (stall : Bool) (hr : i.rstN = true)
    (hw : p.waiting.isSome = true) : (p.edge stall i).unit = p.unit := by
  rcases Port.edge_cases hr stall p with he | ⟨hnone, -⟩ | he
  · rw [he]; rfl
  · simp [hnone] at hw
  · rw [he]

/-- Settles O53, by what an edge can move. -/
theorem portKeepsResponseOrder : Obligations.PortKeepsResponseOrder := by
  intro p hp
  refine ⟨fun e => ?_, fun stall i => ⟨Port.edge_unit_of_waiting stall, fun hr => ?_⟩, rfl⟩
  · cases e with
    | edge stall i => exact Port.InOrder.edge hp stall i
    | resetBetweenEdges => exact p.inOrder_hardwareReset
  · refine ⟨by simp [Port.rspValid, hr], by simp [Port.cmdReady, hr], ?_⟩
    exact congrArg Port.unit (Port.edge_of_reset hr stall p)

end Sys2Proof.Machine
end

section
/-! PROOFS. Which words decode, and to what (R81, R90 to R92, R96). -/

namespace Sys2Proof

open Sys2Proof.Machine

/-- Settles O1: the words of a command are a legal command word and exactly its payload (`encode_eq_cons`). -/
theorem decodeEncodeRoundTrip : Obligations.DecodeEncodeRoundTrip := fun i rest _ => decode_encode_append i rest

/-- Settles O5: the words written out are the encoded words of the commands. -/
theorem sampleWordsDecode : Obligations.SampleWordsDecode :=
  ⟨decode_encode_append (.proc 3 _) [], decode_encode_append (.ldc 1 _ _ _ _ _) [], decode_encode_append (.rst 1) [],
    decode_encode_append (.byp 2 true) [], decode_encode_append (.cproc _) [], decode_encode_append (.slope 2) [],
    decode_encode_append (.cbyp true) [], decode_encode_append .crst [], decode_encode_append .blk [],
    decode_encode_append .rdst []⟩

/-! ### One word -/

theorem opOfCode_eq_some_iff {c : BitVec 4} {op : Op} : opOfCode c = some op ↔ c = op.code := by
  revert c
  cases op <;> decide

/-- The reserved values of OP (R90). -/
theorem opOfCode_eq_none_iff {c : BitVec 4} : opOfCode c = none ↔
    c = 0x0#4 ∨ c = 0x5#4 ∨ c = 0x6#4 ∨ c = 0x7#4 ∨ c = 0xE#4 ∨ c = 0xF#4 := by
  revert c
  decide

theorem decodeWord_of_opOfCode_eq_none {w : Word} (h : opOfCode (opField w) = none) :
    decodeWord w = .error .illegalOpcode := by
  rw [decodeWord, h]

theorem decodeWord_of_opField {w : Word} {op : Op} (h : opField w = op.code) :
    decodeWord w =
      if w &&& ~~~op.usedMask = 0#32 then .ok ⟨op, stgField w, slpField w, fField w⟩ else .error .reservedField := by
  rw [decodeWord, h, opOfCode_code]

/-- A word that decodes has a defined OP and no 1 outside the fields its operation uses. -/
theorem decodeWord_eq_ok_iff {w : Word} {h : Header} : decodeWord w = .ok h ↔
    opField w = h.op.code ∧ w &&& ~~~h.op.usedMask = 0#32 ∧ stgField w = h.stg ∧ slpField w = h.slp ∧
      fField w = h.f := by
  constructor
  · intro hd
    cases hop : opOfCode (opField w) with
    | none => rw [decodeWord_of_opOfCode_eq_none hop] at hd; cases hd
    | some op =>
      rw [opOfCode_eq_some_iff] at hop
      rw [decodeWord_of_opField hop] at hd
      split at hd
      next hmask => cases hd; exact ⟨hop, hmask, rfl, rfl, rfl⟩
      next => cases hd
  · rintro ⟨hop, hmask, hstg, hslp, hf⟩
    rw [decodeWord_of_opField hop, if_pos hmask, hstg, hslp, hf]

/-- Settles O3: the operation of an OP value has R92's mask, and a pending command's fetch takes payload. -/
theorem decodeWordCases : Obligations.DecodeWordCases := by
  refine ⟨fun w => ?_, fun _ _ => fetch_payload⟩
  intro op mask
  split
  next hreserved => exact decodeWord_of_opOfCode_eq_none (opOfCode_eq_none_iff.2 hreserved)
  next hdefined =>
    obtain ⟨o, ho⟩ := Option.ne_none_iff_exists'.1 (mt opOfCode_eq_none_iff.1 hdefined)
    have hcode : op = o.code := opOfCode_eq_some_iff.1 ho
    have hmask : mask = o.usedMask := by
      simp only [mask, hcode]
      cases o <;> rfl
    rw [hmask, decodeWord_of_opField hcode]
    split
    next => rfl
    next heq => exact ⟨_, if_pos (not_not.1 heq), hcode.symm, rfl, rfl, rfl⟩

/-- A word that is 0 in the bits no operation uses is made of its four fields (R81). -/
theorem commandWord_of_fields {w : Word} {op : Op} (hop : opField w = op.code) (hrsv : w.extractLsb' 1 23 = 0#23) :
    commandWord op (stgField w) (slpField w) (fField w) = w := by
  have hf : BitVec.ofBool (w.getLsbD 0) = w.extractLsb' 0 1 := by
    ext i hi
    obtain rfl := Nat.lt_one_iff.1 hi
    simp
  have hstg : w.extractLsb' 28 4 ++ w.extractLsb' 26 2 = w.extractLsb' 26 6 :=
    BitVec.extractLsb'_append_extractLsb'_eq_extractLsb' rfl
  have hslp : w.extractLsb' 26 6 ++ w.extractLsb' 24 2 = w.extractLsb' 24 8 :=
    BitVec.extractLsb'_append_extractLsb'_eq_extractLsb' rfl
  have hmid : w.extractLsb' 24 8 ++ w.extractLsb' 1 23 = w.extractLsb' 1 31 :=
    BitVec.extractLsb'_append_extractLsb'_eq_extractLsb' rfl
  have hall : w.extractLsb' 1 31 ++ w.extractLsb' 0 1 = w.extractLsb' 0 32 :=
    BitVec.extractLsb'_append_extractLsb'_eq_extractLsb' rfl
  rw [commandWord, ← hop, ← hrsv, fField, hf, opField]
  change w.extractLsb' 28 4 ++ w.extractLsb' 26 2 ++ w.extractLsb' 24 2 ++ w.extractLsb' 1 23 ++ w.extractLsb' 0 1 = w
  rw [hstg, hslp, hmid, hall, BitVec.extractLsb'_eq_self]

/-- No operation uses the bits between SLP and F (R81). -/
theorem Op.usedMask_rsv (op : Op) : (~~~op.usedMask).extractLsb' 1 23 = BitVec.allOnes 23 := by
  cases op <;> decide

theorem decodeWord_eq_commandWord {w : Word} {h : Header} (hd : decodeWord w = .ok h) :
    w = commandWord h.op h.stg h.slp h.f := by
  obtain ⟨hop, hmask, hstg, hslp, hf⟩ := decodeWord_eq_ok_iff.1 hd
  rw [← hstg, ← hslp, ← hf, commandWord_of_fields hop (extractLsb'_eq_zero_of_masked hmask h.op.usedMask_rsv)]

/-- A word listed in R96 has its operation's code and no 1 outside the fields that operation uses. -/
theorem legalCommandWords_fields :
    ∀ p ∈ legalCommandWords, opField p.2 = p.1.code ∧ p.2 &&& ~~~p.1.usedMask = 0#32 := by
  decide

/-- R96 lists every command word with 0 in the fields its operation does not use. -/
theorem commandWord_mem_legalCommandWords (op : Op) (stg slp : Slot) (f : Bool) (hs : op.usesStg = false → stg = 0)
    (hl : op.usesSlp = false → slp = 0) (hf : op.usesF = false → f = false) :
    (op, commandWord op stg slp f) ∈ legalCommandWords := by
  cases op <;> revert stg slp f <;> decide

theorem mem_legalCommandWords_iff {op : Op} {w : Word} :
    (op, w) ∈ legalCommandWords ↔ ∃ h, decodeWord w = .ok h ∧ h.op = op := by
  constructor
  · intro hmem
    obtain ⟨hop, hmask⟩ := legalCommandWords_fields _ hmem
    exact ⟨⟨op, _, _, _⟩, decodeWord_eq_ok_iff.2 ⟨hop, hmask, rfl, rfl, rfl⟩, rfl⟩
  · rintro ⟨h, hd, rfl⟩
    obtain ⟨hs, hl, hf⟩ := decodeWord_unused hd
    rw [decodeWord_eq_commandWord hd]
    exact commandWord_mem_legalCommandWords _ _ _ _ hs hl hf

/-- Settles O4: the list of R96 is what decodes, and every other word is one of the two errors. -/
theorem legalCommandWords_exact : Obligations.LegalCommandWords := by
  refine ⟨rfl, fun w => ⟨fun op => mem_legalCommandWords_iff.symm, fun hnone => ?_⟩⟩
  cases hd : decodeWord w with
  | ok h => exact absurd (mem_legalCommandWords_iff.2 ⟨h, hd, rfl⟩) (hnone h.op)
  | error e =>
    cases e with
    | illegalOpcode => exact .inl rfl
    | reservedField => exact .inr rfl

/-! ### The front of a stream -/

/-- Fields with 0 where the operation uses none, and a payload of its length, are the encoded words of the command
they assemble to. -/
theorem encode_assemble {op : Op} {stg slp : Slot} {f : Bool} {ps : List Word} (hlen : ps.length = op.payloadWords)
    (hs : op.usesStg = false → stg = 0) (hl : op.usesSlp = false → slp = 0) (hf : op.usesF = false → f = false) :
    encode (assemble ⟨op, stg, slp, f⟩ ps) = commandWord op stg slp f :: ps := by
  cases op with
  | proc =>
    obtain ⟨x, rfl⟩ := List.length_eq_one_iff.1 hlen
    rw [hl rfl, hf rfl]; rfl
  | ldc =>
    match ps, hlen with
    | [b0, b1, b2, a1, a2], _ => rw [hl rfl, hf rfl]; rfl
  | cproc =>
    obtain ⟨x, rfl⟩ := List.length_eq_one_iff.1 hlen
    rw [hs rfl, hl rfl, hf rfl]; rfl
  | rst => rw [List.length_eq_zero_iff.1 hlen, hl rfl, hf rfl]; rfl
  | byp => rw [List.length_eq_zero_iff.1 hlen, hl rfl]; rfl
  | slope => rw [List.length_eq_zero_iff.1 hlen, hs rfl, hf rfl]; rfl
  | cbyp => rw [List.length_eq_zero_iff.1 hlen, hs rfl, hl rfl]; rfl
  | crst | blk | rdst => rw [List.length_eq_zero_iff.1 hlen, hs rfl, hl rfl, hf rfl]; rfl

theorem decode_cons_of_ok {w : Word} {h : Header} (ws : List Word) (hd : decodeWord w = .ok h) :
    decode (w :: ws) = takePayload h ws := by
  rw [decode, hd]

theorem decode_cons_of_error {w : Word} {e : CommandError} (ws : List Word) (hd : decodeWord w = .error e) :
    decode (w :: ws) = .rejected e w ws := by
  rw [decode, hd]

/-- Settles O2: the first word is its header's command word, the words after it the payload. -/
theorem encodeDecodeRoundTrip : Obligations.EncodeDecodeRoundTrip := by
  intro ws rest i hdec
  cases ws with
  | nil => cases hdec
  | cons w ws =>
    cases hd : decodeWord w with
    | error e => rw [decode_cons_of_error ws hd] at hdec; cases hdec
    | ok h =>
      rw [decode_cons_of_ok ws hd] at hdec
      rcases takePayload_cases h ws with ⟨-, htake⟩ | ⟨hle, htake⟩ <;> rw [htake] at hdec <;> cases hdec
      obtain ⟨hs, hl, hf⟩ := decodeWord_unused hd
      rw [encode_assemble (List.length_take_of_le hle) hs hl hf, ← decodeWord_eq_commandWord hd, List.cons_append,
        List.take_append_drop]

end Sys2Proof
end

section
/-! PROOFS. Runs that end good (R208, R217, R219). -/

namespace Sys2Proof.Machine

open Sys2Proof

/-! ### Lists of commands -/

theorem SameControl.trans {s t u : State} (h : SameControl s t) (h' : SameControl t u) : SameControl s u := by
  obtain ⟨hstatus, hrec, hpend, hstream, hparams, hsource⟩ := h
  obtain ⟨hstatus', hrec', hpend', hstream', hparams', hsource'⟩ := h'
  exact ⟨hstatus'.trans hstatus, hrec'.trans hrec, hpend'.trans hpend, hstream'.trans hstream,
    hparams'.trans hparams, hsource'.trans hsource⟩

/-- Every list of commands has a next state, in the frame of its commands (R42). -/
theorem execAll_next (is : List Instr) (s : State) : ∃ t, execAll is s = .next t ∧ SameControl s t := by
  induction is generalizing s with
  | nil => exact ⟨s, rfl, .refl s⟩
  | cons i is ih =>
    obtain ⟨u, hu, hframe⟩ := exec_next i s
    obtain ⟨t, ht, hcontrol⟩ := ih u
    exact ⟨t, by rw [execAll, hu]; exact ht, hframe.control.trans hcontrol⟩

theorem feed_encodeAll_append {is : List Instr} {s t : State} (ws : List Word) (hp : s.pend = none)
    (h : execAll is s = .next t) : feed (encodeAll is ++ ws) s = feed ws t := by
  induction is generalizing s with
  | nil => cases h; rfl
  | cons i is ih =>
    obtain ⟨u, hu, hframe⟩ := exec_next i s
    obtain ⟨-, -, hpend, -⟩ := hframe.control
    rw [execAll, hu] at h
    rw [encodeAll, List.append_assoc, feed_encode_append _ hp hu]
    exact ih (hpend.trans hp) h

/-- Every word list is the words of commands and a rest whose front is no command. -/
theorem exists_encodeAll_append (ws : List Word) :
    ∃ is tail, ws = encodeAll is ++ tail ∧ ∀ i rest, decode tail ≠ .command i rest := by
  by_cases hfront : ∃ i rest, decode ws = .command i rest
  · obtain ⟨i, rest, hdec⟩ := hfront
    have hws := encodeDecodeRoundTrip ws rest i hdec
    obtain ⟨is, tail, hrest, htail⟩ := exists_encodeAll_append rest
    exact ⟨i :: is, tail, by rw [encodeAll, List.append_assoc, ← hrest, hws], htail⟩
  · exact ⟨[], ws, rfl, by simpa using hfront⟩
termination_by ws.length
decreasing_by
  rw [hws, List.length_append, length_encode, Instr.words]
  omega

/-! ### Words that are no command -/

theorem KeepsErrors.of_exec {i : Instr} {s t : State} (h : exec i s = .next t) : KeepsErrors s t := by
  obtain ⟨hstatus, hrec, -⟩ := (CommandFrame.of_exec h).control
  exact .of_eq hstatus hrec

theorem KeepsErrors.of_acceptWord {w : Word} {s t : State} (h : acceptWord w s = .next t) : KeepsErrors s t := by
  cases hp : s.pend with
  | none =>
    rw [acceptWord_command_position hp] at h
    cases hd : decodeWord w with
    | error e => rw [hd] at h; cases h; exact .recordError s e w
    | ok hdr =>
      simp only [hd] at h
      split at h
      · exact .of_exec h
      · cases h; exact .of_eq rfl rfl
  | some p =>
    rw [acceptWord_payload hp] at h
    split at h
    · cases h; exact .of_eq rfl rfl
    · exact (KeepsErrors.of_eq (s := s) (t := s.accepted none s.stream) rfl rfl).trans (.of_exec h)

theorem KeepsErrors.of_feed {ws : List Word} {s t : State} (h : feed ws s = .next t) : KeepsErrors s t := by
  induction ws generalizing s with
  | nil => cases h; exact .of_eq rfl rfl
  | cons w ws ih =>
    obtain ⟨u, hu, -⟩ := acceptWord_next w s
    rw [feed_cons ws hu] at h
    exact (KeepsErrors.of_acceptWord hu).trans (ih h)

/-- An error once recorded stays to the end of the run (R203, R208). -/
theorem State.faulted_of_feed {ws : List Word} {s t : State} (h : feed ws s = .next t) (hs : s.faulted = true) :
    t.faulted = true := by
  simp only [State.faulted, decide_eq_true_eq] at hs ⊢
  rwa [(KeepsErrors.of_feed h).errcode hs]

theorem State.faulted_recordError (s : State) (e : CommandError) (w : Word) : (s.recordError e w).faulted = true := by
  rw [State.faulted, State.recordError_status, Status.record]
  split
  · cases e <;> rfl
  · simpa using ‹_›

/-- With fewer payload words than the command needs, the unit holds them all (R39, R217). -/
theorem feed_payload_lacking {h : Header} {got ws : List Word} {s : State} (hp : s.pend = some ⟨h, got⟩)
    (hlt : got.length + ws.length < h.op.payloadWords) :
    ∃ t, feed ws s = .next t ∧ t.pend = some ⟨h, got ++ ws⟩ := by
  induction ws generalizing s got with
  | nil => exact ⟨s, rfl, by rw [hp, List.append_nil]⟩
  | cons w ws ih =>
    have hone := acceptWord_payload hp w
    rw [List.length_cons] at hlt
    rw [if_pos (by simp; omega)] at hone
    rw [feed_cons ws hone, List.append_cons got w ws]
    exact ih rfl (by simp; omega)

/-- In command position only a stream whose front is a command, or no stream, ends good. -/
theorem EndsGood.eq_nil_of_decode_ne_command {ws : List Word} {s t : State} (hp : s.pend = none)
    (h : EndsGood ws s t) (hne : ∀ i rest, decode ws ≠ .command i rest) : ws = [] := by
  obtain ⟨⟨hfeed, hpend⟩, hgood⟩ := h
  cases ws with
  | nil => rfl
  | cons w ws =>
    exfalso
    have hone := acceptWord_command_position hp w
    cases hd : decodeWord w with
    | error e =>
      rw [hd] at hone
      rw [feed_cons ws hone] at hfeed
      rw [State.faulted_of_feed hfeed (State.faulted_recordError s e w)] at hgood
      cases hgood
    | ok hdr =>
      rw [decode_cons_of_ok ws hd] at hne
      rcases takePayload_cases hdr ws with ⟨hlt, -⟩ | ⟨-, htake⟩
      · simp only [hd, if_neg (Nat.ne_zero_of_lt hlt)] at hone
        obtain ⟨u, hu, hheld⟩ := feed_payload_lacking (ws := ws) (s := s.accepted (some ⟨hdr, []⟩) s.stream) rfl
          ((Nat.zero_add _).trans_lt hlt)
        rw [feed_cons ws hone, hu] at hfeed
        cases hfeed
        rw [hheld] at hpend
        cases hpend
      · exact hne _ _ htake

/-- Settles O12: a good run leaves no words after its commands. -/
theorem goodRunsAreCommandRuns : Obligations.GoodRunsAreCommandRuns := by
  intro ws s t hp
  constructor
  · rintro ⟨⟨hfeed, hpend⟩, hgood⟩
    obtain ⟨is, tail, rfl, htail⟩ := exists_encodeAll_append ws
    obtain ⟨u, hu, hstatus, -, hpend', -⟩ := execAll_next is s
    rw [feed_encodeAll_append tail hp hu] at hfeed
    obtain rfl := EndsGood.eq_nil_of_decode_ne_command (hpend'.trans hp) ⟨⟨hfeed, hpend⟩, hgood⟩ htail
    cases hfeed
    rw [State.faulted, hstatus] at hgood
    exact ⟨hgood, is, List.append_nil _, hu⟩
  · rintro ⟨hgood, is, rfl, hexec⟩
    obtain ⟨u, hu, hstatus, -, hpend, -⟩ := execAll_next is s
    obtain rfl : u = t := by rw [hu] at hexec; cases hexec; rfl
    refine ⟨⟨(feedExecutesCommands is s hp).trans hu, hpend.trans hp⟩, ?_⟩
    rwa [State.faulted, hstatus]

end Sys2Proof.Machine
end

section
/-! PROOFS. The assembler's `cutcfg` line (R95, R174). -/

namespace Sys2Proof.Machine

open Sys2Proof

theorem Asm.wellFormed_cutcfg_iff {db f : Nat} {sets : List SetLit} : (Asm.cutcfg db f sets).wellFormed = true ↔
    (db = 12 ∨ db = 24 ∨ db = 36 ∨ db = 48) ∧ f < 2 ∧ sets.length = db / 12 := by
  simp [Asm.wellFormed, slopeLegal, flagWritten, activeStages, and_assoc, or_assoc]

/-- Without clearing and without a load left out the configuration is `slope`, all loads and `cbyp` (R174). -/
theorem configCommands_never_no_skips (v : UnitView) (sets : List CoefSet) (b : Bool) :
    configCommands .never v sets b [] = .slope (slopeCode sets.length) :: loadCommands 0 sets ++ [.cbyp b] := by
  simp [configCommands, clearingCommands]

/-- Settles O59: the lines taken are those listed, and their expansion is the configuration of R174. -/
theorem cutcfgIsCanonicalConfiguration : Obligations.CutcfgIsCanonicalConfiguration := by
  intro db f sets v
  split
  next h =>
    have ⟨_, _, hlen⟩ := h
    rw [Asm.assemble, if_pos (Asm.wellFormed_cutcfg_iff.2 h), configCommands_never_no_skips, List.length_map, hlen]
    rfl
  next h => rw [Asm.assemble, if_neg (mt Asm.wellFormed_cutcfg_iff.1 h)]

end Sys2Proof.Machine
end

section
/-! PROOFS. The stage step with its bypass in either form (R110 to R112), and PROC through an Active and through a
Bypassed slot (R112, R113). -/

namespace Sys2Proof.Machine

open Sys2Proof

/-- A stage does not run exactly when it is bypassed under FROZEN (R112). -/
theorem stageRuns_eq_false_iff (policy : BypassPolicy) (byp : Bool) :
    stageRuns policy byp = false ↔ byp = true ∧ policy = .frozen := by
  cases policy <;> simp

/-- The stage step by its bypass, in either form (R112). -/
theorem stageStep_eq_ite (p : Params) (nan : Nat → Word) (byp : Bool) (g : Stage) (x : Word) :
    stageStep p nan byp g x =
      if byp = true ∧ p.bypass = .frozen then (x, g)
      else (if byp then x else (stageArith p.form nan g x).1,
        g.setState (stageArith p.form nan g x).2.1 (stageArith p.form nan g x).2.2) := by
  split
  next h => exact stageStep_of_not_runs p nan byp g x ((stageRuns_eq_false_iff _ _).2 h)
  next h => exact stageStep_of_runs p nan byp g x (by rwa [← Bool.not_eq_false, stageRuns_eq_false_iff])

/-- Settles O17: the arithmetic of the form TDF2 is that of R110. -/
theorem transposedStageStep : Obligations.TransposedStageStep := by
  intro p nan byp g x hform
  rw [stageStep_eq_ite, hform]
  rfl

/-- Settles O18: the arithmetic of the form DF2 is that of R111. -/
theorem directFormTwoStageStep : Obligations.DirectFormTwoStageStep := by
  intro p nan byp g x hform
  rw [stageStep_eq_ite, hform]
  rfl

/-! ### PROC -/

/-- Settles O19: PROC runs one slot, which writes nothing outside the slot but the draws, and of the slot nothing but
the state pair. -/
theorem procEmitsStageOutput : Obligations.ProcEmitsStageOutput := by
  intro k x s
  have hslot := s.runSlot_slot_same k (s.slot k).byp x
  refine ⟨_, rfl, rfl, hslot, fun j hj => s.runSlot_slot_of_ne _ x hj, ?_, ?_, rfl, rfl, .refl s⟩
  · change SameCoefs _ ((s.runSlot k (s.slot k).byp x).2.slot k)
    rw [hslot]
    exact ⟨stageStep_b0 .., stageStep_b1 .., stageStep_b2 .., stageStep_a1 .., stageStep_a2 ..⟩
  · exact (congrArg Stage.byp hslot).trans (stageStep_byp ..)

/-- A slot that runs takes the state pair of its form's arithmetic. -/
theorem State.runSlot_slot_of_runs {s : State} {k : Slot} {byp : Bool} (x : Word)
    (h : stageRuns s.params.bypass byp = true) :
    (s.runSlot k byp x).2.slot k = (s.slot k).setState
      (stageArith s.params.form (fun i => nanOut s.source (s.draws + i)) (s.slot k) x).2.1
      (stageArith s.params.form (fun i => nanOut s.source (s.draws + i)) (s.slot k) x).2.2 := by
  rw [State.runSlot_slot_same, stageStep_of_runs _ _ _ _ _ h]

/-- Settles O20: the slot passes its input; under FROZEN it does not run, under RUNNING it does. -/
theorem bypassedProcPassesInput : Obligations.BypassedProcPassesInput := by
  intro k x s hbyp
  obtain ⟨t, ht, hout, -, hothers, -, -, hcbyp, hpc, hcontrol⟩ := procEmitsStageOutput k x s
  rw [hbyp, stageStep_fst_bypassed] at hout
  cases ht
  refine ⟨_, rfl, hout, fun hp => ?_, fun hp => ⟨State.runSlot_slot_of_runs x (by rw [hp]; rfl), hothers⟩, hcbyp, hpc,
    hcontrol⟩
  rw [hbyp, State.runSlot_of_not_runs s k true x (by rw [hp]; rfl)]
  exact ⟨rfl, rfl⟩

end Sys2Proof.Machine
end

section
/-! PROOFS. NaN operands, inputs and state registers of a running stage (R15, R16, R113, R119). -/

namespace Sys2Proof.Machine

open Sys2Proof

/-! ### The primitives -/

theorem isNaN_fmul {nan a b : Word} (hnan : isNaN nan = true) (h : isNaN a = true ∨ isNaN b = true) :
    isNaN (fmul nan a b) = true := by
  rwa [fmul_of_isNaN nan a b (by simpa using h)]

theorem isNaN_fadd {nan a b : Word} (hnan : isNaN nan = true) (h : isNaN a = true ∨ isNaN b = true) :
    isNaN (fadd nan a b) = true := by
  rwa [fadd_of_isNaN nan a b (by simpa using h)]

theorem isNaN_fsub {nan a b : Word} (hnan : isNaN nan = true) (h : isNaN a = true ∨ isNaN b = true) :
    isNaN (fsub nan a b) = true := by
  rwa [fsub_of_isNaN nan a b (by simpa using h)]

/-! ### The arithmetic of the two forms -/

section
variable {nan : Nat → Word} (hnan : ∀ i, isNaN (nan i) = true) {g : Stage} {x : Word}
include hnan

/-- Under TDF2 a NaN output is fed back to both state registers. -/
theorem tdf2_isNaN_state_of_out (h : isNaN (tdf2 nan g x).1 = true) :
    isNaN (tdf2 nan g x).2.1 = true ∧ isNaN (tdf2 nan g x).2.2 = true :=
  ⟨isNaN_fadd (hnan 5) (.inl (isNaN_fsub (hnan 4) (.inr (isNaN_fmul (hnan 3) (.inr h))))),
    isNaN_fsub (hnan 8) (.inr (isNaN_fmul (hnan 7) (.inr h)))⟩

theorem tdf2_isNaN_out (h : isNaN x = true ∨ isNaN g.s1 = true) : isNaN (tdf2 nan g x).1 = true :=
  isNaN_fadd (hnan 1) (h.imp_left fun hx => isNaN_fmul (hnan 0) (.inr hx))

theorem tdf2_isNaN_s1_of_s2 (h : isNaN g.s2 = true) : isNaN (tdf2 nan g x).2.1 = true :=
  isNaN_fadd (hnan 5) (.inr h)

theorem df2_isNaN_s1 (h : isNaN g.s1 = true ∨ isNaN g.s2 = true) : isNaN (df2 nan g x).2.1 = true :=
  isNaN_fsub (hnan 3) (h.imp (fun h1 => isNaN_fsub (hnan 1) (.inr (isNaN_fmul (hnan 0) (.inr h1))))
    fun h2 => isNaN_fmul (hnan 2) (.inr h2))

/-- Under DF2 a NaN in the new `s1` is one in the output. -/
theorem df2_isNaN_out_of_s1 (h : isNaN (df2 nan g x).2.1 = true) : isNaN (df2 nan g x).1 = true :=
  isNaN_fadd (hnan 8) (.inl (isNaN_fadd (hnan 6) (.inl (isNaN_fmul (hnan 4) (.inr h)))))

/-- A NaN in `s1`, or under DF2 in `s2`, gives a NaN output and a NaN in `s1`. -/
theorem stageArith_isNaN_of_state {form : Form} (h : isNaN g.s1 = true ∨ form = .df2 ∧ isNaN g.s2 = true) :
    isNaN (stageArith form nan g x).1 = true ∧ isNaN (stageArith form nan g x).2.1 = true := by
  cases form with
  | tdf2 =>
    have hout := tdf2_isNaN_out hnan (x := x) (.inr (h.resolve_right fun hdf2 => nomatch hdf2.1))
    exact ⟨hout, (tdf2_isNaN_state_of_out hnan hout).1⟩
  | df2 =>
    have hs1 := df2_isNaN_s1 hnan (x := x) (h.imp_right And.right)
    exact ⟨df2_isNaN_out_of_s1 hnan hs1, hs1⟩

end

/-! ### PROC through an Active slot -/

/-- PROC through an Active slot emits the output of its form's arithmetic and writes the slot's state pair; every NaN
result is a NaN (R16). -/
theorem exec_proc_of_active {k : Slot} (x : Word) {s : State} (hbyp : (s.slot k).byp = false) :
    ∃ t nan, exec (.proc k x) s = .next t ∧ (∀ i, isNaN (nan i) = true) ∧
      t.out = s.out ++ [(stageArith s.params.form nan (s.slot k) x).1] ∧
      t.slot k = (s.slot k).setState (stageArith s.params.form nan (s.slot k) x).2.1
        (stageArith s.params.form nan (s.slot k) x).2.2 := by
  have hruns : stageRuns s.params.bypass (s.slot k).byp = true := by rw [hbyp, stageRuns_active]
  obtain ⟨t, ht, hout, hslot, -⟩ := procEmitsStageOutput k x s
  rw [stageStep_of_runs _ _ _ _ _ hruns] at hout hslot
  rw [hbyp] at hout
  exact ⟨t, _, ht, fun i => nanOut_isNaN _ _, hout, hslot⟩

/-- PROC through an Active slot with a NaN in `s1`, or under DF2 in `s2`, emits a NaN and leaves one in `s1`. -/
theorem exec_proc_of_isNaN_state {k : Slot} (x : Word) {s : State} (hbyp : (s.slot k).byp = false)
    (h : isNaN (s.slot k).s1 = true ∨ s.params.form = .df2 ∧ isNaN (s.slot k).s2 = true) :
    ∃ t y, exec (.proc k x) s = .next t ∧ t.out = s.out ++ [y] ∧ isNaN y = true ∧
      isNaN (t.slot k).s1 = true ∧ (t.slot k).byp = false := by
  obtain ⟨t, nan, ht, hnan, hout, hslot⟩ := exec_proc_of_active x hbyp
  obtain ⟨hy, hs1⟩ := stageArith_isNaN_of_state hnan (x := x) h
  refine ⟨t, _, ht, hout, hy, ?_⟩
  rw [hslot]
  exact ⟨hs1, hbyp⟩

theorem execAll_cons {i : Instr} {s t : State} (is : List Instr) (h : exec i s = .next t) :
    execAll (i :: is) s = execAll is t := by
  rw [execAll, h]

/-- The first PROC leaves a NaN in `s1`, where it stays, and every output is a NaN. -/
theorem execAll_proc_of_isNaN_state {k : Slot} (x : Word) (xs : List Word) {s : State} (hbyp : (s.slot k).byp = false)
    (h : isNaN (s.slot k).s1 = true ∨ s.params.form = .df2 ∧ isNaN (s.slot k).s2 = true) :
    ∃ t ys, execAll ((x :: xs).map (.proc k)) s = .next t ∧ t.out = s.out ++ ys ∧ ys.length = xs.length + 1 ∧
      (∀ y ∈ ys, isNaN y = true) ∧ isNaN (t.slot k).s1 = true := by
  induction xs generalizing x s with
  | nil =>
    obtain ⟨t, y, ht, hout, hy, hs1, -⟩ := exec_proc_of_isNaN_state x hbyp h
    exact ⟨t, [y], execAll_cons [] ht, hout, rfl, List.forall_mem_singleton.2 hy, hs1⟩
  | cons x' xs ih =>
    obtain ⟨u, y, hu, huout, hy, hus1, hubyp⟩ := exec_proc_of_isNaN_state x hbyp h
    obtain ⟨t, ys, ht, htout, hlen, hys, hts1⟩ := ih x' hubyp (.inl hus1)
    refine ⟨t, y :: ys, (execAll_cons _ hu).trans ht, ?_, congrArg (· + 1) hlen, List.forall_mem_cons.2 ⟨hy, hys⟩, hts1⟩
    rw [htout, huout, List.append_assoc, List.singleton_append]

/-- Settles O21: one PROC writes a NaN to `s1`, and each further one emits and keeps it. -/
theorem nanStatePersists : Obligations.NanStatePersists := by
  intro k s hbyp
  refine ⟨fun h x xs => execAll_proc_of_isNaN_state x xs hbyp h, fun hform hs2 x => ?_⟩
  obtain ⟨t, nan, ht, hnan, -, hslot⟩ := exec_proc_of_active x hbyp
  rw [hform] at hslot
  refine ⟨t, ht, ?_⟩
  rw [hslot]
  exact tdf2_isNaN_s1_of_s2 hnan hs2

/-- Settles O22: the NaN input gives a NaN output, which is fed back to both state registers. -/
theorem nanInputPoisonsState : Obligations.NanInputPoisonsState := by
  intro k x s hform hbyp hx
  obtain ⟨t, nan, ht, hnan, hout, hslot⟩ := exec_proc_of_active x hbyp
  rw [hform] at hout hslot
  have hy : isNaN (tdf2 nan (s.slot k) x).1 = true := tdf2_isNaN_out hnan (.inl hx)
  obtain ⟨h1, h2⟩ := tdf2_isNaN_state_of_out hnan hy
  refine ⟨t, _, ht, hout, hy, ?_⟩
  rw [hslot]
  exact Bool.and_eq_true_iff.2 ⟨h1, h2⟩

end Sys2Proof.Machine
end

section
/-! PROOFS. The stage step in exact arithmetic as a difference equation and as a transfer function (R117). -/

namespace Sys2Proof.Machine

open Sys2Proof

/-! ### Delays -/

@[simp] theorem delayed_succ_zero (u : ℕ → ℝ) (k : ℕ) : delayed u (k + 1) 0 = 0 := rfl

@[simp] theorem delayed_zero (u : ℕ → ℝ) (n : ℕ) : delayed u 0 n = u n := rfl

@[simp] theorem delayed_succ_succ (u : ℕ → ℝ) (k n : ℕ) : delayed u (k + 1) (n + 1) = delayed u k n := by
  simp [delayed]

/-- A delay by `k` is a multiplication by `z^-k`. -/
theorem coeff_X_pow_mul_mk (u : ℕ → ℝ) (k n : ℕ) :
    PowerSeries.coeff n (PowerSeries.X ^ k * PowerSeries.mk u) = delayed u k n := by
  rw [PowerSeries.coeff_X_pow_mul', PowerSeries.coeff_mk, delayed]

/-- A polynomial of degree two in `z^-1` acts on a sequence by its values and their delays by one and by two. -/
theorem coeff_quadratic_mul_mk (p q r : ℝ) (u : ℕ → ℝ) (n : ℕ) :
    PowerSeries.coeff n ((PowerSeries.C p + PowerSeries.C q * PowerSeries.X + PowerSeries.C r * PowerSeries.X ^ 2)
      * PowerSeries.mk u) = p * u n + q * delayed u 1 n + r * delayed u 2 n := by
  rw [← coeff_X_pow_mul_mk u 1, ← coeff_X_pow_mul_mk u 2, pow_one]
  simp only [add_mul, mul_assoc, map_add, PowerSeries.coeff_C_mul, PowerSeries.coeff_mk]

/-! ### The two forms -/

theorem exactOutAt_tdf2 (c : ExactSet) (x : ℕ → ℝ) (n : ℕ) :
    exactOutAt .tdf2 c x n = c.b0 * x n + (exactStateAt .tdf2 c x n).1 := rfl

/-- Under TDF2 `s2` holds what the last input and output add to the output after next. -/
theorem exactStateAt_tdf2_snd (c : ExactSet) (x : ℕ → ℝ) (n : ℕ) : (exactStateAt .tdf2 c x n).2
    = c.b2 * delayed x 1 n - c.a2 * delayed (exactOutAt .tdf2 c x) 1 n := by
  cases n with
  | zero => simp [exactStateAt]
  | succ n => simp only [delayed_succ_succ, delayed_zero]; rfl

/-- Under TDF2 `s1` holds what the last two inputs and outputs add to the next output. -/
theorem exactStateAt_tdf2_fst (c : ExactSet) (x : ℕ → ℝ) (n : ℕ) : (exactStateAt .tdf2 c x n).1
    = c.b1 * delayed x 1 n - c.a1 * delayed (exactOutAt .tdf2 c x) 1 n
      + (c.b2 * delayed x 2 n - c.a2 * delayed (exactOutAt .tdf2 c x) 2 n) := by
  cases n with
  | zero => simp [exactStateAt]
  | succ n =>
    simp only [delayed_succ_succ, delayed_zero, ← exactStateAt_tdf2_snd]
    rfl

/-- Under DF2 `s2` holds the `s1` of one place before. -/
theorem exactStateAt_df2_snd (c : ExactSet) (x : ℕ → ℝ) (n : ℕ) :
    (exactStateAt .df2 c x n).2 = delayed (fun m => (exactStateAt .df2 c x m).1) 1 n := by
  cases n with
  | zero => rfl
  | succ n => simp only [delayed_succ_succ, delayed_zero]; rfl

/-- Under DF2 the new `s1` is the value w of R111. -/
theorem exactStateAt_df2_fst_succ (c : ExactSet) (x : ℕ → ℝ) (n : ℕ) : (exactStateAt .df2 c x (n + 1)).1
    = x n - c.a1 * (exactStateAt .df2 c x n).1 - c.a2 * (exactStateAt .df2 c x n).2 := rfl

theorem exactOutAt_df2 (c : ExactSet) (x : ℕ → ℝ) (n : ℕ) : exactOutAt .df2 c x n
    = c.b0 * (exactStateAt .df2 c x (n + 1)).1 + c.b1 * (exactStateAt .df2 c x n).1
      + c.b2 * (exactStateAt .df2 c x n).2 := rfl

/-- Both forms compute the difference equation (R117). -/
theorem exactOutAt_difference_equation (form : Form) (c : ExactSet) (x : ℕ → ℝ) (n : ℕ) : exactOutAt form c x n
    = c.b0 * x n + c.b1 * delayed x 1 n + c.b2 * delayed x 2 n
      - c.a1 * delayed (exactOutAt form c x) 1 n - c.a2 * delayed (exactOutAt form c x) 2 n := by
  cases form with
  | tdf2 =>
    rw [exactOutAt_tdf2, exactStateAt_tdf2_fst]
    ring
  | df2 =>
    have hzero : (exactStateAt .df2 c x 0).1 = 0 := rfl
    rcases n with _ | _ | n <;>
      simp only [exactOutAt_df2, exactStateAt_df2_fst_succ, exactStateAt_df2_snd, hzero, delayed_succ_zero,
        delayed_succ_succ, delayed_zero] <;>
      ring

/-- Settles O23: the difference equation, and its coefficients read as those of power series in `z^-1`. -/
theorem exactFormsComputeDifferenceEquation : Obligations.ExactFormsComputeDifferenceEquation := by
  intro form c x y
  have heq := exactOutAt_difference_equation form c x
  refine ⟨heq, PowerSeries.ext fun n => ?_⟩
  rw [coeff_quadratic_mul_mk, mul_comm, ← map_one (PowerSeries.C (R := ℝ)), coeff_quadratic_mul_mk]
  linear_combination heq n

end Sys2Proof.Machine
end

section
/-! PROOFS. The commands that write one slot: LDC, RST and BYP (R114 to R116). -/

namespace Sys2Proof.Machine

open Sys2Proof

/-- The word of a command without a slope code (R81). -/
theorem commandWord_slp_zero (op : Op) (stg : Slot) (f : Bool) :
    commandWord op stg 0 f = op.code ++ BitVec.ofFin (w := 2) stg ++ 0#25 ++ BitVec.ofBool f := by
  cases op <;> revert stg f <;> decide

/-- The word of a command with neither a slope code nor an F bit (R81). -/
theorem commandWord_slp_zero_f_false (op : Op) (stg : Slot) :
    commandWord op stg 0 false = op.code ++ BitVec.ofFin (w := 2) stg ++ 0#26 := by
  cases op <;> revert stg <;> decide

/-- A command that writes slot `k` and advances `pc` changes nothing outside the slot and `pc`. -/
theorem State.setSlot_advance_frame (s : State) (k : Slot) (g : Stage) (n : Nat) :
    (∀ j, j ≠ k → ((s.setSlot k g).advance n).slot j = s.slot j) ∧ ((s.setSlot k g).advance n).cbyp = s.cbyp ∧
      ((s.setSlot k g).advance n).out = s.out ∧ ((s.setSlot k g).advance n).pc = s.pc + n ∧
      ((s.setSlot k g).advance n).draws = s.draws ∧ SameControl s ((s.setSlot k g).advance n) :=
  ⟨fun _ hj => s.setSlot_slot_of_ne g hj, rfl, rfl, rfl, rfl, .refl s⟩

/-- Settles O26: LDC writes one slot, in it the coefficients. -/
theorem ldcLoadsFiveCoefficients : Obligations.LdcLoadsFiveCoefficients := by
  intro k b0 b1 b2 a1 a2 s
  refine ⟨congrArg (· :: _) (commandWord_slp_zero_f_false .ldc k), _, rfl, ?_⟩
  rw [State.advance_slot, State.setSlot_slot_same]
  exact ⟨rfl, rfl, rfl, rfl, rfl, ⟨rfl, rfl⟩, rfl, s.setSlot_advance_frame k _ 6⟩

/-- Settles O27: RST writes one slot, in it the state pair. -/
theorem rstClearsStateRegisters : Obligations.RstClearsStateRegisters := by
  intro k s
  refine ⟨congrArg (· :: _) (commandWord_slp_zero_f_false .rst k), _, rfl, ?_⟩
  rw [State.advance_slot, State.setSlot_slot_same]
  exact ⟨rfl, rfl, ⟨rfl, rfl, rfl, rfl, rfl⟩, rfl, s.setSlot_advance_frame k _ 1⟩

/-- Settles O28: BYP writes one slot, in it the bypass bit. -/
theorem bypSetsStageBypass : Obligations.BypSetsStageBypass := by
  intro k f s
  refine ⟨congrArg (· :: _) (commandWord_slp_zero .byp k f), _, rfl, ?_⟩
  rw [State.advance_slot, State.setSlot_slot_same]
  exact ⟨rfl, ⟨rfl, rfl, rfl, rfl, rfl⟩, ⟨rfl, rfl⟩, s.setSlot_advance_frame k _ 1⟩

end Sys2Proof.Machine
end

section
/-! PROOFS. The loads of a block and the loads that may be left out (R114, R175). -/

namespace Sys2Proof.Machine

open Sys2Proof

/-- The stage with the coefficient set `c` (R114). -/
def Stage.load (g : Stage) (c : CoefSet) : Stage := g.loadSet c.b0 c.b1 c.b2 c.a1 c.a2

/-- The five coefficient registers hold the set `c`. -/
def Stage.Holds (g : Stage) (c : CoefSet) : Prop :=
  g.b0 = c.b0 ∧ g.b1 = c.b1 ∧ g.b2 = c.b2 ∧ g.a1 = c.a1 ∧ g.a2 = c.a2

theorem Stage.load_of_holds {g : Stage} {c : CoefSet} (h : g.Holds c) : g.load c = g := by
  obtain ⟨h0, h1, h2, h3, h4⟩ := h
  rw [Stage.load, ← h0, ← h1, ← h2, ← h3, ← h4]
  rfl

/-- The bank after sets are loaded to the slots from `i` on (R174). -/
def Bank.loadSets (b : Bank) : Nat → List CoefSet → Bank
  | _, [] => b
  | i, c :: cs => (b.set (Fin.ofNat 4 i) ((b.get (Fin.ofNat 4 i)).load c)).loadSets (i + 1) cs

/-- The sets of a list are those the slots from `i` on hold. -/
def Bank.HoldsFrom (b : Bank) (i : Nat) (held : List CoefSet) : Prop :=
  ∀ (k : Slot) (c : CoefSet), i ≤ k → held[k.val - i]? = some c → (b.get k).Holds c

/-- A write of slot `i` does not touch the slots above it. -/
theorem Bank.HoldsFrom.set {b : Bank} {i : Nat} {held : List CoefSet} (h : b.HoldsFrom i held) (hi : i < 4)
    (g : Stage) : (b.set (Fin.ofNat 4 i) g).HoldsFrom (i + 1) held.tail := by
  intro k c hk hc
  have hne : k ≠ Fin.ofNat 4 i := by
    rintro rfl
    rw [Fin.val_ofNat, Nat.mod_eq_of_lt hi] at hk
    omega
  rw [List.getElem?_tail, show k.val - (i + 1) + 1 = k.val - i by omega] at hc
  rw [Bank.get_set_of_ne b g hne]
  exact h k c (by omega) hc

/-- A held set at the head of the list is the one slot `i` holds. -/
theorem Bank.HoldsFrom.head {b : Bank} {i : Nat} {held : List CoefSet} {c : CoefSet} (h : b.HoldsFrom i held)
    (hi : i < 4) (hc : held.head? = some c) : (b.get (Fin.ofNat 4 i)).Holds c := by
  have hval : (Fin.ofNat 4 i).val = i := Nat.mod_eq_of_lt hi
  refine h _ c hval.ge ?_
  rwa [hval, Nat.sub_self, ← List.head?_eq_getElem?]

theorem exec_loadCommand (i : Nat) (c : CoefSet) (s : State) : exec (loadCommand i c) s
    = .next ((s.setSlot (Fin.ofNat 4 i) ((s.slot (Fin.ofNat 4 i)).load c)).advance 6) := rfl

/-- The loads leave the same bank whichever of the held sets are left out, and write nothing else but `pc`. -/
theorem execAll_loadCommandsSkipping (skips : List Bool) {i : Nat} {sets held : List CoefSet} {s : State}
    (hlen : i + sets.length ≤ 4) (h : s.st.HoldsFrom i held) :
    ∃ p, execAll (loadCommandsSkipping skips i sets held) s = .next { s with st := s.st.loadSets i sets, pc := p } := by
  induction sets generalizing skips i held s with
  | nil => exact ⟨s.pc, rfl⟩
  | cons c cs ih =>
    rw [List.length_cons] at hlen
    have hi : i < 4 := by omega
    have hrest := h.set hi ((s.slot (Fin.ofNat 4 i)).load c)
    rw [loadCommandsSkipping]
    split
    next hskip =>
      have hload : s.st.set (Fin.ofNat 4 i) ((s.st.get (Fin.ofNat 4 i)).load c) = s.st := by
        rw [Stage.load_of_holds (h.head hi hskip.2), Bank.set_get_self]
      rw [State.slot, hload] at hrest
      rw [Bank.loadSets, hload]
      exact ih skips.tail (by omega) hrest
    next =>
      rw [execAll_cons _ (exec_loadCommand i c s)]
      exact ih skips.tail (by omega) hrest

/-- Settles O57: loading all sets is leaving out none. -/
theorem skippedLoadsChangeNothing : Obligations.SkippedLoadsChangeNothing := by
  intro s sets held skips hlen h
  have hheld : s.st.HoldsFrom 0 held := fun k c _ hc => h k c hc
  have hlen' : 0 + sets.length ≤ 4 := by omega
  obtain ⟨p, hall⟩ := execAll_loadCommandsSkipping [] hlen' hheld
  obtain ⟨q, hskipping⟩ := execAll_loadCommandsSkipping skips hlen' hheld
  rw [loadCommandsSkipping_no_skips] at hall
  exact ⟨_, _, hall, hskipping, rfl⟩

end Sys2Proof.Machine
end

section
/-! PROOFS. The cascade in exact arithmetic: its transfer function is the product of its Active slots' (R117, R148). -/

namespace Sys2Proof.Machine

open Sys2Proof

/-- The numerator of a slot's transfer function (R117), a power series in `z^-1`. -/
noncomputable def ExactSet.numerator (c : ExactSet) : PowerSeries ℝ :=
  PowerSeries.C c.b0 + PowerSeries.C c.b1 * PowerSeries.X + PowerSeries.C c.b2 * PowerSeries.X ^ 2

/-- The denominator of a slot's transfer function (R117). -/
noncomputable def ExactSet.denominator (c : ExactSet) : PowerSeries ℝ :=
  1 + PowerSeries.C c.a1 * PowerSeries.X + PowerSeries.C c.a2 * PowerSeries.X ^ 2

/-- The sets of the Active slots of a cascade (R140, R148). -/
def activeSets (cbyp : Bool) (cs : List (ExactSet × Bool)) : List ExactSet :=
  (cs.filter fun p => !(p.2 || cbyp)).map Prod.fst

theorem activeSets_cons (cbyp : Bool) (c : ExactSet) (byp : Bool) (cs : List (ExactSet × Bool)) :
    activeSets cbyp ((c, byp) :: cs) = if byp || cbyp then activeSets cbyp cs else c :: activeSets cbyp cs := by
  cases hbyp : byp || cbyp <;> simp [activeSets, -Bool.not_or, hbyp]

theorem ExactSet.denominator_ne_zero (c : ExactSet) : c.denominator ≠ 0 := by
  intro h
  have hconst := congrArg PowerSeries.constantCoeff h
  simp [ExactSet.denominator] at hconst

theorem prod_denominator_ne_zero (cs : List ExactSet) : (cs.map ExactSet.denominator).prod ≠ 0 := by
  simp [List.prod_eq_zero_iff, ExactSet.denominator_ne_zero]

/-- One slot's output times its denominator is its input times its numerator (R117). -/
theorem mk_exactOutAt_mul_denominator (form : Form) (c : ExactSet) (x : ℕ → ℝ) :
    PowerSeries.mk (exactOutAt form c x) * c.denominator = c.numerator * PowerSeries.mk x :=
  (exactFormsComputeDifferenceEquation form c x).2

/-- The transfer equation of a cascade (R148): an Active slot multiplies each side by its factor, a bypassed one passes its
input. -/
theorem mk_exactCascade_mul_denominators (form : Form) (cbyp : Bool) (cs : List (ExactSet × Bool)) (x : ℕ → ℝ) :
    PowerSeries.mk (exactCascade form cbyp cs x) * ((activeSets cbyp cs).map ExactSet.denominator).prod
      = ((activeSets cbyp cs).map ExactSet.numerator).prod * PowerSeries.mk x := by
  induction cs generalizing x with
  | nil => exact (mul_one _).trans (one_mul _).symm
  | cons slot cs ih =>
    obtain ⟨c, byp⟩ := slot
    cases hbyp : byp || cbyp with
    | true =>
      simp only [activeSets_cons, exactCascade, hbyp, if_true]
      exact ih x
    | false =>
      simp only [activeSets_cons, exactCascade, hbyp, Bool.false_eq_true, if_false, List.map_cons, List.prod_cons]
      linear_combination c.denominator * ih (exactOutAt form c x)
        + ((activeSets cbyp cs).map ExactSet.numerator).prod * mk_exactOutAt_mul_denominator form c x

/-- Settles O24: the products determine the output, since a denominator is not zero, and a product does not depend on
the order of its factors. -/
theorem exactCascadeIsProduct : Obligations.ExactCascadeIsProduct := by
  intro form cbyp cs x
  refine ⟨mk_exactCascade_mul_denominators form cbyp cs x, fun ds hperm => ?_⟩
  have hactive : (activeSets cbyp ds).Perm (activeSets cbyp cs) := (hperm.filter _).map _
  have hds := mk_exactCascade_mul_denominators form cbyp ds x
  rw [(hactive.map _).prod_eq, (hactive.map _).prod_eq, ← mk_exactCascade_mul_denominators form cbyp cs x] at hds
  have hseries := mul_right_cancel₀ (prod_denominator_ne_zero _) hds
  funext n
  simpa only [PowerSeries.coeff_mk] using congrArg (PowerSeries.coeff n) hseries

end Sys2Proof.Machine
end

section
/-! PROOFS. CPROC: the stage steps of the four slots in order (R140, R141), and the cascade bypass (R143). -/

namespace Sys2Proof.Machine

open Sys2Proof

/-- How many free draws a slot uses: none when it is bypassed under FROZEN, else one per primitive (R112). -/
theorem draws_of_stageRuns (policy : BypassPolicy) (byp : Bool) :
    (if stageRuns policy byp then drawsPerStage else 0) = if byp = true ∧ policy = .frozen then 0 else 9 := by
  cases policy <;> cases byp <;> rfl

theorem exec_cproc (x : Word) (s : State) :
    exec (.cproc x) s = .next (((s.runCascade x).2.emit (s.runCascade x).1).advance 2) := rfl

/-- Settles O29: a slot's stage step writes its own slot and the draws, so each slot is still as it was when its turn
comes. -/
theorem cprocRunsSlotsInOrder : Obligations.CprocRunsSlotsInOrder := by
  intro x s
  simp only [← draws_of_stageRuns]
  obtain ⟨hcbyp, hstatus, hpend, hpc, hout, hrec, hstream, hparams, hsource, hslots⟩ :=
    State.runSlots_keeps [0, 1, 2, 3] s x
  refine ⟨_, exec_cproc x s, congrArg (· ++ [_]) hout, rfl, rfl, rfl, rfl, rfl, fun k => ?_, hcbyp, congrArg (· + 2) hpc,
    hstatus, hrec, hpend, hstream, hparams, hsource⟩
  obtain ⟨s1, s2, hk⟩ := hslots k
  rw [State.advance_slot, State.emit_slot, State.runCascade, hk]
  exact ⟨⟨rfl, rfl, rfl, rfl, rfl⟩, rfl⟩

/-- Settles O30: every slot passes its input; under FROZEN none runs, under RUNNING all four do, nine draws apart. -/
theorem cascadeBypassPassesInput : Obligations.CascadeBypassPassesInput := by
  intro x s hcbyp
  obtain ⟨t, ht, hout, h0, h1, h2, h3, hdraws, hkept, hcbyp', hpc, hcontrol⟩ := cprocRunsSlotsInOrder x s
  simp only [hcbyp, Bool.or_true, stageStep_fst_bypassed, true_and] at hout h0 h1 h2 h3 hdraws
  refine ⟨t, ht, hout, fun hp => ?_, fun hp => ?_, hkept, hcbyp', hpc, hcontrol⟩
  · have hstops : stageRuns s.params.bypass true = false := by rw [hp]; rfl
    simp only [hp, if_true, Nat.add_zero, stageStep_of_not_runs _ _ _ _ _ hstops] at h0 h1 h2 h3 hdraws
    exact ⟨Bank.ext_get fun | 0 => h0 | 1 => h1 | 2 => h2 | 3 => h3, hdraws⟩
  · have hruns : stageRuns s.params.bypass true = true := by rw [hp]; rfl
    simp only [hp, reduceCtorEq, if_false, stageStep_of_runs _ _ _ _ _ hruns] at h0 h1 h2 h3
    exact fun | 0 => h0 | 1 => h1 | 2 => h2 | 3 => h3

/-- Under FROZEN, with the cascade bypass set, samples come back and nothing but `pc` and the responses changes. -/
theorem execAll_cproc_append_of_cbyp (xs : List Word) (is : List Instr) {s : State} (hp : s.params.bypass = .frozen)
    (hcbyp : s.cbyp = true) : ∃ t, execAll (xs.map .cproc ++ is) s = execAll is t ∧ t.st = s.st ∧
      t.out = s.out ++ xs ∧ t.draws = s.draws ∧ SameControl s t := by
  induction xs generalizing s with
  | nil => exact ⟨s, rfl, rfl, (List.append_nil _).symm, rfl, .refl s⟩
  | cons x xs ih =>
    obtain ⟨u, hu, hout, hfrozen, -, -, hcbyp', -, hcontrol⟩ := cascadeBypassPassesInput x s hcbyp
    obtain ⟨hst, hdraws⟩ := hfrozen hp
    have ⟨_, _, _, _, hparams, _⟩ := hcontrol
    obtain ⟨t, ht, htst, htout, htdraws, htcontrol⟩ := ih (hparams ▸ hp) (hcbyp'.trans hcbyp)
    refine ⟨t, (execAll_cons _ hu).trans ht, htst.trans hst, ?_, htdraws.trans hdraws, hcontrol.trans htcontrol⟩
    rw [htout, hout, List.append_assoc, List.singleton_append]

/-- Settles O34: CBYP writes `cbyp` alone, so between the two the samples meet a bypassed cascade. -/
theorem cbypSetsCascadeBypass : Obligations.CbypSetsCascadeBypass := by
  refine ⟨fun f s => ⟨by cases f <;> decide, _, rfl, rfl, fun _ => rfl, rfl, rfl, rfl, .refl s⟩, fun xs s hp => ?_⟩
  obtain ⟨t, ht, hst, hout, hdraws, hcontrol⟩ :=
    execAll_cproc_append_of_cbyp xs [.cbyp false] (s := (s.setCbyp true).advance 1) hp rfl
  exact ⟨(t.setCbyp false).advance 1, ht, hst, rfl, hout, hdraws, hcontrol⟩

end Sys2Proof.Machine
end

section
/-! PROOFS. The commands that write all slots: SLOPE, CRST and BLK (R142, R144, R145, R147); RDST (R146). -/

namespace Sys2Proof.Machine

open Sys2Proof

/-- A command that writes all slots and advances `pc` changes nothing outside the slots and `pc`. -/
theorem State.mapSlots_advance_frame (s : State) (f : Slot → Stage → Stage) (n : Nat) :
    ((s.mapSlots f).advance n).cbyp = s.cbyp ∧ ((s.mapSlots f).advance n).out = s.out ∧
      ((s.mapSlots f).advance n).pc = s.pc + n ∧ ((s.mapSlots f).advance n).draws = s.draws ∧
      SameControl s ((s.mapSlots f).advance n) :=
  ⟨rfl, rfl, rfl, rfl, .refl s⟩

/-! ### SLOPE -/

theorem exec_slope (c : Slot) (s : State) :
    exec (.slope c) s = .next ((s.mapSlots fun k g => g.setByp (slopeByp c k)).advance 1) := rfl

/-- The word of SLOPE (R142). -/
theorem commandWord_slope (c : Slot) :
    commandWord .slope 0 c false = 0x90000000#32 ||| BitVec.ofNat 32 (c.val <<< 24) := by
  revert c
  decide

/-- Settles O32: of every slot SLOPE writes the bypass bit. -/
theorem slopeActivatesCumulatively : Obligations.SlopeActivatesCumulatively := by
  intro c s
  refine ⟨congrArg ([·]) (commandWord_slope c), _, exec_slope c s, fun k => ?_, fun k => ?_,
    s.mapSlots_advance_frame _ 1⟩
  · rw [State.advance_slot, State.mapSlots_slot]
    exact decide_eq_true_iff
  · rw [State.advance_slot, State.mapSlots_slot]
    exact ⟨⟨rfl, rfl, rfl, rfl, rfl⟩, rfl, rfl⟩

/-- Commands other than BYP and SLOPE keep every bypass bit, in a list too (R33). -/
theorem execAll_keeps_byp {is : List Instr} {s t : State} (his : ∀ i ∈ is, (∀ k f, i ≠ .byp k f) ∧ ∀ c, i ≠ .slope c)
    (h : execAll is s = .next t) (k : Slot) : (t.slot k).byp = (s.slot k).byp := by
  induction is generalizing s with
  | nil => cases h; rfl
  | cons i is ih =>
    obtain ⟨⟨hbyp, hslope⟩, hrest⟩ := List.forall_mem_cons.1 his
    obtain ⟨u, hu, -⟩ := exec_next i s
    rw [execAll_cons is hu] at h
    exact (ih hrest h).trans ((whoWritesBypassBits i s u hu).1 k (hbyp k) hslope)

/-- Settles O33: SLOPE sets the pattern and the commands after it keep the bypass bits. -/
theorem slopePatternPersists : Obligations.SlopePatternPersists := by
  intro c is s t his h k
  rw [execAll_cons is (exec_slope c s)] at h
  rw [execAll_keeps_byp his h k, State.advance_slot, State.mapSlots_slot, Stage.setByp_byp, slopeByp,
    decide_eq_false_iff_not, not_lt, Fin.le_def]

/-! ### CRST -/

theorem exec_crst (s : State) : exec .crst s = .next ((s.mapSlots fun _ g => g.clear).advance 1) := rfl

/-- The stage of slot `k` after RST on the slots of a list (R115). -/
def clearListed (ks : List Slot) (k : Slot) (g : Stage) : Stage := if k ∈ ks then g.clear else g

/-- Clearing one slot and then the listed ones is clearing them all. -/
theorem Bank.set_clear_mapSlots_clearListed (b : Bank) (k : Slot) (ks : List Slot) :
    (b.set k (b.get k).clear).mapSlots (clearListed ks) = b.mapSlots (clearListed (k :: ks)) := by
  refine Bank.ext_get fun j => ?_
  rw [Bank.get_mapSlots, Bank.get_mapSlots, clearListed, clearListed]
  by_cases hjk : j = k
  · subst hjk
    rw [Bank.get_set_same, if_pos List.mem_cons_self]
    split <;> rfl
  · simp only [Bank.get_set_of_ne b _ hjk, List.mem_cons, hjk, false_or]

/-- RST on the slots of a list clears those slots, in whatever order and however often it names them. -/
theorem execAll_rst (ks : List Slot) (s : State) :
    ∃ p, execAll (ks.map .rst) s = .next { s with st := s.st.mapSlots (clearListed ks), pc := p } := by
  induction ks generalizing s with
  | nil => exact ⟨s.pc, rfl⟩
  | cons k ks ih =>
    obtain ⟨p, hp⟩ := ih ((s.setSlot k (s.slot k).clear).advance 1)
    rw [State.advance_st, State.setSlot_st, State.slot, Bank.set_clear_mapSlots_clearListed] at hp
    exact ⟨p, hp⟩

/-- Settles O35: CRST clears all slots, and so do RSTs that name them all. -/
theorem crstClearsEverySlot : Obligations.CrstClearsEverySlot := by
  refine ⟨rfl, fun s => ⟨_, exec_crst s, fun k => ?_, s.mapSlots_advance_frame _ 1⟩, fun ks s hperm => ?_⟩
  · rw [State.advance_slot, State.mapSlots_slot]
    exact ⟨rfl, rfl, ⟨rfl, rfl, rfl, rfl, rfl⟩, rfl⟩
  · have hall : ∀ k : Slot, k ∈ ks := fun k => hperm.mem_iff.2 (by revert k; decide)
    have hclear : clearListed ks = fun _ g => g.clear := funext₂ fun k _ => if_pos (hall k)
    obtain ⟨p, hp⟩ := execAll_rst ks s
    rw [hclear] at hp
    exact ⟨_, _, exec_crst s, hp, rfl⟩

/-! ### BLK -/

theorem snapReg_eq_ite (t r : Word) :
    snapReg t r = if isNaN r = true ∨ absLe r t = true then 0x00000000#32 else r := by
  simp only [snapReg, Bool.or_eq_true, plusZero]

theorem exec_blk_of_none {s : State} (h : s.params.snap = none) : exec .blk s = .next (s.advance 1) := by
  change execBlk s = _
  rw [execBlk, h]

theorem exec_blk_of_some {s : State} {t : Word} (h : s.params.snap = some t) :
    exec .blk s = .next ((s.mapSlots fun _ g => g.snap t).advance 1) := by
  change execBlk s = _
  rw [execBlk, h]

/-- Settles O36: under a threshold BLK snaps the state pair of every slot, under NONE it counts its word only. -/
theorem blkSnapsStateRegisters : Obligations.BlkSnapsStateRegisters := by
  intro s
  cases hsnap : s.params.snap with
  | none =>
    exact ⟨_, exec_blk_of_none hsnap, fun k => ⟨⟨rfl, rfl⟩, ⟨rfl, rfl, rfl, rfl, rfl⟩, rfl⟩, rfl, rfl, rfl, rfl, .refl s⟩
  | some T =>
    refine ⟨_, exec_blk_of_some hsnap, fun k => ?_, s.mapSlots_advance_frame _ 1⟩
    rw [State.advance_slot, State.mapSlots_slot]
    exact ⟨⟨snapReg_eq_ite T _, snapReg_eq_ite T _⟩, ⟨rfl, rfl, rfl, rfl, rfl⟩, rfl⟩

/-! ### RDST -/

/-- The STATUS word as a number: ERRCODE in bits 7:0, OVF in bit 8 (R35). -/
theorem Status.toNat_word (t : Status) : t.word.toNat = t.errcode.toNat + if t.ovf then 256 else 0 := by
  have hlt := t.errcode.isLt
  rw [Status.word, BitVec.toNat_append, ← Nat.shiftLeft_add_eq_or_of_lt hlt]
  cases t.ovf <;> simp [Nat.add_comm]

/-- Settles O38: RDST emits the STATUS word and nothing else. -/
theorem rdstEmitsStatus : Obligations.RdstEmitsStatus :=
  fun s => ⟨rfl, _, _, rfl, rfl, s.status.toNat_word, fun _ => rfl, rfl, rfl, rfl, .refl s⟩

end Sys2Proof.Machine
end

section
/-! PROOFS. The commands of the controller keep the block discipline (R235): a block (R174) and a move (R182). -/

namespace Sys2Proof.Machine

open Sys2Proof

/-- No command of the list is CPROC. -/
def NoCproc (is : List Instr) : Prop := ∀ i ∈ is, ∀ x, i ≠ .cproc x

/-- The list keeps the block discipline and ends outside a block, whatever follows it (R235). -/
def KeepsDiscipline (is : List Instr) : Prop :=
  ∀ js, blockDisciplined false (is ++ js) = blockDisciplined false js

/-- Outside a block only CPROC starts one. -/
theorem NoCproc.keepsDiscipline {is : List Instr} (h : NoCproc is) : KeepsDiscipline is := by
  intro js
  induction is with
  | nil => rfl
  | cons i is ih =>
    obtain ⟨hi, hrest⟩ := List.forall_mem_cons.1 h
    cases i with
    | cproc x => exact absurd rfl (hi x)
    | proc | ldc | rst | byp | slope | cbyp | crst | blk | rdst => exact ih hrest

theorem KeepsDiscipline.append {is js : List Instr} (hi : KeepsDiscipline is) (hj : KeepsDiscipline js) :
    KeepsDiscipline (is ++ js) := by
  intro ks
  rw [List.append_assoc, hi, hj]

theorem KeepsDiscipline.insertReads {is : List Instr} (h : KeepsDiscipline is) (reads : List Nat) :
    KeepsDiscipline (insertReads reads is) :=
  fun js => (blockDisciplined_insertReads reads false is js).trans (h js)

theorem KeepsDiscipline.blockDisciplined {is : List Instr} (h : KeepsDiscipline is) :
    blockDisciplined false is = true := by
  rw [← List.append_nil is, h]
  rfl

/-- The samples of a block end with its BLK (R174). -/
theorem blockDisciplined_sampleCommands (samples : List Word) (b : Bool) (js : List Instr) :
    blockDisciplined b (sampleCommands samples ++ js) = blockDisciplined false js := by
  induction samples generalizing b with
  | nil => rfl
  | cons x xs ih => exact ih true

theorem noCproc_loadCommands (i : Nat) (sets : List CoefSet) : NoCproc (loadCommands i sets) := by
  induction sets generalizing i with
  | nil => exact List.forall_mem_nil _
  | cons c cs ih => exact List.forall_mem_cons.2 ⟨fun _ => Instr.noConfusion, ih _⟩

theorem noCproc_valueClears (active i : Nat) (sets held : List CoefSet) :
    NoCproc (valueClears active i sets held) := by
  induction sets generalizing i held with
  | nil => exact List.forall_mem_nil _
  | cons c cs ih =>
    cases held with
    | nil => exact List.forall_mem_cons.2 ⟨fun _ => Instr.noConfusion, ih _ _⟩
    | cons h hs =>
      rw [valueClears]
      split
      · exact List.forall_mem_cons.2 ⟨fun _ => Instr.noConfusion, ih _ _⟩
      · exact ih _ _

theorem noCproc_crst : NoCproc [.crst] := List.forall_mem_singleton.2 fun _ => Instr.noConfusion

theorem noCproc_clearingCommands (policy : ClearPolicy) (v : UnitView) (sets : List CoefSet) :
    NoCproc (clearingCommands policy v sets) := by
  cases policy with
  | never => exact List.forall_mem_nil _
  | onSlopeChange =>
    rw [clearingCommands]
    split
    · exact List.forall_mem_nil _
    · split
      · exact List.forall_mem_nil _
      · exact noCproc_crst
  | onValueChange =>
    rw [clearingCommands]
    split
    · exact noCproc_valueClears _ _ _ _
    · exact noCproc_valueClears _ _ _ _

theorem noCproc_configCommands (policy : ClearPolicy) (v : UnitView) (sets : List CoefSet) (bypass : Bool)
    (skips : List Bool) : NoCproc (configCommands policy v sets bypass skips) := by
  have hloads : NoCproc (loadCommandsSkipping skips 0 sets v.held) := fun i hi =>
    noCproc_loadCommands 0 sets i ((loadCommandsSkipping_sublist skips 0 sets v.held).subset hi)
  have hslope : NoCproc (.slope (slopeCode sets.length) :: loadCommandsSkipping skips 0 sets v.held) :=
    List.forall_mem_cons.2 ⟨fun _ => Instr.noConfusion, hloads⟩
  have hcbyp : NoCproc [.cbyp bypass] := List.forall_mem_singleton.2 fun _ => Instr.noConfusion
  exact List.forall_mem_append.2 ⟨List.forall_mem_append.2 ⟨noCproc_clearingCommands policy v sets, hslope⟩, hcbyp⟩

theorem keepsDiscipline_blockCommands (b : BlockPlan) : KeepsDiscipline (blockCommands b) :=
  ((noCproc_configCommands _ _ _ _ _).keepsDiscipline.append
    (blockDisciplined_sampleCommands b.samples false)).insertReads b.reads

/-- Settles O55, by induction on the blocks: each one ends outside a block. -/
theorem blockCommandsKeepDiscipline : Obligations.BlockCommandsKeepDiscipline := by
  intro blocks
  refine KeepsDiscipline.blockDisciplined ?_
  induction blocks with
  | nil => exact fun _ => rfl
  | cons b bs ih =>
    rw [List.flatMap_cons]
    exact (keepsDiscipline_blockCommands b).append ih

end Sys2Proof.Machine
end

section
/-! PROOFS. The controller accepts exactly the moves that keep its order of duties (R182, R232). -/

namespace Sys2Proof.Machine

open Sys2Proof

/-- A sample rate at which no cutoff in range is refused: above 40000 Hz, with n stable sets for every cutoff in range
(R172, R183, R238). -/
def DesignFunction.GoodRate (design : DesignFunction ℝ) (fs : ℝ) : Prop :=
  40000 < fs ∧ ∀ (k : CutKind) (f : ℝ) (n : Nat), 20 ≤ f → f ≤ 20000 → 1 ≤ n → n ≤ 4 →
    (design k f fs n).length = n ∧ (design k f fs n).all CoefSet.stable = true

/-- The operation of a move is in range: a good sample rate, settings as R172 has them. -/
def HostOp.GoodFor (design : DesignFunction ℝ) (op : HostOp ℝ) : Prop :=
  (∀ fs, op = .prepare fs → design.GoodRate fs) ∧ ∀ st, op = .updateFromSettings st → st.inRange = true

/-- A controller past its first `prepare` has recorded a good sample rate. -/
def Driver.Ready (design : DesignFunction ℝ) (d : Driver ℝ) : Prop :=
  d.phase ≠ .unprepared → ∃ fs, d.fs = some fs ∧ design.GoodRate fs

theorem dutiful_cons {K : Type} (ph : DutyPhase) (op : HostOp K) (ops : List (HostOp K)) :
    dutiful ph (op :: ops) = true ↔ ∃ ph', ph.next op = some ph' ∧ dutiful ph' ops = true := by
  rw [dutiful]
  cases ph.next op <;> simp

theorem slopeLegal_iff {slope : Nat} :
    slopeLegal slope = true ↔ slope = 12 ∨ slope = 24 ∨ slope = 36 ∨ slope = 48 := by
  simp [slopeLegal, or_assoc]

theorem freqLegal_iff {f : ℝ} : freqLegal f = true ↔ 20 ≤ f ∧ f ≤ 20000 := by
  simp [freqLegal]

/-- Before the first `prepare` there is `prepare`, or a `reset` that changes nothing (R182, log entry 18). -/
theorem DutyPhase.next_unprepared {K : Type} {op : HostOp K} {ph : DutyPhase}
    (h : DutyPhase.unprepared.next op = some ph) : (∃ fs, op = .prepare fs) ∨ op = .reset ∧ ph = .unprepared := by
  cases op with
  | prepare fs => exact .inl ⟨fs, rfl⟩
  | updateFromSettings | process => cases h
  | reset => exact .inr ⟨rfl, (Option.some.inj h).symm⟩

/-- What settings in range give a unit: a cutoff in range and one to four stages (R172, R173). -/
theorem Settings.inRange_unit {st : Settings ℝ} (h : st.inRange = true) (kind : CutKind) :
    (20 ≤ st.freq kind ∧ st.freq kind ≤ 20000) ∧ 1 ≤ activeStages (st.slope kind) ∧
      activeStages (st.slope kind) ≤ 4 := by
  simp only [Settings.inRange, Bool.and_eq_true, freqLegal_iff, slopeLegal_iff] at h
  obtain ⟨⟨⟨hlow, hhigh⟩, hlowSlope⟩, hhighSlope⟩ := h
  cases kind with
  | highPass => exact ⟨hlow, by rw [Settings.slope, activeStages]; omega⟩
  | lowPass => exact ⟨hhigh, by rw [Settings.slope, activeStages]; omega⟩

/-- At a good sample rate settings in range are configured (R174). -/
theorem Driver.configure_of_inRange {design : DesignFunction ℝ} {d : Driver ℝ} {fs : ℝ} {st : Settings ℝ}
    (hfs : d.fs = some fs) (hgood : design.GoodRate fs) (hst : st.inRange = true) (kind : CutKind) (skips : List Bool) :
    ∃ view is, d.configure design kind st skips = some ({ d with view := view }, is) ∧ KeepsDiscipline is := by
  obtain ⟨hrate, hdesign⟩ := hgood
  obtain ⟨⟨hmin, hmax⟩, hone, hfour⟩ := st.inRange_unit hst kind
  obtain ⟨hlen, hstable⟩ := hdesign kind _ _ hmin hmax hone hfour
  rw [Driver.configure, hfs]
  exact ⟨_, _, if_pos ⟨hst, by linarith, hlen, hstable⟩, (noCproc_configCommands _ _ _ _ _).keepsDiscipline⟩

/-- A host operation in its place and in range is carried out, and its commands keep the discipline (R182). -/
theorem Driver.carryOut_of_good {design : DesignFunction ℝ} {d : Driver ℝ} {m : Move ℝ} {phase : DutyPhase}
    (hready : d.Ready design) (hnext : d.phase.next m.op = some phase) (hgood : m.op.GoodFor design) (kind : CutKind) :
    ∃ e is, d.carryOut design kind m = some (e, is) ∧ Driver.Ready design { e with phase := phase } ∧
      KeepsDiscipline is := by
  obtain ⟨hprepare, hupdate⟩ := hgood
  have hrecorded : (∀ fs, m.op ≠ .prepare fs) → m.op ≠ .reset ∨ phase ≠ .unprepared →
      ∃ fs, d.fs = some fs ∧ design.GoodRate fs := by
    intro hop hor
    refine hready fun hd => ?_
    rw [hd] at hnext
    obtain ⟨fs, hfs⟩ | ⟨hreset, hphase⟩ := DutyPhase.next_unprepared hnext
    · exact hop fs hfs
    · exact hor.elim (· hreset) (· hphase)
  rw [Driver.carryOut]
  cases hop : m.op with
  | prepare fs =>
    have hfs := hprepare fs hop
    exact ⟨_, _, if_pos (by linarith [hfs.1]), fun _ => ⟨fs, rfl, hfs⟩, noCproc_crst.keepsDiscipline⟩
  | updateFromSettings st =>
    obtain ⟨fs, hfs, hrate⟩ := hrecorded (by simp [hop]) (.inl (by simp [hop]))
    obtain ⟨view, is, hconf, hkeeps⟩ := Driver.configure_of_inRange hfs hrate (hupdate st hop) kind m.skips
    exact ⟨_, is, hconf, fun _ => ⟨fs, hfs, hrate⟩, hkeeps⟩
  | process samples =>
    exact ⟨d, _, rfl, fun h => hrecorded (by simp [hop]) (.inr h), blockDisciplined_sampleCommands samples false⟩
  | reset => exact ⟨d, _, rfl, fun h => hrecorded (by simp [hop]) (.inr h), noCproc_crst.keepsDiscipline⟩

/-- Moves in order and in range are all performed. -/
theorem Driver.performAll_of_dutiful {design : DesignFunction ℝ} {d : Driver ℝ} {ms : List (Move ℝ)}
    (hready : d.Ready design) (hduty : dutiful d.phase (ms.map Move.op) = true)
    (hgood : ∀ m ∈ ms, m.op.GoodFor design) (kind : CutKind) :
    ∃ is, d.performAll design kind ms = some is ∧ KeepsDiscipline is := by
  induction ms generalizing d with
  | nil => exact ⟨[], rfl, fun _ => rfl⟩
  | cons m ms ih =>
    obtain ⟨hm, hms⟩ := List.forall_mem_cons.1 hgood
    obtain ⟨phase, hnext, hrest⟩ := (dutiful_cons _ _ _).1 hduty
    obtain ⟨e, is, hcarry, hready', his⟩ := Driver.carryOut_of_good hready hnext hm kind
    obtain ⟨js, hall, hjs⟩ := ih hready' hrest hms
    refine ⟨insertReads m.reads is ++ js, ?_, (his.insertReads m.reads).append hjs⟩
    rw [Driver.performAll, Driver.perform, hnext, hcarry]
    simp only [hall]

/-- A move out of order is refused, and with it the list (R182). -/
theorem Driver.performAll_eq_none_of_not_dutiful {design : DesignFunction ℝ} {kind : CutKind} {d : Driver ℝ}
    {ms : List (Move ℝ)} (hduty : dutiful d.phase (ms.map Move.op) = false) : d.performAll design kind ms = none := by
  induction ms generalizing d with
  | nil => cases hduty
  | cons m ms ih =>
    rw [Driver.performAll]
    cases hperform : d.perform design kind m with
    | none => rfl
    | some r =>
      obtain ⟨d', is⟩ := r
      obtain ⟨phase, e, js, hnext, -, rfl, -⟩ := Driver.perform_cases hperform
      rw [List.map_cons, dutiful, hnext] at hduty
      simp only [ih (d := { e with phase := phase }) hduty]

/-- Settles O56, by induction on the moves from the controller before its first operation. -/
theorem dutifulControllerIsAccepted : Obligations.DutifulControllerIsAccepted := by
  intro design kind policy ms
  refine ⟨fun hduty hrates hsettings => ?_, fun hduty => Driver.performAll_eq_none_of_not_dutiful hduty⟩
  have hready : (Driver.initial policy).Ready design := fun h => absurd rfl h
  obtain ⟨is, hall, hkeeps⟩ := Driver.performAll_of_dutiful hready hduty
    (fun m hm => ⟨hrates m hm, hsettings m hm⟩) kind
  exact ⟨is, hall, hkeeps.blockDisciplined⟩

end Sys2Proof.Machine
end

section
/-! PROOFS. The configuration commands of a block commute (R179, R233). -/

namespace Sys2Proof.Machine

open Sys2Proof

/-- The state a command leaves; every command has one (`exec_next`). -/
def effect (s : State) (i : Instr) : State :=
  match exec i s with
  | .next t => t
  | .fault _ | .refused _ => s

theorem exec_eq_next_effect (i : Instr) (s : State) : exec i s = .next (effect s i) := by
  obtain ⟨t, ht, -⟩ := exec_next i s
  rw [effect, ht]

theorem execAll_eq_next_foldl_effect (is : List Instr) (s : State) : execAll is s = .next (is.foldl effect s) := by
  induction is generalizing s with
  | nil => rfl
  | cons i is ih => rw [execAll_cons is (exec_eq_next_effect i s), ih, List.foldl_cons]

/-- Either order of two commands leaves the same state. -/
def CommandsCommute (i j : Instr) : Prop := ∀ s, effect (effect s i) j = effect (effect s j) i

theorem CommandsCommute.symm {i j : Instr} (h : CommandsCommute i j) : CommandsCommute j i := fun s => (h s).symm

/-- Commands that commute pairwise leave the same state in any order. -/
theorem execAll_eq_of_perm {is js : List Instr} (hperm : is.Perm js) (h : js.Pairwise CommandsCommute) (s : State) :
    execAll is s = execAll js s := by
  have hall : ∀ ⦃i⦄, i ∈ js → ∀ ⦃j⦄, j ∈ js → CommandsCommute i j :=
    h.forall_of_forall_of_flip (fun _ _ _ => rfl) (h.imp CommandsCommute.symm)
  rw [execAll_eq_next_foldl_effect, execAll_eq_next_foldl_effect,
    hperm.symm.foldl_eq' (fun _ hi _ hj => hall hi hj) s]

/-- Writes of different slots commute. -/
theorem Bank.set_comm (b : Bank) {j k : Slot} (hjk : j ≠ k) (g h : Stage) :
    (b.set j g).set k h = (b.set k h).set j g :=
  Bank.ext_get fun i => by
    rw [Bank.get_set, Bank.get_set, Bank.get_set, Bank.get_set]
    by_cases hij : i = j
    · rw [if_pos hij, if_pos hij, if_neg (hij.trans_ne hjk)]
    · rw [if_neg hij, if_neg hij]

/-- A write of one slot and a function of every slot commute where they do so on that slot. -/
theorem Bank.mapSlots_set (b : Bank) (f : Slot → Stage → Stage) (k : Slot) (g : Stage) :
    (b.set k g).mapSlots f = (b.mapSlots f).set k (f k g) :=
  Bank.ext_get fun i => by
    rw [Bank.get_mapSlots, Bank.get_set, Bank.get_set, Bank.get_mapSlots]
    by_cases hik : i = k
    · rw [if_pos hik, if_pos hik, hik]
    · rw [if_neg hik, if_neg hik]

theorem effect_loadCommand (s : State) (i : Nat) (c : CoefSet) : effect s (loadCommand i c)
    = (s.setSlot (Fin.ofNat 4 i) ((s.slot (Fin.ofNat 4 i)).load c)).advance 6 := rfl

theorem effect_slope (s : State) (c : Slot) :
    effect s (.slope c) = (s.mapSlots fun k g => g.setByp (slopeByp c k)).advance 1 := rfl

/-- Loads of different slots write different slots (R114). -/
theorem loadCommand_commutes_of_ne {i j : Nat} (h : Fin.ofNat 4 i ≠ Fin.ofNat 4 j) (c d : CoefSet) :
    CommandsCommute (loadCommand i c) (loadCommand j d) := by
  intro s
  simp only [effect_loadCommand, State.advance_slot, State.setSlot_slot_of_ne _ _ h,
    State.setSlot_slot_of_ne _ _ h.symm]
  have hst := s.st.set_comm h ((s.slot (Fin.ofNat 4 i)).load c) ((s.slot (Fin.ofNat 4 j)).load d)
  exact congrArg (fun st => ({ s with st := st } : State).advance 12) hst

/-- SLOPE writes bypass bits, LDC coefficients (R114, R142). -/
theorem slope_commutes_loadCommand (c : Slot) (i : Nat) (d : CoefSet) :
    CommandsCommute (.slope c) (loadCommand i d) := by
  intro s
  simp only [effect_loadCommand, effect_slope, State.advance_slot, State.mapSlots_slot]
  have hst := s.st.mapSlots_set (fun k g => g.setByp (slopeByp c k)) (Fin.ofNat 4 i) ((s.slot (Fin.ofNat 4 i)).load d)
  exact congrArg (fun st => ({ s with st := st } : State).advance 7) hst.symm

theorem slope_commutes_cbyp (c : Slot) (b : Bool) : CommandsCommute (.slope c) (.cbyp b) := fun _ => rfl

theorem loadCommand_commutes_cbyp (i : Nat) (c : CoefSet) (b : Bool) :
    CommandsCommute (loadCommand i c) (.cbyp b) := fun _ => rfl

/-- The loads of a block are those of its slots. -/
theorem mem_loadCommands {i : Nat} {sets : List CoefSet} {j : Instr} (h : j ∈ loadCommands i sets) :
    ∃ n c, i ≤ n ∧ n < i + sets.length ∧ j = loadCommand n c := by
  induction sets generalizing i with
  | nil => cases h
  | cons c cs ih =>
    obtain rfl | h := List.mem_cons.1 h
    · exact ⟨i, c, le_rfl, by simp, rfl⟩
    · obtain ⟨n, d, hin, hn, rfl⟩ := ih h
      exact ⟨n, d, by omega, by rw [List.length_cons]; omega, rfl⟩

/-- The loads of at most four sets are of different slots. -/
theorem loadCommands_pairwise_commute {i : Nat} {sets : List CoefSet} (hlen : i + sets.length ≤ 4) :
    (loadCommands i sets).Pairwise CommandsCommute := by
  induction sets generalizing i with
  | nil => exact .nil
  | cons c cs ih =>
    rw [List.length_cons] at hlen
    refine .cons (fun j hj => ?_) (ih (by omega))
    obtain ⟨n, d, hin, hn, rfl⟩ := mem_loadCommands hj
    refine loadCommand_commutes_of_ne (fun h => ?_) c d
    have hval := congrArg Fin.val h
    rw [Fin.val_ofNat, Fin.val_ofNat] at hval
    omega

/-- The configuration commands of a block commute pairwise (R179). -/
theorem configuration_pairwise_commute (c : Slot) {sets : List CoefSet} (b : Bool) (hlen : sets.length ≤ 4) :
    List.Pairwise CommandsCommute (.slope c :: loadCommands 0 sets ++ [.cbyp b]) := by
  have hloads : (loadCommands 0 sets).Pairwise CommandsCommute := loadCommands_pairwise_commute (by omega)
  refine List.pairwise_append.2 ⟨.cons (fun j hj => ?_) hloads, List.pairwise_singleton _ _, fun i hi j hj => ?_⟩
  · obtain ⟨n, d, -, -, rfl⟩ := mem_loadCommands hj
    exact slope_commutes_loadCommand c n d
  · obtain rfl := List.mem_singleton.1 hj
    obtain rfl | hi := List.mem_cons.1 hi
    · exact slope_commutes_cbyp c b
    · obtain ⟨n, d, -, -, rfl⟩ := mem_loadCommands hi
      exact loadCommand_commutes_cbyp n d b

/-- Settles O58: the configuration commands commute. -/
theorem configurationOrderIrrelevant : Obligations.ConfigurationOrderIrrelevant :=
  fun c _ b _ s hlen hperm => execAll_eq_of_perm hperm (configuration_pairwise_commute c b hlen) s

end Sys2Proof.Machine
end

section
/-! PROOFS. The attenuations of the exact design's stages (R183) multiply to that of a Butterworth filter. -/

namespace Sys2Proof.Machine

open Sys2Proof

/-- The angle of stage `i` of `n` in R183. -/
noncomputable def stageAngle (n i : ℕ) : ℝ := (2 * i + 1) * Real.pi / (2 * (2 * n))

/-- The `1 / Q_i` of R183. -/
noncomputable def stageDamping (n i : ℕ) : ℝ := 2 * Real.cos (stageAngle n i)

open Polynomial in
/-- The Chebyshev polynomial `T_n` has the `n` roots `cos (2 stageAngle n i)`. -/
theorem roots_chebyshev_eq_map (n : ℕ) :
    (Chebyshev.T ℝ n).roots = (Multiset.range n).map fun i => Real.cos (2 * stageAngle n i) := by
  have hangle : (fun i : ℕ => Real.cos (2 * stageAngle n i))
      = fun i : ℕ => Real.cos ((2 * i + 1) * Real.pi / (2 * n)) :=
    funext fun i => congrArg Real.cos (by rw [stageAngle]; ring)
  rw [hangle, Chebyshev.roots_T_real, Finset.image_val]
  exact (Chebyshev.roots_T_real_nodup n).dedup

open Polynomial in
/-- The factors of `x^n + y^n` at the roots of the Chebyshev polynomial, where `x y = 1`. -/
theorem prod_sub_two_mul_cos {x y : ℝ} (hxy : x * y = 1) {n : ℕ} (hn : n ≠ 0) :
    ∏ i ∈ Finset.range n, (x + y - 2 * Real.cos (2 * stageAngle n i)) = x ^ n + y ^ n := by
  have hsplits : (Chebyshev.T ℝ n).Splits := splits_iff_card_roots.2 (by simp [roots_chebyshev_eq_map])
  have hT : (Chebyshev.T ℝ n).eval ((x + y) / 2)
      = 2 ^ (n - 1) * ∏ i ∈ Finset.range n, ((x + y) / 2 - Real.cos (2 * stageAngle n i)) := by
    rw [hsplits.eval_eq_prod_roots, roots_chebyshev_eq_map, Chebyshev.leadingCoeff_T, Multiset.map_map]
    rfl
  have hC : 2 * (Chebyshev.T ℝ n).eval ((x + y) / 2) = x ^ n + y ^ n := by
    have hcomp := congrArg (eval ((x + y) / 2)) (Chebyshev.C_comp_two_mul_X ℝ n)
    rw [← dickson_one_one_eq_chebyshev_C] at hcomp
    simp only [eval_comp, eval_mul, eval_ofNat, eval_X] at hcomp
    rw [← hcomp, mul_div_cancel₀ _ two_ne_zero, dickson_one_one_eval_add_inv x y hxy]
  calc ∏ i ∈ Finset.range n, (x + y - 2 * Real.cos (2 * stageAngle n i))
      = ∏ i ∈ Finset.range n, 2 * ((x + y) / 2 - Real.cos (2 * stageAngle n i)) :=
        Finset.prod_congr rfl fun i _ => by ring
    _ = 2 * (2 ^ (n - 1) * ∏ i ∈ Finset.range n, ((x + y) / 2 - Real.cos (2 * stageAngle n i))) := by
        rw [Finset.prod_mul_distrib, Finset.prod_const, Finset.card_range, ← mul_assoc, mul_pow_sub_one hn]
    _ = x ^ n + y ^ n := by rw [← hT, hC]

/-- The squared attenuation of stage `i` of `n` where the normalised frequency is `r`. -/
noncomputable def stageAttenuation (n i : ℕ) (r : ℝ) : ℝ := 1 + 2 * r ^ 2 * Real.cos (2 * stageAngle n i) + r ^ 4

/-- The stages multiply to the Butterworth filter of order `2n`. -/
theorem prod_stageAttenuation {n : ℕ} (hn : n ≠ 0) {r : ℝ} (hr : r ≠ 0) :
    ∏ i ∈ Finset.range n, stageAttenuation n i r = 1 + r ^ (4 * n) := by
  have hinv : -r ^ 2 * (-r ^ 2)⁻¹ = 1 := mul_inv_cancel₀ (neg_ne_zero.2 (pow_ne_zero 2 hr))
  have hfactor (i : ℕ) : stageAttenuation n i r
      = -r ^ 2 * (-r ^ 2 + (-r ^ 2)⁻¹ - 2 * Real.cos (2 * stageAngle n i)) := by
    rw [stageAttenuation]
    linear_combination -hinv
  calc ∏ i ∈ Finset.range n, stageAttenuation n i r
      = (-r ^ 2) ^ n * ((-r ^ 2) ^ n + (-r ^ 2)⁻¹ ^ n) := by
        rw [Finset.prod_congr rfl fun i _ => hfactor i, Finset.prod_mul_distrib, Finset.prod_const,
          Finset.card_range, prod_sub_two_mul_cos hinv hn]
    _ = (-r ^ 2 * -r ^ 2) ^ n + (-r ^ 2 * (-r ^ 2)⁻¹) ^ n := by rw [mul_pow, mul_pow, mul_add]
    _ = 1 + r ^ (4 * n) := by
        rw [hinv, one_pow, pow_mul]
        ring

end Sys2Proof.Machine
end

section
/-! PROOFS. The response of one stage of the exact design (R117, R184, R185): that of a Butterworth stage. -/

namespace Sys2Proof.Machine

open Sys2Proof

theorem stageDamping_pos {n i : ℕ} (hi : i < n) : 0 < stageDamping n i := by
  have hn : (0 : ℝ) < n := by exact_mod_cast (Nat.zero_le i).trans_lt hi
  have hin : (i : ℝ) + 1 ≤ n := by exact_mod_cast hi
  have hpos : 0 < stageAngle n i := by
    rw [stageAngle]
    positivity
  have hquarter : stageAngle n i < Real.pi / 2 := by
    rw [stageAngle, div_lt_div_iff₀ (by positivity) two_pos]
    nlinarith [Real.pi_pos]
  exact mul_pos two_pos (Real.cos_pos_of_mem_Ioo ⟨by linarith [Real.pi_pos], hquarter⟩)

theorem stageAttenuation_eq (n i : ℕ) (r : ℝ) :
    stageAttenuation n i r = (1 - r ^ 2) ^ 2 + (r * stageDamping n i) ^ 2 := by
  rw [stageAttenuation, stageDamping, Real.cos_two_mul]
  ring

theorem stageAttenuation_pos {n i : ℕ} (hi : i < n) {r : ℝ} (hr : 0 < r) : 0 < stageAttenuation n i r := by
  have := stageDamping_pos hi
  rw [stageAttenuation_eq]
  positivity

/-- `z` is the image of `I t` under the bilinear transform, which the design's coefficients come from. -/
def IsBilinear (z : ℂ) (t : ℝ) : Prop := z ≠ 0 ∧ 1 + z⁻¹ ≠ 0 ∧ 1 - z⁻¹ = Complex.I * t * (1 + z⁻¹)

/-- On the unit circle at angle `2 x` the transform is `I tan x`. -/
theorem isBilinear_exp {x : ℝ} (hx : Real.cos x ≠ 0) : IsBilinear (Complex.exp (2 * x * Complex.I)) (Real.tan x) := by
  have hcos : Complex.cos x ≠ 0 := by exact_mod_cast hx
  have hpyth := Complex.sin_sq_add_cos_sq (x : ℂ)
  have hexp : (Complex.exp (2 * x * Complex.I))⁻¹ = Complex.exp (-x * Complex.I) ^ 2 := by
    rw [← Complex.exp_neg, ← Complex.exp_nat_mul]
    ring_nf
  have hhalf : Complex.exp (-x * Complex.I) = Complex.cos x - Complex.sin x * Complex.I := by
    rw [Complex.exp_mul_I, Complex.cos_neg, Complex.sin_neg, neg_mul, sub_eq_add_neg]
  have hadd : 1 + (Complex.exp (2 * x * Complex.I))⁻¹ = 2 * Complex.cos x * Complex.exp (-x * Complex.I) := by
    rw [hexp, hhalf]
    linear_combination -hpyth + Complex.sin x ^ 2 * Complex.I_sq
  refine ⟨Complex.exp_ne_zero _, ?_, ?_⟩
  · rw [hadd]
    exact mul_ne_zero (mul_ne_zero two_ne_zero hcos) (Complex.exp_ne_zero _)
  · rw [hadd, Complex.ofReal_tan, Complex.tan_eq_sin_div_cos, hexp, hhalf]
    field_simp
    linear_combination -hpyth + Complex.sin x ^ 2 * Complex.I_sq

/-- A set whose denominator is its numerator times a Butterworth factor has that factor's inverse as its response. -/
theorem exists_setResponse_of_factor {c : ExactSet} {z σ : ℂ} {n i : ℕ} {r s : ℝ} (hi : i < n) (hr : 0 < r)
    (hs : s ^ 2 = 1) (hz : z ≠ 0) (hσ : σ ≠ 0) (hnum : (c.b0 + c.b1 * z⁻¹ + c.b2 * z⁻¹ ^ 2 : ℂ) = σ)
    (hden : (1 + c.a1 * z⁻¹ + c.a2 * z⁻¹ ^ 2 : ℂ)
      = σ * ((1 - r ^ 2 : ℝ) + (s * (r * stageDamping n i) : ℝ) * Complex.I)) :
    ∃ h, SetResponse c z h ∧ ‖h‖ ^ 2 = (stageAttenuation n i r)⁻¹ := by
  generalize hD : ((1 - r ^ 2 : ℝ) + (s * (r * stageDamping n i) : ℝ) * Complex.I : ℂ) = D at hden
  have hnorm : ‖D‖ ^ 2 = stageAttenuation n i r := by
    rw [← hD, Complex.sq_norm, Complex.normSq_add_mul_I, mul_pow s, hs, one_mul, stageAttenuation_eq]
  have hD0 : D ≠ 0 := by
    rintro rfl
    simp only [norm_zero, ne_eq, OfNat.ofNat_ne_zero, not_false_eq_true, zero_pow] at hnorm
    exact (stageAttenuation_pos hi hr).ne hnorm
  refine ⟨D⁻¹, ⟨hz, hden ▸ mul_ne_zero hσ hD0, ?_⟩, ?_⟩
  · rw [hnum, hden, div_mul_cancel_left₀ hσ]
  · rw [norm_inv, inv_pow, hnorm]

/-- The factor the five coefficients of a set have in common (R184, R185). -/
noncomputable def designScale (k : ℝ) (n i : ℕ) : ℝ := 1 / (1 + k * stageDamping n i + k ^ 2)

theorem designScale_mul {k : ℝ} (hk : 0 < k) {n i : ℕ} (hi : i < n) :
    designScale k n i * (1 + k * stageDamping n i + k ^ 2) = 1 := by
  have := stageDamping_pos hi
  exact one_div_mul_cancel (by positivity)

theorem exactDesignSet_highPass (f fs : ℝ) (n i : ℕ) {k : ℝ} (hk : Real.tan (Real.pi * f / fs) = k) :
    exactDesignSet .highPass f fs n i =
      { b0 := designScale k n i, b1 := -2 * designScale k n i, b2 := designScale k n i,
        a1 := 2 * designScale k n i * (k ^ 2 - 1),
        a2 := designScale k n i * (1 - k * stageDamping n i + k ^ 2) } := by
  subst hk
  simp only [exactDesignSet, designScale, stageDamping, stageAngle, div_div_eq_mul_div, div_one]

theorem exactDesignSet_lowPass (f fs : ℝ) (n i : ℕ) {k : ℝ} (hk : 1 / Real.tan (Real.pi * f / fs) = k) :
    exactDesignSet .lowPass f fs n i =
      { b0 := designScale k n i, b1 := 2 * designScale k n i, b2 := designScale k n i,
        a1 := 2 * designScale k n i * (1 - k ^ 2),
        a2 := designScale k n i * (1 - k * stageDamping n i + k ^ 2) } := by
  subst hk
  simp only [exactDesignSet, designScale, stageDamping, stageAngle, div_div_eq_mul_div, div_one]

/-- A high-pass stage with the cutoff's tangent `r` times the test frequency's tangent `t` (R184). -/
theorem exists_setResponse_highPass {f fs t r : ℝ} {n i : ℕ} {z : ℂ} (hi : i < n) (ht : 0 < t) (hr : 0 < r)
    (hz : IsBilinear z t) (hk : Real.tan (Real.pi * f / fs) = r * t) :
    ∃ h, SetResponse (exactDesignSet .highPass f fs n i) z h ∧ ‖h‖ ^ 2 = (stageAttenuation n i r)⁻¹ := by
  obtain ⟨hz0, hadd, hsub⟩ := hz
  rw [exactDesignSet_highPass f fs n i hk]
  have hscale := designScale_mul (mul_pos hr ht) hi
  generalize designScale (r * t) n i = c at hscale ⊢
  have hc : (c : ℂ) ≠ 0 := by exact_mod_cast left_ne_zero_of_mul_eq_one hscale
  have ht' : (t : ℂ) ≠ 0 := by exact_mod_cast ht.ne'
  have hscale' : (c * (1 + r * t * stageDamping n i + (r * t) ^ 2) : ℂ) = 1 := by exact_mod_cast hscale
  refine exists_setResponse_of_factor (σ := -c * t ^ 2 * (1 + z⁻¹) ^ 2) hi hr neg_one_sq hz0
    (mul_ne_zero (mul_ne_zero (neg_ne_zero.2 hc) (pow_ne_zero 2 ht')) (pow_ne_zero 2 hadd)) ?_ ?_
  · push_cast
    linear_combination c * ((1 - z⁻¹) + Complex.I * t * (1 + z⁻¹)) * hsub
      + c * t ^ 2 * (1 + z⁻¹) ^ 2 * Complex.I_sq
  · push_cast
    linear_combination -hscale' + c * t ^ 2 * (1 + z⁻¹) ^ 2 * Complex.I_sq
      + c * ((1 - z⁻¹) + Complex.I * t * (1 + z⁻¹) + r * t * stageDamping n i * (1 + z⁻¹)) * hsub

/-- A low-pass stage with `k` the inverse of the cutoff's tangent, `t` the test frequency's tangent (R185). -/
theorem exists_setResponse_lowPass {f fs t k : ℝ} {n i : ℕ} {z : ℂ} (hi : i < n) (ht : 0 < t) (hk0 : 0 < k)
    (hz : IsBilinear z t) (hk : 1 / Real.tan (Real.pi * f / fs) = k) :
    ∃ h, SetResponse (exactDesignSet .lowPass f fs n i) z h ∧ ‖h‖ ^ 2 = (stageAttenuation n i (k * t))⁻¹ := by
  obtain ⟨hz0, hadd, hsub⟩ := hz
  rw [exactDesignSet_lowPass f fs n i hk]
  have hscale := designScale_mul hk0 hi
  generalize designScale k n i = c at hscale ⊢
  have hc : (c : ℂ) ≠ 0 := by exact_mod_cast left_ne_zero_of_mul_eq_one hscale
  have hscale' : (c * (1 + k * stageDamping n i + k ^ 2) : ℂ) = 1 := by exact_mod_cast hscale
  refine exists_setResponse_of_factor (σ := c * (1 + z⁻¹) ^ 2) hi (mul_pos hk0 ht) (one_pow 2) hz0
    (mul_ne_zero hc (pow_ne_zero 2 hadd)) ?_ ?_
  · push_cast
    ring
  · push_cast
    linear_combination -hscale' + c * k ^ 2 * t ^ 2 * (1 + z⁻¹) ^ 2 * Complex.I_sq
      + c * (k ^ 2 * ((1 - z⁻¹) + Complex.I * t * (1 + z⁻¹)) + k * stageDamping n i * (1 + z⁻¹)) * hsub

end Sys2Proof.Machine
end

section
/-! PROOFS. The gain of the exact design in the stopband (R148, R189). -/

namespace Sys2Proof.Machine

open Sys2Proof

/-- How far a test frequency lies beyond the cutoff: the ratio of their tangents, above 1 in the stopband. -/
noncomputable def stopbandRatio (kind : CutKind) (f fs test : ℝ) : ℝ :=
  match kind with
  | .highPass => Real.tan (Real.pi * f / fs) / Real.tan (Real.pi * test / fs)
  | .lowPass => Real.tan (Real.pi * test / fs) / Real.tan (Real.pi * f / fs)

/-- A frequency between 0 and FS/2 has its angle in the first quarter. -/
theorem pi_mul_div_mem_Ioo {f fs : ℝ} (hf : 0 < f) (hfs : f < fs / 2) :
    Real.pi * f / fs ∈ Set.Ioo 0 (Real.pi / 2) := by
  have hpi := Real.pi_pos
  have hfs0 : 0 < fs := by linarith
  refine ⟨by positivity, ?_⟩
  rw [div_lt_div_iff₀ hfs0 two_pos]
  nlinarith

theorem tan_pi_mul_div_pos {f fs : ℝ} (hf : 0 < f) (hfs : f < fs / 2) : 0 < Real.tan (Real.pi * f / fs) := by
  obtain ⟨hpos, hquarter⟩ := pi_mul_div_mem_Ioo hf hfs
  exact Real.tan_pos_of_pos_of_lt_pi_div_two hpos hquarter

theorem tan_pi_mul_div_lt {f g fs : ℝ} (hf : 0 < f) (hfg : f < g) (hg : g < fs / 2) :
    Real.tan (Real.pi * f / fs) < Real.tan (Real.pi * g / fs) := by
  have hfs : 0 < fs := by linarith
  obtain ⟨hpos, -⟩ := pi_mul_div_mem_Ioo hf (hfg.trans hg)
  obtain ⟨-, hquarter⟩ := pi_mul_div_mem_Ioo (hf.trans hfg) hg
  refine Real.tan_lt_tan_of_nonneg_of_lt_pi_div_two hpos.le hquarter ?_
  exact div_lt_div_of_pos_right (mul_lt_mul_of_pos_left hfg Real.pi_pos) hfs

/-- In the stopband the test frequency too lies between 0 and FS/2, and its ratio is above 1. -/
theorem InStopband.bounds {kind : CutKind} {f fs test : ℝ} (hf : 0 < f) (hfs : f < fs / 2)
    (h : InStopband kind f fs test) : 0 < test ∧ test < fs / 2 ∧ 1 < stopbandRatio kind f fs test := by
  cases kind with
  | highPass =>
    obtain ⟨hpos, hlt⟩ := h
    have hfs' := hlt.trans hfs
    exact ⟨hpos, hfs', (one_lt_div (tan_pi_mul_div_pos hpos hfs')).2 (tan_pi_mul_div_lt hpos hlt hfs)⟩
  | lowPass =>
    obtain ⟨hlt, hfs'⟩ := h
    exact ⟨hf.trans hlt, hfs', (one_lt_div (tan_pi_mul_div_pos hf hfs)).2 (tan_pi_mul_div_lt hf hlt hfs')⟩

/-- A stage's response at a test frequency: the Butterworth stage's of its ratio (R184, R185). -/
theorem exists_setResponse_exactDesignSet (kind : CutKind) {f fs test : ℝ} {n i : ℕ} (hi : i < n) (hf : 0 < f)
    (hfs : f < fs / 2) (htest : 0 < test) (htestfs : test < fs / 2) :
    ∃ h, SetResponse (exactDesignSet kind f fs n i) (Complex.exp (2 * Real.pi * test / fs * Complex.I)) h ∧
      ‖h‖ ^ 2 = (stageAttenuation n i (stopbandRatio kind f fs test))⁻¹ := by
  have hk := tan_pi_mul_div_pos hf hfs
  have ht := tan_pi_mul_div_pos htest htestfs
  obtain ⟨hpos, hquarter⟩ := pi_mul_div_mem_Ioo htest htestfs
  have hz := isBilinear_exp (Real.cos_pos_of_mem_Ioo ⟨by linarith, hquarter⟩).ne'
  have hangle : (2 * (Real.pi * test / fs : ℝ) * Complex.I : ℂ) = 2 * Real.pi * test / fs * Complex.I := by
    push_cast
    ring
  rw [hangle] at hz
  cases kind with
  | highPass => exact exists_setResponse_highPass hi ht (div_pos hk ht) hz (div_mul_cancel₀ _ ht.ne').symm
  | lowPass =>
    obtain ⟨h, hresponse, hnorm⟩ := exists_setResponse_lowPass hi ht (one_div_pos.2 hk) hz rfl
    exact ⟨h, hresponse, by rw [hnorm, one_div_mul_eq_div]; rfl⟩

/-- The squared magnitude of a cascade's response is the product of its sets' (R148). -/
theorem exists_cascadeResponse_map {set : ℕ → ExactSet} {z : ℂ} {a : ℕ → ℝ} {l : List ℕ}
    (h : ∀ i ∈ l, ∃ h, SetResponse (set i) z h ∧ ‖h‖ ^ 2 = a i) :
    ∃ h, CascadeResponse (l.map set) z h ∧ ‖h‖ ^ 2 = (l.map a).prod := by
  induction l with
  | nil => exact ⟨1, rfl, by simp⟩
  | cons i l ih =>
    obtain ⟨⟨h₁, hset, hnorm₁⟩, hrest⟩ := List.forall_mem_cons.1 h
    obtain ⟨h₂, hcascade, hnorm₂⟩ := ih hrest
    exact ⟨h₁ * h₂, ⟨h₁, h₂, hset, hcascade, rfl⟩, by rw [norm_mul, mul_pow, hnorm₁, hnorm₂]; rfl⟩

/-- The gain of the exact design is that of the Butterworth filter of order `2n` (R189, R190). -/
theorem isGainDb_exactDesign (kind : CutKind) {f fs test : ℝ} {n : ℕ} (hdef : DesignDefined f fs n)
    (hstop : InStopband kind f fs test) :
    IsGainDb (exactDesign kind f fs n) test fs (-(10 * Real.logb 10 (1 + stopbandRatio kind f fs test ^ (4 * n)))) := by
  obtain ⟨hf, hfs, hn, -⟩ := hdef
  obtain ⟨htest, htestfs, hratio⟩ := hstop.bounds hf hfs
  generalize hr : stopbandRatio kind f fs test = r at hratio
  obtain ⟨h, hcascade, hnorm⟩ := exists_cascadeResponse_map (l := List.range n)
    (fun i hi => exists_setResponse_exactDesignSet kind (List.mem_range.1 hi) hf hfs htest htestfs)
  have hprod : ‖h‖ ^ 2 = (1 + r ^ (4 * n))⁻¹ := by
    rw [hnorm, hr, ← prod_stageAttenuation (by omega) (by linarith), ← Finset.prod_inv_distrib]
    rfl
  refine ⟨h, hcascade, ?_⟩
  have hlog := congrArg (Real.logb 10) hprod
  rw [Real.logb_pow, Real.logb_inv] at hlog
  push_cast at hlog
  linarith

/-- Settles O60: above 1 the attenuation of the Butterworth filter grows with its order. -/
theorem steepnessIsMonotonicInStopband : Obligations.SteepnessIsMonotonicInStopband := by
  rintro kind f fs test m n _ _ hmn ⟨hm, rfl⟩ ⟨hn, rfl⟩ hstop
  refine ⟨_, _, isGainDb_exactDesign kind hm hstop, isGainDb_exactDesign kind hn hstop, ?_⟩
  obtain ⟨-, -, hratio⟩ := hstop.bounds hm.1 hm.2.1
  have hpow : stopbandRatio kind f fs test ^ (4 * m) ≤ stopbandRatio kind f fs test ^ (4 * n) :=
    pow_le_pow_right₀ hratio.le (by omega)
  have hlog := Real.logb_le_logb_of_le (b := 10) (by norm_num) (by positivity) (add_le_add_right hpow 1)
  linarith

end Sys2Proof.Machine
end

section
/-! PROOFS. When a step waits (R204, R209, R217), what it does at an erroneous word (R201 to R203), and where the
reading of R208 stops. -/

namespace Sys2Proof.Machine

open Sys2Proof

/-! ### Waiting -/

theorem step_of_stream_nil {s : State} (hs : s.stream = []) : step s = .refused .awaitingWord := by
  rw [step, fetch_nil hs, stepFetched]

/-- With a word to consume a step has a next state, whatever the fetch gives. -/
theorem step_next_of_stream_ne_nil {s : State} (hs : s.stream ≠ []) : ∃ t, step s = .next t := by
  cases hf : fetch s with
  | command i rest =>
    obtain ⟨t, ht, -⟩ := exec_next i (s.accepted none rest)
    exact ⟨t, (step_of_fetch_command hf).trans ht⟩
  | rejected e w rest => exact ⟨_, step_of_fetch_rejected hf⟩
  | incomplete h got => exact ⟨_, step_of_fetch_incomplete hf⟩
  | empty => exact absurd ((fetch_eq_empty_iff s).1 hf) hs

/-- Settles O9, by whether the stream holds a word. -/
theorem stepWaitsOnlyWithoutWords : Obligations.StepWaitsOnlyWithoutWords := by
  intro s
  split
  · exact step_of_stream_nil ‹_›
  · exact step_next_of_stream_ne_nil ‹_›

/-! ### Erroneous words -/

theorem Status.record_errcode (t : Status) (e : CommandError) :
    (t.record e).errcode = if t.errcode = 0#8 then errorCode e else t.errcode := by
  rw [Status.record]
  split <;> rfl

theorem Status.record_ovf (t : Status) (e : CommandError) :
    (t.record e).ovf = if t.errcode = 0#8 then t.ovf else true := by
  rw [Status.record]
  split <;> rfl

/-- A step at an erroneous word records its error, consumes the word and changes nothing else of the unit (R201, R202),
whichever of the two errors it is. -/
theorem step_of_decodeWord_error {s : State} {w : Word} {ws : List Word} {e : CommandError} (hp : s.pend = none)
    (hs : s.stream = w :: ws) (hd : decodeWord w = .error e) :
    ∃ t, step s = .next t ∧
      t.status.errcode = (if s.status.errcode = 0#8 then errorCode e else s.status.errcode) ∧
      t.status.ovf = (if s.status.errcode = 0#8 then s.status.ovf else true) ∧ t.pc = s.pc + 1 ∧
      t.st = s.st ∧ t.cbyp = s.cbyp ∧ t.out = s.out ∧ t.pend = none ∧ t.stream = ws ∧
      t.params = s.params ∧ t.draws = s.draws ∧ t.source = s.source :=
  ⟨_, step_of_fetch_rejected (fetch_of_decodeWord_error hp hs hd), Status.record_errcode _ e, Status.record_ovf _ e,
    rfl, rfl, rfl, rfl, rfl, rfl, rfl, rfl, rfl⟩

/-- Settles O13: a word with a reserved OP decodes to ILLEGAL_OPCODE. -/
theorem illegalOpcodeRecorded : Obligations.IllegalOpcodeRecorded := by
  intro s w ws hp hs hreserved
  have hop : opOfCode (opField w) = none := opOfCode_eq_none_iff.2 (by simpa [opField] using hreserved)
  exact step_of_decodeWord_error hp hs (decodeWord_of_opOfCode_eq_none hop)

/-- Settles O14: a word of defined OP with a 1 outside its mask decodes to RESERVED_FIELD. -/
theorem reservedFieldRecorded : Obligations.ReservedFieldRecorded := by
  intro s w ws op hp hs hop hmask
  have hd : decodeWord w = .error .reservedField := (decodeWord_of_opField hop).trans (if_neg hmask)
  exact step_of_decodeWord_error hp hs hd

/-! ### The reading that stops at the first error -/

theorem faultingStep_of_faultRec_none {s t : State} (h : step s = .next t) (ht : t.faultRec = none) :
    faultingStep s = step s := by
  rw [faultingStep, h]
  dsimp only
  rw [ht]

theorem faultingStep_of_faultRec_some {s t : State} {f : Fault} (h : step s = .next t) (ht : t.faultRec = some f) :
    faultingStep s = .fault f := by
  rw [faultingStep, h]
  dsimp only
  rw [ht]

/-- The first error stops the reading of R208 with the record of its word. -/
theorem faultingStep_of_fetch_rejected {s : State} {e : CommandError} {w : Word} {rest : List Word}
    (hrec : s.faultRec = none) (hf : fetch s = .rejected e w rest) : faultingStep s = .fault (faultOf e w s.pc) := by
  apply faultingStep_of_faultRec_some (step_of_fetch_rejected hf)
  rw [State.recordError_faultRec, State.accepted_faultRec, hrec, keepFirst_none, State.accepted_pc]

/-- A command, which leaves the record alone (R42), does not stop it. -/
theorem faultingStep_of_fetch_command {s : State} {i : Instr} {rest : List Word} (hrec : s.faultRec = none)
    (hf : fetch s = .command i rest) : faultingStep s = step s := by
  obtain ⟨t, ht, hframe⟩ := exec_next i (s.accepted none rest)
  obtain ⟨-, hkeep, -⟩ := hframe.control
  exact faultingStep_of_faultRec_none ((step_of_fetch_command hf).trans ht) (hkeep.trans hrec)

/-- Settles O16, by what the fetch gives. -/
theorem faultingStepStopsAtFirstError : Obligations.FaultingStepStopsAtFirstError := by
  intro s hrec
  cases hf : fetch s with
  | command i rest => exact faultingStep_of_fetch_command hrec hf
  | rejected e w rest => cases e <;> exact faultingStep_of_fetch_rejected hrec hf
  | incomplete h got => exact faultingStep_of_faultRec_none (step_of_fetch_incomplete hf) hrec
  | empty => rw [faultingStep, step_of_stream_nil ((fetch_eq_empty_iff s).1 hf)]

end Sys2Proof.Machine
end
